-- ==== Sys2Proof/Word.lean ====
section
/-! DEFINITION. The word types of the engine and the type that holds its binary64 values. -/

namespace Sys2Proof

/-- A register word, and a byte address of system memory (00_scope.md R10: ADDR_W = 32). -/
abbrev Word := BitVec 32

/-- One byte of system memory (20_memory.md R74: every access is one byte wide). -/
abbrev Byte := BitVec 8

/-- A finite binary64 value, held exactly as `units · 2^-1074`: every finite binary64 value is an
integer multiple of the smallest subnormal (00_scope.md R13). Infinities and NaN arise in no rule
(00_scope.md R22), and the sign of a zero is read by none: log 10. -/
structure F64 where
  units : Int
deriving DecidableEq, Repr

end Sys2Proof
end

