-- ==== Sys2Proof/Syntax.lean ====
section
/-! DEFINITION. The instructions: the six command words of spec/opcode_table.json. -/

namespace Sys2Proof

/-- A command (30_encoding.md R103). A command word has no operand field (30_encoding.md R102): the
operands are the configuration registers (30_encoding.md R105). -/
inductive Instr where
  | nop
  | hash
  | hashq
  | hashw
  | hdist
  | clear
deriving DecidableEq, Repr

end Sys2Proof
end

