-- ==== Sys2Proof/Decode.lean ====
section
/-! DEFINITION. The command decoder (30_encoding.md R104), total on 32-bit words, and the encoder. -/

namespace Sys2Proof

/-- Why a command word is rejected (30_encoding.md R104). -/
inductive Reject where
  /-- RSVD, bits 31 to 4, is not 0: detail 2. -/
  | reservedField
  /-- OPCODE is one of 0x6 to 0xF: detail 1. -/
  | reservedOpcode
deriving DecidableEq, Repr

/-- OPCODE, bits 3 to 0 (30_encoding.md R102). -/
def opcodeField (w : Word) : BitVec 4 := w.extractLsb' 0 4

/-- RSVD, bits 31 to 4 (30_encoding.md R102). -/
def rsvdField (w : Word) : BitVec 28 := w.extractLsb' 4 28

/-- The opcode map (30_encoding.md R103). -/
def opcodeMap (op : BitVec 4) : Option Instr :=
  match op.toNat with
  | 0 => some .nop
  | 1 => some .hash
  | 2 => some .hashq
  | 3 => some .hashw
  | 4 => some .hdist
  | 5 => some .clear
  | _ => none

/-- 30_encoding.md R104: the RSVD test comes first; every word is one command or rejected. -/
def decode (w : Word) : Except Reject Instr :=
  if rsvdField w ≠ 0 then .error .reservedField
  else match opcodeMap (opcodeField w) with
    | some i => .ok i
    | none => .error .reservedOpcode

/-- The OPCODE of each command (30_encoding.md R103). -/
def opcodeOf : Instr → BitVec 4
  | .nop => 0x0
  | .hash => 0x1
  | .hashq => 0x2
  | .hashw => 0x3
  | .hdist => 0x4
  | .clear => 0x5

/-- The command word: RSVD = 0 above the OPCODE (30_encoding.md R102). -/
def encode (i : Instr) : Word := (0 : BitVec 28) ++ opcodeOf i

/-- The DETAIL an ILLEGAL_COMMAND records (45_control_commands.md R222). -/
def Reject.detail : Reject → BitVec 8
  | .reservedField => 2
  | .reservedOpcode => 1

/-- The word of a table row of `nbits` bits with value `w`: a command word is one 32-bit word, and the
bits the row does not give are 0 (30_encoding.md R106). -/
def tableWord (nbits w : Nat) : Word := BitVec.ofNat 32 (w % 2 ^ nbits)

/-- The instruction the decoder reads from a row of spec/opcode_table.json. -/
def decodeTableWord (nbits w : Nat) : Option Instr :=
  match decode (tableWord nbits w) with
  | .ok i => some i
  | .error _ => none

end Sys2Proof
end

