-- ==== Sys2Proof/Config.lean ====
section
/-! DEFINITION. What an implementation or platform fixes (the parameters of 00_scope.md section 3 and
93_implementation_defined.md), and the free values of races, which have no body. -/

namespace Sys2Proof

/-- The two kinds of engine access (00_scope.md R15). -/
inductive AccessKind where
  | read
  | write
deriving DecidableEq, Repr

/-- What the platform does with an engine access: it performs it, answers with an error response
(`MemErr` holds, 00_scope.md R15), or never answers (70_reset_and_hazards.md R271). -/
inductive Answer where
  | ok
  | error
  | silent
deriving DecidableEq, Repr

/-- `size` consecutive addresses from `base` on (modulo 2^32) at which the platform gives accesses of
kind `kind` the answer `answer`. -/
structure BusRegion where
  base   : Word
  size   : Nat
  kind   : AccessKind
  answer : Answer
deriving DecidableEq, Repr

/-- The parameters of one engine and its platform. No step changes them (log 2). -/
structure Config where
  /-- `MAX_BITS` (00_scope.md R9); the reference configuration takes 32. -/
  maxBits   : BitVec 8
  /-- `HALF_SCALE` (93_implementation_defined.md row 2); default 256. -/
  halfScale : BitVec 16
  /-- The platform's answers, the first region that covers an access counting; an access no region
  covers is performed. Any predicate `MemErr` on 2^32 addresses can be written so (log 3). -/
  bus       : List BusRegion
  /-- `PORT_COHERENT` (20_memory.md R90): the platform's interconnect makes the host's memory accesses and
  the engine's visible to each other in the order the host issues them. OPEN; read by `TakesEffect` (log 14). -/
  portCoherent : Bool
deriving DecidableEq, Repr

/-- The reference configuration: `MAX_BITS` 32 (00_scope.md R9), `HALF_SCALE` 256
(41_quantizer.md R152). DESIGN CHOICE: no region that errs (log 3), and a port that is not coherent (log 14). -/
def Config.reference : Config := ⟨32, 256, [], false⟩

/-- 00_scope.md R9: `MAX_BITS` is an even integer from 16 to 254. -/
def Config.wf (c : Config) : Bool := decide (16 ≤ c.maxBits.toNat) && decide (c.maxBits.toNat % 2 = 0)

/-- `REG_BASE` divided by 256 (30_encoding.md R100: `REG_BASE` is a multiple of 256). OPEN: no body, and a natural
number, since the spec gives an address on the host's bus no width (log 13). -/
opaque Config.regBasePage : Nat

/-- Which of the values a byte held during a command a raced engine read returns (20_memory.md R86):
free, by race number and number of the access within the command. No body. -/
opaque Config.readChoice : Nat → Nat → Nat

/-- Whether a fingerprint byte that host and engine both wrote ends with the engine's value
(20_memory.md R86): free, by race number and byte number. No body. -/
opaque Config.writeChoice : Nat → Nat → Bool

/-- Which of the values a fingerprint byte can have for a host load before completion is observed the load returns
(20_memory.md R86, 93_implementation_defined.md row 16): free, by number of the load. No body. -/
opaque Config.loadChoice : Nat → Nat

/-- Which of the values a result register can have before completion is observed a host read returns
(93_implementation_defined.md row 16): free, by number of the read. No body. -/
opaque Config.resultChoice : Nat → Nat

/-- Whether a fingerprint byte was written before a reset abandoned the command
(70_reset_and_hazards.md R261): free, by number of the reset and byte number. No body. -/
opaque Config.resetChoice : Nat → Nat → Bool

end Sys2Proof
end

