-- ==== Sys2Proof/Machine/State.lean ====
section
/-! DEFINITION. The machine's state as plain data: the engine's registers and phase, system memory, the
host's pending operations; the reasons a step can stop; the state after reset. -/

namespace Sys2Proof.Machine

/-- Error codes, ERR.CODE (60_exceptions.md R231). Codes 7 to 255 are never written. -/
inductive ErrCode where
  | none
  | invalidArgument
  | lengthMismatch
  | nullArgument
  | illegalCommand
  | busError
  | indexRange
deriving DecidableEq, Repr

/-- What `raise E(detail, addr)` records (60_exceptions.md R230). -/
structure CmdError where
  code   : ErrCode
  detail : BitVec 8
  addr   : Word
deriving DecidableEq, Repr

/-- Why a running command does not reach its normal completion: it raises an error
(60_exceptions.md R230), or an access is never answered (70_reset_and_hazards.md R271). -/
inductive Stop where
  | error (e : CmdError)
  | silent (addr : Word)
deriving DecidableEq, Repr

/-- The three hash commands (44_hash_commands.md). -/
inductive HashOp where
  | hash
  | hashq
  | hashw
deriving DecidableEq, Repr

/-- The commands that have a running phase (10_state.md R58). -/
inductive RunOp where
  | hash (op : HashOp)
  | hdist
deriving DecidableEq, Repr

/-- The sequencer phase (10_state.md R58). While a command runs, `replaced` lists the address and the old
byte of every host store since acceptance, newest first: with the current contents, these are all the
values a byte held during the command (20_memory.md R86). -/
inductive Phase where
  | idle
  | run (op : RunOp) (replaced : List Host.Cell)
deriving DecidableEq, Repr

/-- The registers of the block (10_state.md R33). -/
inductive Reg where
  | id | ctrl | status | cmd | err | errAddr | bits | width | height | srcBase | dstBase
  | aBase | aLen | bBase | bLen | dist | info
deriving DecidableEq, Repr

/-- What the host does (00_scope.md R26): accesses of `size` bytes at an offset of the register block
(30_encoding.md R101), one-byte stores and loads of system memory, a look at the interrupt line
(20_memory.md R85), and reset (70_reset_and_hazards.md R260). -/
inductive HostOp where
  | regWrite (off : BitVec 8) (size : Nat) (v : Word)
  | regRead (off : BitVec 8) (size : Nat)
  | memStore (a : Word) (v : Byte)
  | memLoad (a : Word)
  | seeIrq
  | reset
deriving DecidableEq, Repr

/-- What a host that has not observed completion may still read instead of the present values, newest first: the
results and the bytes that completion steps have replaced since the host last observed completion
(70_reset_and_hazards.md R267, 93_implementation_defined.md row 16; log 22). `info` is VALID and PATH. -/
structure Unseen where
  dist    : List Word
  info    : List (Bool × Bool)
  records : List CmdError
  bytes   : List Host.Cell
deriving DecidableEq, Repr

/-- The host has observed every completion. -/
def Unseen.empty : Unseen := ⟨[], [], [], []⟩

/-- A host operation still to come. `early`: it arrives while a running command is still busy; otherwise
it arrives after completion (log 8). When the engine is idle, `early` says nothing. -/
structure Pending where
  early : Bool
  op    : HostOp
deriving DecidableEq, Repr

/-- System memory: listed bytes at rising addresses, none equal to what an unlisted byte reads as. -/
abbrev Memory := List Host.Cell

/-- Reasons the machine stops for good. -/
inductive Fault where
  /-- The engine's access at `addr` is never answered by the platform, so the engine has no step
  (93_implementation_defined.md row 24: "stuck"). Raised by the completion of HASH, HASHQ, HASHW and HDIST.
  Safe: nothing is claimed of a machine that hangs. -/
  | portSilent (addr : Word)
deriving DecidableEq, Repr

/-- Reasons the model gives no meaning. -/
inductive Refusal where
  /-- An instruction with no meaning yet, by its mnemonic. Raised by no arm. Safe. -/
  | notModelled (mnemonic : String)
  /-- A host access to the register block that is not an aligned 32-bit one (30_encoding.md R101: "A model
  refuses such an access (no step)"). Raised by the host's register reads and writes. Safe. -/
  | registerAccess (off : BitVec 8) (size : Nat)
deriving DecidableEq, Repr

/-- The whole machine. STATUS.BUSY, STATUS.ERR, ID, CMD and irq have no storage of their own
(10_state.md R34, R39, R42, R58, R62). -/
structure State where
  /-- Parameters of the spec; no step changes them. -/
  cfg       : Config
  /-- CTRL.IRQ_EN (10_state.md R35). -/
  irqEn     : Bool
  /-- STATUS.DONE (10_state.md R38). -/
  done      : Bool
  /-- STATUS.CMD_OVR (10_state.md R40). -/
  cmdOvr    : Bool
  /-- ERR.CODE (10_state.md R43). -/
  errCode   : ErrCode
  /-- ERR.DETAIL (10_state.md R43). -/
  errDetail : BitVec 8
  /-- ERR_ADDR (10_state.md R44). -/
  errAddr   : Word
  /-- BITS (10_state.md R45). -/
  bits      : BitVec 8
  /-- WIDTH (10_state.md R46). -/
  width     : BitVec 16
  /-- HEIGHT (10_state.md R47). -/
  height    : BitVec 16
  /-- SRC_BASE (10_state.md R48). -/
  srcBase   : Word
  /-- DST_BASE (10_state.md R49). -/
  dstBase   : Word
  /-- A_BASE (10_state.md R50). -/
  aBase     : Word
  /-- A_LEN (10_state.md R51). -/
  aLen      : BitVec 28
  /-- B_BASE (10_state.md R52). -/
  bBase     : Word
  /-- B_LEN (10_state.md R53). -/
  bLen      : BitVec 28
  /-- DIST (10_state.md R54). -/
  dist      : Word
  /-- INFO.PATH (10_state.md R55). -/
  infoPath  : Bool
  /-- INFO.VALID (10_state.md R55). -/
  infoValid : Bool
  /-- The sequencer phase (10_state.md R58). -/
  phase     : Phase
  /-- System memory (20_memory.md R70). -/
  mem       : Memory
  /-- The model's own: what the host has not seen replaced (log 22). -/
  unseen    : Unseen
  /-- The model's own: the host's pending operations, oldest first (log 8). -/
  inputs    : List Pending
  /-- The model's own: the answer to the last host read or load (log 7). -/
  busData   : Word
  /-- The model's own: numbers the free choices of races (log 6). -/
  freeCtr   : Nat
deriving DecidableEq, Repr

/-- After reset (70_reset_and_hazards.md R260), in the reference configuration, with nothing listed in
memory and no host operation pending (logs 1, 2, 6, 7, 8, 22). -/
def State.reset : State where
  cfg := Config.reference
  irqEn := false
  done := false
  cmdOvr := false
  errCode := .none
  errDetail := 0
  errAddr := 0
  bits := 16
  width := 0
  height := 0
  srcBase := 0
  dstBase := 0
  aBase := 0
  aLen := 0
  bBase := 0
  bLen := 0
  dist := 0
  infoPath := false
  infoValid := false
  phase := .idle
  mem := []
  unseen := .empty
  inputs := []
  busData := 0
  freeCtr := 0

end Sys2Proof.Machine
end

