-- ==== Sys2Proof/Machine/Ops.lean ====
section
/-! DEFINITION. The shared operations: memory, the engine's port, host access checks, acceptance,
completion, and the one operation that raises an error. -/

namespace Sys2Proof.Machine

/-! ## Memory (20_memory.md R70) -/

/-- What an address that is not listed reads as (DESIGN CHOICE, log 1). -/
def Memory.blank : Byte := 0

/-- Read one byte. -/
def Memory.read : Memory → Nat → Byte
  | [], _ => Memory.blank
  | (b, u) :: rest, a => if a = b then u else Memory.read rest a

/-- Write one byte, keeping the canonical form. -/
def Memory.write : Memory → Nat → Byte → Memory
  | [], a, v => if v = Memory.blank then [] else [(a, v)]
  | (b, u) :: rest, a, v =>
    if a < b then
      if v = Memory.blank then (b, u) :: rest else (a, v) :: (b, u) :: rest
    else if a = b then
      if v = Memory.blank then rest else (a, v) :: rest
    else (b, u) :: Memory.write rest a v

/-- The canonical form from address `lo` on: addresses strictly rising and below 2^32, no entry equal to
what an unlisted address reads as. -/
def Memory.wfFrom : Nat → Memory → Bool
  | _, [] => true
  | lo, (a, v) :: rest =>
    decide (lo ≤ a) && decide (a < 2 ^ 32) && decide (v ≠ Memory.blank) && Memory.wfFrom (a + 1) rest

/-- The canonical form of memory. -/
def Memory.wf (m : Memory) : Bool := Memory.wfFrom 0 m

/-! ## The engine's memory port -/

/-- The region covers an access at `a` (addresses modulo 2^32, 20_memory.md R73). -/
def covers (r : BusRegion) (k : AccessKind) (a : Word) : Bool :=
  r.kind == k && decide ((a - r.base).toNat < r.size)

/-- The platform's answer to an engine access. -/
def busAnswer (c : Config) (k : AccessKind) (a : Word) : Answer :=
  match c.bus.find? (fun r => covers r k a) with
  | some r => r.answer
  | none => .ok

/-- `MemErr(addr, kind)` (00_scope.md R15). -/
def memErr (c : Config) (a : Word) (k : AccessKind) : Bool := busAnswer c k a == .error

/-- BUS_ERROR's DETAIL: 1 for a read, 2 for a write (60_exceptions.md R234). -/
def busDetail : AccessKind → BitVec 8
  | .read => 1
  | .write => 2

/-- What an engine access at `a` does instead of completing, if anything: it raises BUS_ERROR at `a`
(60_exceptions.md R234), or is never answered (70_reset_and_hazards.md R271). -/
def accessStop (c : Config) (k : AccessKind) (a : Word) : Option Stop :=
  match busAnswer c k a with
  | .ok => none
  | .error => some (.error ⟨.busError, busDetail k, a⟩)
  | .silent => some (.silent a)

/-! ## The phase -/

/-- STATUS.BUSY = 1 exactly when the phase is RUN(op) (10_state.md R37, R58). -/
def State.busy (s : State) : Bool :=
  match s.phase with
  | .idle => false
  | .run _ _ => true

/-- The phase is RUN(op) with op one of HASH, HASHQ, HASHW. -/
def State.runsHash (s : State) : Bool :=
  match s.phase with
  | .run (.hash _) _ => true
  | .run .hdist _ => false
  | .idle => false

/-- The bytes host stores have replaced since acceptance. -/
def State.replaced (s : State) : List Host.Cell :=
  match s.phase with
  | .run _ r => r
  | .idle => []

/-- No host operation arrives before the running command completes (44_hash_commands.md R206, log 8). -/
def State.quiet (s : State) : Bool :=
  match s.inputs with
  | [] => true
  | p :: _ => !p.early

/-- The phase after a host store replaced the byte `old` of address `a`: a running command keeps it among the
values the byte held (20_memory.md R86). -/
def Phase.noteStore (a : Nat) (old : Byte) : Phase → Phase
  | .idle => .idle
  | .run op r => .run op ((a, old) :: r)

/-- The bytes address `a` held earlier in the running command. -/
def State.heldBefore (s : State) (a : Word) : List Byte :=
  (s.replaced.filter (fun c => c.1 == a.toNat)).map Prod.snd

/-- The host has stored to address `a` since acceptance. -/
def State.raced (s : State) (a : Word) : Bool := s.replaced.any (fun c => c.1 == a.toNat)

/-- One of the values a byte or a register can have, the current one when there is no other. -/
def pickHeld {α : Type} (cur : α) (others : List α) (k : Nat) : α :=
  match others with
  | [] => cur
  | _ :: _ => (cur :: others).getD (k % (others.length + 1)) cur

/-- The byte access number `n` of the running command reads at `a`: the byte in memory, or, when the host
stored to it during the command, any value it held since acceptance (20_memory.md R86). -/
def State.engineRead (s : State) (n : Nat) (a : Word) : Byte :=
  pickHeld (s.mem.read a.toNat) (s.heldBefore a) (Config.readChoice s.freeCtr n)

/-- The bytes of `writes` go to memory in order; where `keep` holds of a byte's number and address, the
byte in memory stays. -/
def storeAll (keep : Nat → Word → Bool) : Nat → List (Word × Byte) → Memory → Memory
  | _, [], m => m
  | j, (a, v) :: rest, m =>
    storeAll keep (j + 1) rest (if keep j a then m else m.write a.toNat v)

/-! ## What the host has not observed (70_reset_and_hazards.md R267) -/

/-- The error record (10_state.md R43, R44). -/
def State.record (s : State) : CmdError := ⟨s.errCode, s.errDetail, s.errAddr⟩

/-- What the host may read instead of the present values once a command that made `writes` has completed: the
results and bytes of before, and what it could read already (DESIGN CHOICE, log 22). -/
def State.remembered (s : State) (writes : List (Word × Byte)) : Unseen where
  dist := s.dist :: s.unseen.dist
  info := (s.infoValid, s.infoPath) :: s.unseen.info
  records := s.record :: s.unseen.records
  bytes := writes.map (fun p => (p.1.toNat, s.mem.read p.1.toNat)) ++ s.unseen.bytes

/-- The host's own write to CMD has replaced the record, so the host reads the new one (70_reset_and_hazards.md
R272; DEDUCED, log 22). -/
def Unseen.settleRecord (u : Unseen) : Unseen := { u with records := [] }

/-- The host's own store has replaced the byte, so the host reads no value of before (DEDUCED, log 22). -/
def Unseen.settleByte (a : Nat) (u : Unseen) : Unseen := { u with bytes := u.bytes.filter (fun c => c.1 != a) }

/-- A result may read otherwise than it is, since the host has not observed a completion or a command is running. -/
def State.unsettled (s : State) : Bool := s.busy || s.unseen != .empty

/-- The running command's accesses have ended. Its writes reach memory, and a byte the host also stored during the
command ends with either value (20_memory.md R86). What its completion step replaces the host may still read until it
observes the completion (93_implementation_defined.md row 16). -/
def State.commitWrites (s : State) (writes : List (Word × Byte)) : State :=
  { s with
    mem := storeAll (fun j a => s.raced a && !Config.writeChoice s.freeCtr j) 0 writes s.mem
    unseen := s.remembered writes }

/-! ## Acceptance, completion, errors -/

/-- Acceptance of a command that runs (44_hash_commands.md R200, 43_comparator.md R180). -/
def State.accept (op : RunOp) (s : State) : State :=
  { s with
    phase := .run op []
    done := false
    errCode := .none
    errDetail := 0
    errAddr := 0
    unseen := s.unseen.settleRecord }

/-- A command word written while BUSY is dropped (10_state.md R42). -/
def State.overrun (s : State) : State := { s with cmdOvr := true }

/-- `raise E(detail, addr)` (60_exceptions.md R230): the error is recorded, INFO becomes 0 if a hash command
runs, the phase becomes idle and DONE is set. Nothing else changes. -/
def State.raise (e : CmdError) (s : State) : State :=
  { s with
    errCode := e.code
    errDetail := e.detail
    errAddr := e.addr
    infoValid := !s.runsHash && s.infoValid
    infoPath := !s.runsHash && s.infoPath
    phase := .idle
    done := true }

/-- There is no trap return (60_exceptions.md R244); CLEAR clears the record (45_control_commands.md R221). -/
def State.clearRecord (s : State) : State :=
  { s with
    done := false
    cmdOvr := false
    errCode := .none
    errDetail := 0
    errAddr := 0
    unseen := s.unseen.settleRecord }

/-- The host's operations still to come are `l`. -/
def State.withInputs (l : List Pending) (s : State) : State := { s with inputs := l }

/-- The engine answers a host read with `v`. -/
def State.answer (v : Word) (s : State) : State := { s with busData := v }

/-- A host write to STATUS: bits 1 and 3 written as 1 clear DONE and CMD_OVR (10_state.md R41). -/
def State.writeStatus (v : Word) (s : State) : State :=
  { s with done := s.done && !v.getLsbD 1, cmdOvr := s.cmdOvr && !v.getLsbD 3 }

/-- Completion of a hash command without error (44_hash_commands.md R205). -/
def State.completeHash (weighted : Bool) (s : State) : State :=
  { s with infoValid := true, infoPath := weighted, phase := .idle, done := true }

/-- Completion of HDIST without error (43_comparator.md R180, R184). -/
def State.completeDistance (d : Nat) (s : State) : State :=
  { s with dist := BitVec.ofNat 32 d, phase := .idle, done := true }

/-- How a command that does not reach its normal completion ends. -/
def State.endWith (st : Stop) (s : State) : Host.Outcome State Fault Refusal :=
  match st with
  | .error e => .next (s.raise e)
  | .silent a => .fault (.portSilent a)

/-- A rejected command word takes effect at once, with no running phase (45_control_commands.md R222). -/
def State.rejectWord (r : Reject) (s : State) : State :=
  { s with unseen := s.unseen.settleRecord }.raise ⟨.illegalCommand, r.detail, 0⟩

/-! ## The host's access to the register block -/

/-- An access to the register block the engine answers: four bytes at an offset that is a multiple of 4
(30_encoding.md R101). -/
def alignedAccess (off : BitVec 8) (size : Nat) : Bool := size == 4 && off.toNat % 4 == 0

/-- The address of the block on the host's bus, a multiple of 256 (30_encoding.md R100), of no fixed width (log 13). -/
def regBase : Nat := Config.regBasePage * 256

/-- The offset of a bus address in the register block, none outside it (30_encoding.md R100). -/
def blockOffset (addr : Nat) : Option (BitVec 8) :=
  if regBase ≤ addr ∧ addr < regBase + 256 then some (BitVec.ofNat 8 (addr - regBase)) else none

end Sys2Proof.Machine
end

