-- ==== Sys2Proof/Machine/Operands.lean ====
section
/-! DEFINITION. Operands of the commands: what they are assembled from, the addresses they name, the
ordered operand checks and the choice of the aggregation path. -/

namespace Sys2Proof.Machine

/-- The operands of a hash command, zero-extended from their fields (30_encoding.md R105). -/
structure HashArgs where
  w    : Nat
  h    : Nat
  bits : Nat
  src  : Word
  dst  : Word
deriving DecidableEq, Repr

/-- The operands of HDIST (30_encoding.md R105). -/
structure DistArgs where
  a    : Word
  aLen : Nat
  b    : Word
  bLen : Nat
deriving DecidableEq, Repr

/-- Operand assembly of HASH, HASHQ and HASHW (30_encoding.md R105). -/
def State.hashArgs (s : State) : HashArgs :=
  ⟨s.width.toNat, s.height.toNat, s.bits.toNat, s.srcBase, s.dstBase⟩

/-- Operand assembly of HDIST (30_encoding.md R105). -/
def State.distArgs (s : State) : DistArgs := ⟨s.aBase, s.aLen.toNat, s.bBase, s.bLen.toNat⟩

/-- `PixAddr(x, y, ch)`, modulo 2^32 (20_memory.md R72, R73). -/
def pixAddr (o : HashArgs) (x y ch : Nat) : Word := o.src + BitVec.ofNat 32 (4 * (y * o.w + x) + ch)

/-- Where byte `j` of the fingerprint goes (20_memory.md R75). -/
def fingerprintAddr (o : HashArgs) (j : Nat) : Word := o.dst + BitVec.ofNat 32 j

/-- Byte `i` of the left fingerprint (20_memory.md R76). -/
def leftAddr (o : DistArgs) (i : Nat) : Word := o.a + BitVec.ofNat 32 i

/-- Byte `i` of the right fingerprint (20_memory.md R76). -/
def rightAddr (o : DistArgs) (i : Nat) : Word := o.b + BitVec.ofNat 32 i

/-- The aggregation paths (40_block_aggregator.md R121). -/
inductive AggPath where
  | exact
  | weighted
deriving DecidableEq, Repr

/-- `Path(op, W, H, bits)` (40_block_aggregator.md R121). -/
def pathOf (op : HashOp) (w h bits : Nat) : AggPath :=
  match op with
  | .hashq => .exact
  | .hashw => .weighted
  | .hash => if w % bits = 0 ∧ h % bits = 0 then .exact else .weighted

/-- INVALID_ARGUMENT with its DETAIL, ERR_ADDR 0 (60_exceptions.md R232). -/
def invalidArgument (detail : BitVec 8) : CmdError := ⟨.invalidArgument, detail, 0⟩

/-- The failing conditions of 44_hash_commands.md R201 in their order, each with its detail. -/
def hashChecks (c : Config) (op : HashOp) (o : HashArgs) : List (Bool × BitVec 8) :=
  [ (o.src == 0, 1),
    (o.w == 0, 2),
    (o.h == 0, 3),
    (o.bits == 0, 4),
    (o.bits % 2 == 1, 5),
    (decide (c.maxBits.toNat < o.bits), 6),
    (o.dst == 0, 7),
    (pathOf op o.w o.h o.bits == .exact && (o.w / o.bits == 0 || o.h / o.bits == 0), 8) ]

/-- The operand checks of every hash command: the first that fails raises (44_hash_commands.md R201). -/
def checkHashArgs (c : Config) (op : HashOp) (o : HashArgs) : Option CmdError :=
  ((hashChecks c op o).find? (fun k => k.1)).map (fun k => invalidArgument k.2)

/-- NULL_ARGUMENT's DETAIL: 1 left absent, 2 right absent, 3 both (43_comparator.md R181). -/
def nullDetail (o : DistArgs) : BitVec 8 :=
  (if o.a = 0 then 1 else 0) + (if o.b = 0 then 2 else 0)

/-- The checks of HDIST: NULL_ARGUMENT before LENGTH_MISMATCH (43_comparator.md R180). -/
def checkDistArgs (o : DistArgs) : Option CmdError :=
  if o.a = 0 ∨ o.b = 0 then some ⟨.nullArgument, nullDetail o, 0⟩
  else if o.aLen ≠ o.bLen then some ⟨.lengthMismatch, 0, 0⟩
  else none

end Sys2Proof.Machine
end

