-- ==== Sys2Proof/Machine/Comparator.lean ====
section
/-! DEFINITION. The Comparator (43_comparator.md): the Hamming distance over low nibbles, its memory
accesses, and how an HDIST in progress ends. -/

namespace Sys2Proof.Machine

/-- The number of 1 bits (00_scope.md R17). -/
def popcount {n : Nat} (v : BitVec n) : Nat := (List.range n).countP v.getLsbD

/-- The contribution of one byte position (43_comparator.md R183). -/
def byteDistance (a b : Byte) : Nat := popcount ((a ^^^ b) &&& 0x0F)

/-- The distance of two equally long fingerprints: the sum of the contributions (43_comparator.md R184). -/
def hammingDistance (as bs : List Byte) : Nat := (List.zipWith byteDistance as bs).sum

/-- The addresses HDIST reads, in order: left byte, then right byte, ascending (20_memory.md R81). -/
def distAddrs (o : DistArgs) : List Word :=
  (List.range o.aLen).flatMap fun i => [leftAddr o i, rightAddr o i]

/-- Why an HDIST does not complete normally, if it does not: the argument checks, then the reads in order
(43_comparator.md R180, R185). -/
def distStop (c : Config) (o : DistArgs) : Option Stop :=
  match checkDistArgs o with
  | some e => some (.error e)
  | none => (distAddrs o).findSome? (accessStop c .read)

/-- The left fingerprint as the running HDIST reads it: read `i` of it is access `2·i`. -/
def State.leftBytes (s : State) : List Byte :=
  (List.range s.aLen.toNat).map fun i => s.engineRead (2 * i) (leftAddr s.distArgs i)

/-- The right fingerprint as the running HDIST reads it: read `i` of it is access `2·i + 1`. -/
def State.rightBytes (s : State) : List Byte :=
  (List.range s.aLen.toNat).map fun i => s.engineRead (2 * i + 1) (rightAddr s.distArgs i)

/-- The distance a running HDIST computes (43_comparator.md R180). -/
def State.distance (s : State) : Nat := hammingDistance s.leftBytes s.rightBytes

/-- HDIST runs to its end: DIST is written only without error (43_comparator.md R180, R184). -/
def State.finishDistance (s : State) : Host.Outcome State Fault Refusal :=
  match distStop s.cfg s.distArgs with
  | some st => (s.commitWrites []).endWith st
  | none => .next ((s.commitWrites []).completeDistance s.distance)

end Sys2Proof.Machine
end

