-- ==== Sys2Proof/Machine/Binary64.lean ====
section
/-! DEFINITION. The binary64 primitives (00_scope.md R20), each correctly rounded with roundTiesToEven.
A value is an integer number of units of 2^-1074; its precision is 53 significant bits. -/

namespace Sys2Proof.F64

/-- The number of units in 1.0. -/
@[irreducible] def scale : Nat := 2 ^ 1074

/-- A number of units that binary64 represents: 53 significant bits. -/
def Representable (n : Nat) : Prop := ∃ m e, m < 2 ^ 53 ∧ n = m * 2 ^ e

/-- The number of low bits a value of `n` units has below its 53 significant bits. -/
def spareBits (n : Nat) : Nat := n.log2 + 1 - 53

/-- The quotient `p / q` rounded to an integer, ties to even. -/
def divNearestEven (p q : Nat) : Nat :=
  if 2 * (p % q) < q ∨ (2 * (p % q) = q ∧ (p / q) % 2 = 0) then p / q else p / q + 1

/-- The non-negative number of units `p / q` rounded to 53 significant bits, ties to even. Below 2^53 units
the spacing is one unit: the subnormal range and its neighbour. -/
def roundUnits (p q : Nat) : Nat :=
  divNearestEven p (q * 2 ^ spareBits (p / q)) * 2 ^ spareBits (p / q)

/-- The signed number of units `p / q` rounded; roundTiesToEven is symmetric in the sign. -/
def roundSigned (p : Int) (q : Nat) : F64 := ⟨p.sign * roundUnits p.natAbs q⟩

/-- `f64(n)`. -/
def ofNat (n : Nat) : F64 := roundSigned (n * scale) 1

def zero : F64 := ofNat 0
def one : F64 := ofNat 1
def two : F64 := ofNat 2
def three : F64 := ofNat 3

/-- `fl_add(a, b)`. -/
def add (a b : F64) : F64 := roundSigned (a.units + b.units) 1

/-- `fl_sub(a, b)`. -/
def sub (a b : F64) : F64 := roundSigned (a.units - b.units) 1

/-- `fl_mul(a, b)`. -/
def mul (a b : F64) : F64 := roundSigned (a.units * b.units) scale

/-- `fl_div(a, b)`; no rule divides by zero or by a negative value (00_scope.md R22). -/
def div (a b : F64) : F64 := roundSigned (a.units * scale) b.units.natAbs

/-- `fl_fmod(a, b)`: exact, `a − b·trunc(a/b)`. -/
def fmod (a b : F64) : F64 := ⟨a.units.tmod b.units⟩

/-- `fl_floor(a)` of a non-negative value. -/
def floor (a : F64) : Nat := a.units.toNat / scale

/-- `fl_ceil(a)` of a non-negative value. -/
def ceil (a : F64) : Nat := (a.units.toNat + (scale - 1)) / scale

/-- `fl_abs(a)`. -/
def abs (a : F64) : F64 := ⟨a.units.natAbs⟩

/-- `a < b`. -/
def lt (a b : F64) : Bool := decide (a.units < b.units)

/-- `a == b`. -/
def eq (a b : F64) : Bool := decide (a.units = b.units)

end Sys2Proof.F64
end

