-- ==== Sys2Proof/Machine/Aggregator.lean ====
section
/-! DEFINITION. The BlockAggregator (40_block_aggregator.md): from the intensities of an image to the
BlockGrid and the pixels per block. -/

namespace Sys2Proof.Machine

/-- The aggregator's output (40_block_aggregator.md): the BlockGrid in raster order, and ppb. -/
structure Aggregate where
  grid : List F64
  ppb  : F64
deriving DecidableEq, Repr

/-- The intensity of a pixel from its four bytes (40_block_aggregator.md R120). -/
def intensity (r g b a : Byte) : Nat := if a = 0 then 765 else r.toNat + g.toNat + b.toNat

/-- The pixels of a `w` by `h` area, rows top to bottom, columns left to right. -/
def raster (w h : Nat) : List (Nat × Nat) :=
  (List.range h).flatMap fun y => (List.range w).map fun x => (x, y)

/-- The pixels a path reads, in the order it reads them (20_memory.md R80). -/
def pixelsOf (path : AggPath) (w h bits : Nat) : List (Nat × Nat) :=
  match path with
  | .exact => raster (bits * (w / bits)) (bits * (h / bits))
  | .weighted => raster w h

/-! ## Exact-division path -/

/-- The exact sum of the intensities of a block (40_block_aggregator.md R123). -/
def blockSum (bw bh r c : Nat) (pix : Nat → Nat → Nat) : Nat :=
  ((List.range bh).map fun iy =>
    ((List.range bw).map fun ix => pix (c * bw + ix) (r * bh + iy)).sum).sum

/-- The exact path (40_block_aggregator.md R122 to R124). -/
def exactAggregate (w h bits : Nat) (pix : Nat → Nat → Nat) : Aggregate where
  grid := (List.range bits).flatMap fun r =>
    (List.range bits).map fun c => F64.ofNat (blockSum (w / bits) (h / bits) r c pix)
  ppb := F64.ofNat ((w / bits) * (h / bits))

/-! ## Weighted path -/

/-- What the axis map gives a coordinate: the two block indices and their weights. -/
structure AxisEntry where
  lo  : Nat
  hi  : Nat
  wLo : F64
  wHi : F64
deriving DecidableEq, Repr

/-- A block size of the weighted path (40_block_aggregator.md R126). -/
def blockSize (n bits : Nat) : F64 := F64.div (F64.ofNat n) (F64.ofNat bits)

/-- The axis map of an axis that divides evenly (40_block_aggregator.md R127). -/
def evenAxis (i n bits : Nat) : AxisEntry := ⟨i / (n / bits), i / (n / bits), F64.one, F64.zero⟩

/-- Where the pixel's far edge lies within its block (40_block_aggregator.md R128, `m`). -/
def edgePos (i : Nat) (bs : F64) : F64 := F64.fmod (F64.ofNat (i + 1)) bs

/-- The fractional part of the edge position (40_block_aggregator.md R128, `f`). -/
def edgeFrac (i : Nat) (bs : F64) : F64 := F64.sub (edgePos i bs) (F64.ofNat (edgePos i bs).floor)

/-- The integer part of the edge position (40_block_aggregator.md R128, `k`). -/
def edgeWhole (i : Nat) (bs : F64) : F64 := F64.sub (edgePos i bs) (edgeFrac i bs)

/-- The pixel is not split: no block boundary lies strictly inside it, or it is the last of its axis
(40_block_aggregator.md R129). -/
def notSplit (i n : Nat) (bs : F64) : Bool :=
  F64.lt F64.zero (edgeWhole i bs) || i + 1 == n || F64.eq (edgePos i bs) F64.zero

/-- The axis map of an uneven axis (40_block_aggregator.md R128, R129). -/
def unevenAxis (i n : Nat) (bs : F64) : AxisEntry where
  lo := (F64.div (F64.ofNat i) bs).floor
  hi := if notSplit i n bs then (F64.div (F64.ofNat i) bs).floor else (F64.div (F64.ofNat i) bs).ceil
  wLo := F64.sub F64.one (edgeFrac i bs)
  wHi := edgeFrac i bs

/-- `AxisMap(i, N, bs)` (40_block_aggregator.md R127 to R129), the named configuration of the weighted path
(93_implementation_defined.md row 4). -/
def axisMap (i n bits : Nat) : AxisEntry :=
  if n % bits = 0 then evenAxis i n bits else unevenAxis i n (blockSize n bits)

/-- The four indices of a pixel lie in the grid (40_block_aggregator.md R130). -/
def indicesInRange (w h bits x y : Nat) : Bool :=
  decide ((axisMap y h bits).lo < bits) && decide ((axisMap y h bits).hi < bits) &&
  decide ((axisMap x w bits).lo < bits) && decide ((axisMap x w bits).hi < bits)

/-- One addition into a cell. -/
def addCell (bits row col : Nat) (v : F64) (grid : List F64) : List F64 :=
  grid.modify (row * bits + col) (fun cell => F64.add cell v)

/-- The share `(v·w_row)·w_col` of a pixel of intensity `v`. -/
def share (v : Nat) (wRow wCol : F64) : F64 := F64.mul (F64.mul (F64.ofNat v) wRow) wCol

/-- The four additions of one pixel, in order (40_block_aggregator.md R131). -/
def contribute (bits v : Nat) (row col : AxisEntry) (grid : List F64) : List F64 :=
  addCell bits row.hi col.hi (share v row.wHi col.wHi)
    (addCell bits row.hi col.lo (share v row.wHi col.wLo)
      (addCell bits row.lo col.hi (share v row.wLo col.wHi)
        (addCell bits row.lo col.lo (share v row.wLo col.wLo) grid)))

/-- The weighted path (40_block_aggregator.md R131 to R133). -/
def weightedAggregate (w h bits : Nat) (pix : Nat → Nat → Nat) : Aggregate where
  grid := (raster w h).foldl
    (fun grid p => contribute bits (pix p.1 p.2) (axisMap p.2 h bits) (axisMap p.1 w bits) grid)
    (List.replicate (bits * bits) F64.zero)
  ppb := F64.mul (blockSize w bits) (blockSize h bits)

/-- The BlockGrid and ppb of a hash command (44_hash_commands.md R200). -/
def aggregate (path : AggPath) (w h bits : Nat) (pix : Nat → Nat → Nat) : Aggregate :=
  match path with
  | .exact => exactAggregate w h bits pix
  | .weighted => weightedAggregate w h bits pix

end Sys2Proof.Machine
end

