-- ==== Sys2Proof/Machine/Packer.lean ====
section
/-! DEFINITION. The BitPacker (42_bitpacker.md): four bits into the low nibble of each byte. -/

namespace Sys2Proof.Machine

/-- `(b0 << 3) | (b1 << 2) | (b2 << 1) | b3` (42_bitpacker.md R170). -/
def packNibble (b0 b1 b2 b3 : Bool) : Byte :=
  ((BitVec.ofBool b0).setWidth 8 <<< 3) ||| ((BitVec.ofBool b1).setWidth 8 <<< 2) |||
  ((BitVec.ofBool b2).setWidth 8 <<< 1) ||| (BitVec.ofBool b3).setWidth 8

/-- The fingerprint: each four consecutive bits, in order, make one byte (42_bitpacker.md R170). -/
def pack : List Bool → List Byte
  | b0 :: b1 :: b2 :: b3 :: rest => packNibble b0 b1 b2 b3 :: pack rest
  | _ => []

end Sys2Proof.Machine
end

