-- ==== Sys2Proof/Machine/Quantizer.lean ====
section
/-! DEFINITION. The Quantizer (41_quantizer.md): per-band median thresholding of the BlockGrid. -/

namespace Sys2Proof.Machine

/-- Insert into an ascending sequence. -/
def insertAsc (v : F64) : List F64 → List F64
  | [] => [v]
  | u :: rest => if F64.lt u v then u :: insertAsc v rest else v :: u :: rest

/-- `sort_asc` (00_scope.md R23). -/
def sortAsc : List F64 → List F64
  | [] => []
  | v :: rest => insertAsc v (sortAsc rest)

/-- The median of a band (41_quantizer.md R151), the default of the parameter MEDIAN
(93_implementation_defined.md row 5). -/
def median (band : List F64) : F64 :=
  if band.length % 2 = 1 then (sortAsc band).getD ((band.length - 1) / 2) F64.zero
  else F64.div (F64.add ((sortAsc band).getD (band.length / 2 - 1) F64.zero)
    ((sortAsc band).getD (band.length / 2) F64.zero)) F64.two

/-- The half-block value, left to right (41_quantizer.md R152); `halfScale` is 256 by default. -/
def halfBlock (halfScale : Nat) (ppb : F64) : F64 :=
  F64.div (F64.mul (F64.mul ppb (F64.ofNat halfScale)) F64.three) F64.two

/-- The bit decision (41_quantizer.md R153). -/
def decideBit (m half v : F64) : Bool :=
  F64.lt m v || (F64.lt (F64.abs (F64.sub v m)) F64.one && F64.lt half m)

/-- Band `b`: the `b`-th quarter of the grid in raster order (41_quantizer.md R150). -/
def bandOf (n b : Nat) (grid : List F64) : List F64 := (grid.drop (b * n)).take n

/-- The bits of one band, thresholded by its own median (41_quantizer.md R154). -/
def bandBits (half : F64) (band : List F64) : List Bool := band.map (decideBit (median band) half)

/-- The BitSequence (41_quantizer.md R150, R152, R154). -/
def quantize (halfScale bits : Nat) (grid : List F64) (ppb : F64) : List Bool :=
  (List.range 4).flatMap fun b =>
    bandBits (halfBlock halfScale ppb) (bandOf (bits * bits / 4) b grid)

end Sys2Proof.Machine
end

