-- ==== Sys2Proof/Machine/HashEngine.lean ====
section
/-! DEFINITION. The shared body of the hash commands (44_hash_commands.md R200): the reads and their
errors, the fingerprint, the writes and their errors, and completion. -/

namespace Sys2Proof.Machine

/-- The number of the access that reads channel `ch` of pixel (x, y), and the byte it returns. -/
def State.channel (s : State) (x y ch : Nat) : Byte :=
  s.engineRead (4 * (y * s.width.toNat + x) + ch) (pixAddr s.hashArgs x y ch)

/-- `Intensity(x, y)` as the running command reads it (40_block_aggregator.md R120). -/
def State.pixel (s : State) (x y : Nat) : Nat :=
  intensity (s.channel x y 0) (s.channel x y 1) (s.channel x y 2) (s.channel x y 3)

/-- The path of a hash command in this state (40_block_aggregator.md R121). -/
def State.hashPath (op : HashOp) (s : State) : AggPath :=
  pathOf op s.width.toNat s.height.toNat s.bits.toNat

/-- INDEX_RANGE (60_exceptions.md R237). -/
def indexRangeError : CmdError := ⟨.indexRange, 0, 0⟩

/-- Why the command stops at a pixel, if it does: its four reads R, G, B, A in order (20_memory.md R80), then
on the weighted path its index check (60_exceptions.md R240). -/
def pixelStop (c : Config) (path : AggPath) (o : HashArgs) (p : Nat × Nat) : Option Stop :=
  match (List.range 4).findSome? (fun ch => accessStop c .read (pixAddr o p.1 p.2 ch)) with
  | some st => some st
  | none =>
    if path == .weighted && !indicesInRange o.w o.h o.bits p.1 p.2 then some (.error indexRangeError)
    else none

/-- Why a hash command stops before its writes, if it does: the operand checks, then the pixels in order
(60_exceptions.md R240). -/
def hashReadStop (c : Config) (op : HashOp) (o : HashArgs) : Option Stop :=
  match checkHashArgs c op o with
  | some e => some (.error e)
  | none =>
    (pixelsOf (pathOf op o.w o.h o.bits) o.w o.h o.bits).findSome?
      (pixelStop c (pathOf op o.w o.h o.bits) o)

/-- The fingerprint of an image (44_hash_commands.md R200): aggregate, quantize, pack. -/
def fingerprintOf (halfScale : Nat) (path : AggPath) (w h bits : Nat) (pix : Nat → Nat → Nat) : List Byte :=
  pack (quantize halfScale bits (aggregate path w h bits pix).grid (aggregate path w h bits pix).ppb)

/-- The fingerprint the running command computes. -/
def State.fingerprint (op : HashOp) (s : State) : List Byte :=
  fingerprintOf s.cfg.halfScale.toNat (s.hashPath op) s.width.toNat s.height.toNat s.bits.toNat s.pixel

/-- The fingerprint writes, in order (42_bitpacker.md R173). -/
def addressed (o : HashArgs) (fp : List Byte) : List (Word × Byte) :=
  fp.zipIdx.map fun p => (fingerprintAddr o p.2, p.1)

/-- The write is performed by the platform. -/
def writeOk (c : Config) (p : Word × Byte) : Bool := busAnswer c .write p.1 == .ok

/-- All the writes the command sets out to make: none if it stops before (60_exceptions.md R239). -/
def State.plannedWrites (op : HashOp) (s : State) : List (Word × Byte) :=
  match hashReadStop s.cfg op s.hashArgs with
  | some _ => []
  | none => addressed s.hashArgs (s.fingerprint op)

/-- The writes that are performed: those before the first that errs (42_bitpacker.md R173). -/
def State.performedWrites (op : HashOp) (s : State) : List (Word × Byte) :=
  (s.plannedWrites op).takeWhile (writeOk s.cfg)

/-- Why a hash command does not complete normally, if it does not. -/
def State.hashStop (op : HashOp) (s : State) : Option Stop :=
  match hashReadStop s.cfg op s.hashArgs with
  | some st => some st
  | none => (s.plannedWrites op).findSome? (fun p => accessStop s.cfg .write p.1)

/-- The running hash command runs to its end (44_hash_commands.md R200, R205). -/
def State.finishHash (op : HashOp) (s : State) : Host.Outcome State Fault Refusal :=
  match s.hashStop op with
  | some st => (s.commitWrites (s.performedWrites op)).endWith st
  | none =>
    .next ((s.commitWrites (s.performedWrites op)).completeHash (s.hashPath op == .weighted))

end Sys2Proof.Machine
end

