-- ==== Sys2Proof/Machine/Sequencer.lean ====
section
/-! DEFINITION. The sequencer (10_state.md R58): a running command runs to its end, and a command is
launched when its word is submitted. -/

namespace Sys2Proof.Machine

/-- The engine's turn: the running command makes its accesses and its completion step (10_state.md R58).
An idle engine stays as it is. -/
def State.finish (s : State) : Host.Outcome State Fault Refusal :=
  match s.phase with
  | .idle => .next s
  | .run (.hash op) _ => s.finishHash op
  | .run .hdist _ => s.finishDistance

/-- The writes a running command performs; HDIST performs none (43_comparator.md R185). -/
def State.engineWrites (s : State) : List (Word × Byte) :=
  match s.phase with
  | .idle => []
  | .run (.hash op) _ => s.performedWrites op
  | .run .hdist _ => []

/-- A command word takes effect only while the engine is not busy; otherwise it is dropped
(10_state.md R42). -/
def State.ifIdle (s : State) (k : Host.Outcome State Fault Refusal) : Host.Outcome State Fault Refusal :=
  if s.busy then .next s.overrun else k

/-- A command that runs is accepted (44_hash_commands.md R200, 43_comparator.md R180). If no host operation
arrives while it runs, it runs to its end in this step (44_hash_commands.md R206); otherwise the phase
stays RUN(op) and the host moves next. -/
def State.launch (op : RunOp) (s : State) : Host.Outcome State Fault Refusal :=
  s.ifIdle (if s.quiet then (s.accept op).finish else .next (s.accept op))

end Sys2Proof.Machine
end

