-- ==== Sys2Proof/Machine/ControlCommands.lean ====
section
/-! DEFINITION. The meanings of NOP and CLEAR (45_control_commands.md), which take effect at once. -/

namespace Sys2Proof.Machine

/-- NOP: nothing changes (45_control_commands.md R220). -/
def execNop (s : State) : Host.Outcome State Fault Refusal := s.ifIdle (.next s)

/-- CLEAR: clear the status and the error record (45_control_commands.md R221). -/
def execClear (s : State) : Host.Outcome State Fault Refusal := s.ifIdle (.next s.clearRecord)

end Sys2Proof.Machine
end

