-- ==== Sys2Proof/Machine/DistanceCommand.lean ====
section
/-! DEFINITION. The meaning of HDIST (43_comparator.md R180). -/

namespace Sys2Proof.Machine

/-- HDIST: Hamming distance (43_comparator.md R180). -/
def execHdist (s : State) : Host.Outcome State Fault Refusal := s.launch .hdist

end Sys2Proof.Machine
end

