-- ==== Sys2Proof/Machine/HashCommands.lean ====
section
/-! DEFINITION. The meanings of HASH, HASHQ and HASHW (44_hash_commands.md). -/

namespace Sys2Proof.Machine

/-- HASH: fingerprint, automatic path (44_hash_commands.md R202). -/
def execHash (s : State) : Host.Outcome State Fault Refusal := s.launch (.hash .hash)

/-- HASHQ: fingerprint, exact-division path forced (44_hash_commands.md R203). -/
def execHashq (s : State) : Host.Outcome State Fault Refusal := s.launch (.hash .hashq)

/-- HASHW: fingerprint, weighted path forced (44_hash_commands.md R204). -/
def execHashw (s : State) : Host.Outcome State Fault Refusal := s.launch (.hash .hashw)

end Sys2Proof.Machine
end

