-- ==== Sys2Proof/Machine/Dispatch.lean ====
section
/-! DEFINITION. Which meaning each instruction has. -/

namespace Sys2Proof.Machine

def exec (i : Instr) (s : State) : Host.Outcome State Fault Refusal :=
  match i with
  | .nop => Sys2Proof.Machine.execNop s
  | .hash => Sys2Proof.Machine.execHash s
  | .hashq => Sys2Proof.Machine.execHashq s
  | .hashw => Sys2Proof.Machine.execHashw s
  | .hdist => Sys2Proof.Machine.execHdist s
  | .clear => Sys2Proof.Machine.execClear s

end Sys2Proof.Machine
end

