-- ==== Sys2Proof/Machine/Flags.lean ====
section
/-! DEFINITION. The register block's words as the host reads them, the status bits, the interrupt line,
and what a host write to each register does. The engine has no arithmetic flags (10_state.md R32). -/

namespace Sys2Proof.Machine

/-- A flag as a bit. -/
def bit (b : Bool) : BitVec 1 := BitVec.ofBool b

/-- The numbers of the error codes (60_exceptions.md R231). -/
def ErrCode.toByte : ErrCode → BitVec 8
  | .none => 0
  | .invalidArgument => 1
  | .lengthMismatch => 2
  | .nullArgument => 3
  | .illegalCommand => 4
  | .busError => 5
  | .indexRange => 6

/-- STATUS.ERR: 1 exactly when ERR.CODE is not 0 (10_state.md R39). -/
def State.errFlag (s : State) : Bool := s.errCode.toByte != 0

/-- ID (10_state.md R34): MAGIC, VERSION, MAXB. -/
def State.idWord (s : State) : Word := (0xB10C : BitVec 16) ++ (0x01 : BitVec 8) ++ s.cfg.maxBits

/-- CTRL (10_state.md R35). -/
def State.ctrlWord (s : State) : Word := (0 : BitVec 31) ++ bit s.irqEn

/-- STATUS (10_state.md R36): CMD_OVR, ERR, DONE, BUSY in bits 3 to 0. -/
def State.statusWord (s : State) : Word :=
  (0 : BitVec 28) ++ bit s.cmdOvr ++ bit s.errFlag ++ bit s.done ++ bit s.busy

/-- ERR of a record (10_state.md R43): DETAIL above CODE. -/
def CmdError.word (e : CmdError) : Word := (0 : BitVec 16) ++ e.detail ++ e.code.toByte

/-- ERR (10_state.md R43). -/
def State.errWord (s : State) : Word := s.record.word

/-- INFO of its two bits (10_state.md R55): VALID above PATH. -/
def infoWordOf (valid path : Bool) : Word := (0 : BitVec 30) ++ bit valid ++ bit path

/-- INFO (10_state.md R55). -/
def State.infoWord (s : State) : Word := infoWordOf s.infoValid s.infoPath

/-- `irq = CTRL.IRQ_EN AND STATUS.DONE` (60_exceptions.md R241). -/
def State.irq (s : State) : Bool := s.irqEn && s.done

/-- The offsets of the registers (10_state.md R33). -/
def Reg.offset : Reg → BitVec 8
  | .id => 0x00
  | .ctrl => 0x04
  | .status => 0x08
  | .cmd => 0x0C
  | .err => 0x10
  | .errAddr => 0x14
  | .bits => 0x18
  | .width => 0x1C
  | .height => 0x20
  | .srcBase => 0x24
  | .dstBase => 0x28
  | .aBase => 0x2C
  | .aLen => 0x30
  | .bBase => 0x34
  | .bLen => 0x38
  | .dist => 0x3C
  | .info => 0x40

/-- All registers, in the order of their offsets (10_state.md R33). -/
def Reg.all : List Reg :=
  [.id, .ctrl, .status, .cmd, .err, .errAddr, .bits, .width, .height, .srcBase, .dstBase,
   .aBase, .aLen, .bBase, .bLen, .dist, .info]

/-- The register at an offset; none at a reserved offset (10_state.md R33, R56). -/
def regAt (off : BitVec 8) : Option Reg := Reg.all.find? (fun r => r.offset == off)

/-- What a host read of a register returns (10_state.md R34 to R55). -/
def State.readReg (s : State) : Reg → Word
  | .id => s.idWord
  | .ctrl => s.ctrlWord
  | .status => s.statusWord
  | .cmd => 0
  | .err => s.errWord
  | .errAddr => s.errAddr
  | .bits => s.bits.setWidth 32
  | .width => s.width.setWidth 32
  | .height => s.height.setWidth 32
  | .srcBase => s.srcBase
  | .dstBase => s.dstBase
  | .aBase => s.aBase
  | .aLen => s.aLen.setWidth 32
  | .bBase => s.bBase
  | .bLen => s.bLen.setWidth 32
  | .dist => s.dist
  | .info => s.infoWord

/-- The registers a completion step writes, but for STATUS, whose reading is the observation (10_state.md R58,
70_reset_and_hazards.md R267). -/
def Reg.isResult : Reg → Bool
  | .dist => true
  | .info => true
  | .err => true
  | .errAddr => true
  | .id | .ctrl | .status | .cmd | .bits | .width | .height | .srcBase | .dstBase => false
  | .aBase | .aLen | .bBase | .bLen => false

/-- The words a result register may still read as in place of its present one (93_implementation_defined.md
row 16). -/
def Unseen.words (u : Unseen) : Reg → List Word
  | .dist => u.dist
  | .info => u.info.map fun i => infoWordOf i.1 i.2
  | .err => u.records.map CmdError.word
  | .errAddr => u.records.map CmdError.addr
  | .id | .ctrl | .status | .cmd | .bits | .width | .height | .srcBase | .dstBase => []
  | .aBase | .aLen | .bBase | .bLen => []

/-- A STATUS read with BUSY = 0 or DONE = 1 observes completion (20_memory.md R85). -/
def State.statusObserves (s : State) : Bool := !s.busy || s.done

/-- A write to a configuration register keeps the field's bits; while BUSY it is ignored
(10_state.md R45 to R53, R57). The other registers are no configuration registers. -/
def State.writeConfig (s : State) (r : Reg) (v : Word) : State :=
  if s.busy then s
  else match r with
    | .bits => { s with bits := v.setWidth 8 }
    | .width => { s with width := v.setWidth 16 }
    | .height => { s with height := v.setWidth 16 }
    | .srcBase => { s with srcBase := v }
    | .dstBase => { s with dstBase := v }
    | .aBase => { s with aBase := v }
    | .aLen => { s with aLen := v.setWidth 28 }
    | .bBase => { s with bBase := v }
    | .bLen => { s with bLen := v.setWidth 28 }
    | .id | .ctrl | .status | .cmd | .err | .errAddr | .dist | .info => s

/-- What a host write to a register other than CMD does: read-only registers ignore it, CTRL keeps bit 0,
STATUS is write-1-to-clear (10_state.md R33, R35, R41). -/
def State.writeReg (s : State) (r : Reg) (v : Word) : State :=
  match r with
  | .id | .cmd | .err | .errAddr | .dist | .info => s
  | .ctrl => { s with irqEn := v.getLsbD 0 }
  | .status => s.writeStatus v
  | .bits | .width | .height | .srcBase | .dstBase | .aBase | .aLen | .bBase | .bLen => s.writeConfig r v

end Sys2Proof.Machine
end

