-- ==== Sys2Proof/WellFormed.lean ====
section
/-! DEFINITION. Well-formed terms: what the spec lets a configuration, a host operation and an instruction
be. -/

namespace Sys2Proof

open Machine

/-- Every command is well-formed: a command word has no register-number, immediate or mode field
(30_encoding.md R102). -/
def Instr.WellFormed : Instr → Bool
  | .nop => true
  | .hash => true
  | .hashq => true
  | .hashw => true
  | .hdist => true
  | .clear => true

/-- A host operation the model gives a meaning (30_encoding.md R101). -/
def Machine.HostOp.WellFormed : HostOp → Bool
  | .regWrite off size _ => alignedAccess off size
  | .regRead off size => alignedAccess off size
  | .memStore _ _ => true
  | .memLoad _ => true
  | .seeIrq => true
  | .reset => true

end Sys2Proof
end

