-- ==== Sys2Proof/Machine/HostPort.lean ====
section
/-! DEFINITION. What the host's operations do (30_encoding.md R101, 10_state.md section 2, 70_reset_and_hazards.md
section 1), the turn order of host and engine, and the host-script notation. -/

namespace Sys2Proof.Machine

/-- A host write of `w` to CMD (10_state.md R42): dropped while BUSY; otherwise decoded (30_encoding.md
R104) and executed, or rejected (45_control_commands.md R222). -/
def submitWord (w : Word) (s : State) : Host.Outcome State Fault Refusal :=
  if s.busy then .next s.overrun
  else match decode w with
    | .ok i => exec i s
    | .error r => .next (s.rejectWord r)

/-- A host write to the register block at an offset; a reserved offset ignores it (10_state.md R56). -/
def hostWrite (off : BitVec 8) (v : Word) (s : State) : Host.Outcome State Fault Refusal :=
  match regAt off with
  | some .cmd => submitWord v s
  | some r => .next (s.writeReg r v)
  | none => .next s

/-- The word the running command's completion step would leave in a register, were it to happen now (DESIGN CHOICE,
log 22). -/
def comingWords (r : Reg) (s : State) : List Word :=
  if s.busy && r.isResult then
    match s.finish with
    | .next t => [t.readReg r]
    | .fault _ => []
    | .refused _ => []
  else []

/-- What a host read of a register returns. Until the host has observed completion, a result register reads as its
present word, as one it had before, or as one the running command leaves there (93_implementation_defined.md row 16,
70_reset_and_hazards.md R267). Each read is one draw of the whole register (DESIGN CHOICE, log 22). -/
def hostReadReg (r : Reg) (s : State) : Word :=
  pickHeld (s.readReg r) (s.unseen.words r ++ comingWords r s) (Config.resultChoice s.freeCtr)

/-- The word a host read of the register block is answered; a reserved offset reads 0 (10_state.md R56). -/
def hostReadWord (off : BitVec 8) (s : State) : Word :=
  match regAt off with
  | some r => hostReadReg r s
  | none => 0

/-- A host read of the register block: the answer on the host's bus. A STATUS read that observes completion settles
all results (20_memory.md R85); a read of a result that is not settled uses up a free choice. -/
def hostRead (off : BitVec 8) (s : State) : State :=
  { s with
    busData := hostReadWord off s
    unseen := if regAt off == some .status && s.statusObserves then .empty else s.unseen
    freeCtr := if (regAt off).any Reg.isResult && s.unsettled then s.freeCtr + 1 else s.freeCtr }

/-- The host looks at the interrupt line; the answer is its level, and a high level observes completion
(20_memory.md R85, 60_exceptions.md R241). -/
def seeIrq (s : State) : State :=
  { s with
    busData := (bit s.irq).setWidth 32
    unseen := if s.irq then .empty else s.unseen }

/-- A host store of a byte. While a command runs, the byte it replaces stays among the values the byte held
during the command (20_memory.md R86). -/
def hostStore (a : Word) (v : Byte) (s : State) : State :=
  { s with
    mem := s.mem.write a.toNat v
    phase := s.phase.noteStore a.toNat (s.mem.read a.toNat)
    unseen := s.unseen.settleByte a.toNat
    freeCtr := if s.busy then s.freeCtr + 1 else s.freeCtr }

/-- What a host load of a byte may return in place of the byte in memory: what the running command writes there
(20_memory.md R86; DESIGN CHOICE log 9), or what a completion step replaced that the host has not observed
(93_implementation_defined.md row 16; log 22). -/
def otherBytes (a : Word) (s : State) : List Byte :=
  (s.engineWrites.filter (fun p => p.1 == a)).map Prod.snd ++
  (s.unseen.bytes.filter (fun c => c.1 == a.toNat)).map Prod.snd

/-- What a host load of a byte returns. -/
def hostLoadByte (a : Word) (s : State) : Byte :=
  pickHeld (s.mem.read a.toNat) (otherBytes a s) (Config.loadChoice s.freeCtr)

/-- A host load: the answer on the host's bus. -/
def hostLoad (a : Word) (s : State) : State :=
  { s with
    busData := (hostLoadByte a s).setWidth 32
    freeCtr := if s.unsettled then s.freeCtr + 1 else s.freeCtr }

/-- Reset (70_reset_and_hazards.md R260 to R262): every register at its reset value, the phase idle. System
memory is not touched, but each byte a running hash command writes may have been written already or not
(R261). The parameters, the host's pending operations and its last read data are not the engine's. -/
def resetEngine (s : State) : State :=
  { State.reset with
    cfg := s.cfg
    mem := storeAll (fun j _ => !Config.resetChoice s.freeCtr j) 0 s.engineWrites s.mem
    inputs := s.inputs
    busData := s.busData
    freeCtr := if s.busy then s.freeCtr + 1 else s.freeCtr }

/-- One host operation. A register access that is not an aligned 32-bit one is refused
(30_encoding.md R101). -/
def hostTurn (op : HostOp) (s : State) : Host.Outcome State Fault Refusal :=
  match op with
  | .regWrite off size v =>
    if alignedAccess off size then hostWrite off v s else .refused (.registerAccess off size)
  | .regRead off size =>
    if alignedAccess off size then .next (hostRead off s)
    else .refused (.registerAccess off size)
  | .memStore a v => .next (hostStore a v s)
  | .memLoad a => .next (hostLoad a s)
  | .seeIrq => .next (seeIrq s)
  | .reset => .next (resetEngine s)

/-- One turn. With the engine busy and no early host operation at the head, the engine moves
(70_reset_and_hazards.md R271); otherwise the host does. An idle engine with no host operation pending
waits (70_reset_and_hazards.md R262). -/
def turn (s : State) : Host.Outcome State Fault Refusal :=
  if s.busy && s.quiet then s.finish
  else match s.inputs with
    | [] => .next s
    | p :: rest => hostTurn p.op (s.withInputs rest)

/-- The machine with a write of `w` to CMD as its next host operation. -/
def State.withCommand (s : State) (w : Word) : State :=
  s.withInputs (⟨true, .regWrite Reg.cmd.offset 4 w⟩ :: s.inputs)

/-! ## Host-script notation (30_encoding.md R108, R109) -/

/-- `wr NAME, v`, after the running command's completion. -/
def wr (r : Reg) (v : Word) : Pending := ⟨false, .regWrite r.offset 4 v⟩

/-- `rd NAME`, after the running command's completion. -/
def rd (r : Reg) : Pending := ⟨false, .regRead r.offset 4⟩

/-- `cmd MNEMONIC` (30_encoding.md R109). -/
def cmd (i : Instr) : Pending := wr .cmd (encode i)

/-- `wait` (30_encoding.md R109): its last STATUS read, the one that finds BUSY = 0. -/
def waitDone : Pending := rd .status

/-- The host waits for `irq` = 1: its last look at the line (60_exceptions.md R241). -/
def waitIrq : Pending := ⟨false, .seeIrq⟩

/-- `ack` (30_encoding.md R109). -/
def ack : Pending := wr .status 0x0000000A

/-- `mem ADDR: b0 b1 …` (30_encoding.md R108): start state, not a step. -/
def State.withBytes (s : State) (a : Nat) : List Byte → State
  | [] => s
  | v :: rest => State.withBytes { s with mem := s.mem.write (a % 2 ^ 32) v } (a + 1) rest

end Sys2Proof.Machine
end

