-- ==== Sys2Proof/Machine/Step.lean ====
section
/-! DEFINITION. One step of the machine, and where a command word waits to be taken. -/

namespace Sys2Proof.Machine

/-- One turn of the host or of the engine. -/
def step : State → Host.Outcome State Fault Refusal := turn

/-- `s` with the command word `w` of a table row of `nbits` bits as the next thing the host writes to CMD:
the engine fetches no instruction from memory (10_state.md R31, log 8). -/
def State.withFetchWord (s : State) (nbits w : Nat) : State := s.withCommand (tableWord nbits w)

end Sys2Proof.Machine
end

