-- ==== Sys2Proof/Machine/HostOrder.lean ====
section
/-! DEFINITION. In which orders the accesses a host program issues can take effect at the engine's port: the
parameter PORT_COHERENT (20_memory.md R90, 70_reset_and_hazards.md R270; log 14). -/

namespace Sys2Proof.Machine

/-- What a host program does: it issues an operation, or it synchronises with the host's own fence, cache
clean or cache invalidate (70_reset_and_hazards.md R270; the engine has no command for it, 20_memory.md R87,
R90). -/
inductive HostAct where
  | issue (p : Pending)
  | sync
deriving DecidableEq, Repr

/-- The byte of system memory an operation accesses; none for a register access, a look at irq and reset. -/
def HostOp.target : HostOp → Option Word
  | .memStore a _ => some a
  | .memLoad a => some a
  | .regWrite _ _ _ => none
  | .regRead _ _ => none
  | .seeIrq => none
  | .reset => none

/-- The operations of a program in the order of issue. -/
def issued (acts : List HostAct) : List Pending :=
  acts.filterMap fun a =>
    match a with
    | .issue p => some p
    | .sync => none

/-- `ops` is a schedule in which the operations of a host program can take effect at the engine's port. With
PORT_COHERENT it is the program as issued. Without it a memory access may take effect later than operations issued
after it (a store that waits in a host cache), and a load earlier than operations issued before it (a load that a
host cache answers), up to the next synchronisation (70_reset_and_hazards.md R270); the accesses to one byte keep
their order, and so do the register accesses (R272).

When a store that is not complete before CMD becomes visible the spec leaves open. DESIGN CHOICE (log 14): it is
fixed nowhere, and every moment is admitted: before the command, during it (`early`, a race of 20_memory.md R86),
or after its completion. So an access that moves gets either mark `early`, while the operations it moves past keep
theirs, and one that moves ahead of an access the host issued only after completion was issued after it too. -/
inductive TakesEffect (c : Config) : List HostAct → List Pending → Prop where
  | inOrder (acts : List HostAct) : TakesEffect c acts (issued acts)
  /-- A memory access takes effect after the next operation, during a command or not. -/
  | delay {pre post : List HostAct} {p q : Pending} {e : Bool} {ops : List Pending} :
      c.portCoherent = false → p.op.target ≠ none → p.op.target ≠ q.op.target →
      TakesEffect c (pre ++ .issue ⟨q.early && p.early, q.op⟩ :: .issue ⟨e, p.op⟩ :: post) ops →
      TakesEffect c (pre ++ .issue p :: .issue q :: post) ops
  /-- A load takes effect before the operation ahead of it, during a command or not. -/
  | advance {pre post : List HostAct} {p : Pending} {a : Word} {e e' : Bool} {ops : List Pending} :
      c.portCoherent = false → p.op.target ≠ some a →
      TakesEffect c (pre ++ .issue ⟨e', .memLoad a⟩ :: .issue p :: post) ops →
      TakesEffect c (pre ++ .issue p :: .issue ⟨e, .memLoad a⟩ :: post) ops
  /-- A memory access issued during a command takes effect only after the command has completed. -/
  | linger {pre post : List HostAct} {op : HostOp} {ops : List Pending} :
      c.portCoherent = false → op.target ≠ none →
      TakesEffect c (pre ++ .issue ⟨false, op⟩ :: post) ops →
      TakesEffect c (pre ++ .issue ⟨true, op⟩ :: post) ops

end Sys2Proof.Machine
end

