-- ==== Sys2Proof/Safety.lean ====
section
/-! DEFINITION. What counts as a safe outcome, and the invariant every step keeps. -/

namespace Sys2Proof.Machine

/-- The step answers a next state. -/
def goesOn (o : Host.Outcome State Fault Refusal) : Bool :=
  match o with
  | .next _ => true
  | .fault _ => false
  | .refused _ => false

/-- A run of `k` steps in which nothing stops. -/
def safeRun (k : Nat) (s : State) : Bool := goesOn (Sys2Proof.core.run k s)

/-- `k` steps of a host program can end so: its operations take effect in some order the platform allows
(20_memory.md R90). A claim about host code states the value of `s.cfg.portCoherent` it assumes
(92_eei_decisions.md D27), or holds for both. -/
def programEnds (acts : List HostAct) (k : Nat) (s : State) (o : Host.Outcome State Fault Refusal) : Prop :=
  ∃ ops, TakesEffect s.cfg acts ops ∧ Sys2Proof.core.run k (s.withInputs ops) = o

/-- The details an error code can carry (60_exceptions.md R232 to R237). -/
def detailLegal (code : ErrCode) (detail : BitVec 8) : Bool :=
  match code with
  | .none => detail == 0
  | .invalidArgument => decide (1 ≤ detail.toNat) && decide (detail.toNat ≤ 8)
  | .lengthMismatch => detail == 0
  | .nullArgument => decide (1 ≤ detail.toNat) && decide (detail.toNat ≤ 3)
  | .illegalCommand => decide (1 ≤ detail.toNat) && decide (detail.toNat ≤ 2)
  | .busError => decide (1 ≤ detail.toNat) && decide (detail.toNat ≤ 2)
  | .indexRange => detail == 0

/-- The error record is one the spec can write: a legal detail, and an address only with BUS_ERROR
(60_exceptions.md R231 to R238). -/
def State.recordLegal (s : State) : Bool :=
  detailLegal s.errCode s.errDetail && (s.errCode == .busError || s.errAddr == 0)

/-- While a command runs, DONE is 0 and the record is clear: acceptance cleared them, and only completion
sets them (10_state.md R38, R43, R44). -/
def State.busyClean (s : State) : Bool :=
  !s.busy || (!s.done && s.errCode == .none && s.errAddr == 0)

/-- DIST is a distance: at most 4 · (2^28 − 1) (43_comparator.md R187). -/
def State.distBounded (s : State) : Bool := decide (s.dist.toNat ≤ 4 * (2 ^ 28 - 1))

/-- INFO is 0 or has VALID set (10_state.md R55). -/
def State.infoLegal (s : State) : Bool := s.infoValid || !s.infoPath

/-- What every reachable state satisfies. -/
abbrev State.Inv (s : State) : Prop :=
  s.mem.wf = true ∧ s.recordLegal = true ∧ s.busyClean = true ∧ s.distBounded = true ∧ s.infoLegal = true

end Sys2Proof.Machine
end

