-- ==== Sys2Proof/Certificates/Slice0/Obligations.lean ====
section
/-! DEFINITION. The statements for the provers, each with the rules of spec/ it formalises, and the words
they are written in (namespace Claims). -/

namespace Sys2Proof.Claims

open Sys2Proof.Machine

/-! ## Words the statements use -/

/-- One step in which the host performs `op` now. -/
def hostStep (op : HostOp) (s : State) : Host.Outcome State Fault Refusal :=
  step (s.withInputs (⟨true, op⟩ :: s.inputs))

/-- The host reads the register at `off` now and is answered `v`. -/
def hostReads (off : BitVec 8) (s : State) (v : Word) : Prop :=
  ∃ t, hostStep (.regRead off 4) s = .next t ∧ t.busData = v

/-- The operation at the head of the host's pending list. -/
def headOp (s : State) : Option HostOp := s.inputs.head?.map Pending.op

/-- The host operation the next step performs; none when the engine moves or the machine waits. -/
def hostMove (s : State) : Option HostOp := if s.busy && s.quiet then none else headOp s

/-- The host's next operation submits the command `i`. -/
def submits (s : State) (i : Instr) : Prop := ∃ w, headOp s = some (.regWrite 0x0C 4 w) ∧ decode w = .ok i

/-- The command of each hash operation. -/
def hashInstr : HashOp → Instr
  | .hash => .hash
  | .hashq => .hashq
  | .hashw => .hashw

/-- A hash command is running, or is the command the host's next operation submits. -/
def hashAtWork (s : State) : Prop := s.runsHash = true ∨ ∃ op, submits s (hashInstr op)

/-- HDIST is running, or is the command the host's next operation submits. -/
def hdistAtWork (s : State) : Prop := (s.busy = true ∧ s.runsHash = false) ∨ submits s .hdist

/-- The nine configuration registers (10_state.md R45 to R53). -/
def configRegs : List Reg :=
  [.bits, .width, .height, .srcBase, .dstBase, .aBase, .aLen, .bBase, .bLen]

/-- The bits a configuration register holds (10_state.md R45 to R53). -/
def fieldMask : Reg → Word
  | .bits => 0x000000FF
  | .width => 0x0000FFFF
  | .height => 0x0000FFFF
  | .srcBase => 0xFFFFFFFF
  | .dstBase => 0xFFFFFFFF
  | .aBase => 0xFFFFFFFF
  | .aLen => 0x0FFFFFFF
  | .bBase => 0xFFFFFFFF
  | .bLen => 0x0FFFFFFF
  | .id => 0
  | .ctrl => 0
  | .status => 0
  | .cmd => 0
  | .err => 0
  | .errAddr => 0
  | .dist => 0
  | .info => 0

/-- The values after reset (70_reset_and_hazards.md R260). -/
def resetValue (c : Config) : Reg → Word
  | .id => 0xB10C0100 ||| c.maxBits.setWidth 32
  | .bits => 0x10
  | .ctrl => 0
  | .status => 0
  | .cmd => 0
  | .err => 0
  | .errAddr => 0
  | .width => 0
  | .height => 0
  | .srcBase => 0
  | .dstBase => 0
  | .aBase => 0
  | .aLen => 0
  | .bBase => 0
  | .bLen => 0
  | .dist => 0
  | .info => 0

/-- The byte of system memory at an address. -/
def byteAt (s : State) (a : Word) : Byte := s.mem.read a.toNat

/-- The intensity of pixel (x, y) in memory (40_block_aggregator.md R120). -/
def memPixel (s : State) (x y : Nat) : Nat :=
  intensity (byteAt s (pixAddr s.hashArgs x y 0)) (byteAt s (pixAddr s.hashArgs x y 1))
    (byteAt s (pixAddr s.hashArgs x y 2)) (byteAt s (pixAddr s.hashArgs x y 3))

/-- The fingerprint of the image in memory, through the datapath (44_hash_commands.md R200). -/
def memFingerprint (op : HashOp) (s : State) : List Byte :=
  fingerprintOf s.cfg.halfScale.toNat (s.hashPath op) s.width.toNat s.height.toNat s.bits.toNat (memPixel s)

/-- The number of fingerprint bytes (42_bitpacker.md R171). -/
def fpLength (s : State) : Nat := s.bits.toNat * s.bits.toNat / 4

/-- Where byte `j` of the fingerprint goes, as a key of memory (20_memory.md R75). -/
def fpKey (s : State) (j : Nat) : Nat := (fingerprintAddr s.hashArgs j).toNat

/-- Pixel (x, y) is one the chosen path uses (20_memory.md R80). -/
def covered (op : HashOp) (s : State) (x y : Nat) : Prop :=
  match s.hashPath op with
  | .exact => x < s.bits.toNat * (s.width.toNat / s.bits.toNat) ∧ y < s.bits.toNat * (s.height.toNat / s.bits.toNat)
  | .weighted => x < s.width.toNat ∧ y < s.height.toNat

/-- The detail of the first failing operand check (44_hash_commands.md R201). Check 8 can fail only under
HASHQ with W < bits or H < bits (40_block_aggregator.md R122). -/
def failingDetail (op : HashOp) (s : State) : Option (BitVec 8) :=
  if s.srcBase = 0 then some 1
  else if s.width = 0 then some 2
  else if s.height = 0 then some 3
  else if s.bits = 0 then some 4
  else if s.bits.toNat % 2 = 1 then some 5
  else if s.cfg.maxBits.toNat < s.bits.toNat then some 6
  else if s.dstBase = 0 then some 7
  else if op = .hashq ∧ (s.width.toNat < s.bits.toNat ∨ s.height.toNat < s.bits.toNat) then some 8
  else none

/-- The platform performs every pixel read of the command. -/
def readsAnswered (op : HashOp) (s : State) : Prop :=
  ∀ x y ch, covered op s x y → ch < 4 → busAnswer s.cfg .read (pixAddr s.hashArgs x y ch) = .ok

/-- The platform performs every fingerprint write of the command. -/
def writesAnswered (s : State) : Prop :=
  ∀ j, j < fpLength s → busAnswer s.cfg .write (fingerprintAddr s.hashArgs j) = .ok

/-- No region of the platform leaves an access unanswered. -/
def neverSilent (s : State) : Prop := ∀ r ∈ s.cfg.bus, r.answer ≠ .silent

/-- The low-nibble bits in which two bytes differ (43_comparator.md R183). -/
def nibbleDiff (a b : Byte) : Nat := (List.range 4).countP fun k => a.getLsbD k != b.getLsbD k

/-- The sum of the contributions of all byte positions (43_comparator.md R184). -/
def memDistance (s : State) : Nat :=
  ((List.range s.aLen.toNat).map fun i =>
    nibbleDiff (byteAt s (leftAddr s.distArgs i)) (byteAt s (rightAddr s.distArgs i))).sum

/-- What the weighted path adds, in order: the pixels row by row, four additions each; with each value the index
of the cell it goes to (40_block_aggregator.md R131, R132). -/
def contributions (w h bits : Nat) (pix : Nat → Nat → Nat) : List (Nat × F64) :=
  (List.range h).flatMap fun y => (List.range w).flatMap fun x =>
    [((axisMap y h bits).lo * bits + (axisMap x w bits).lo,
        F64.mul (F64.mul (F64.ofNat (pix x y)) (axisMap y h bits).wLo) (axisMap x w bits).wLo),
      ((axisMap y h bits).lo * bits + (axisMap x w bits).hi,
        F64.mul (F64.mul (F64.ofNat (pix x y)) (axisMap y h bits).wLo) (axisMap x w bits).wHi),
      ((axisMap y h bits).hi * bits + (axisMap x w bits).lo,
        F64.mul (F64.mul (F64.ofNat (pix x y)) (axisMap y h bits).wHi) (axisMap x w bits).wLo),
      ((axisMap y h bits).hi * bits + (axisMap x w bits).hi,
        F64.mul (F64.mul (F64.ofNat (pix x y)) (axisMap y h bits).wHi) (axisMap x w bits).wHi)]

/-- The units of a block size of the weighted path: `fl_div(f64(N), f64(bits))` (40_block_aggregator.md R126). -/
def blockUnits (n bits : Nat) : Nat := F64.roundUnits (n * F64.scale) bits

/-- The units of the far edge's position in its block: `fl_fmod(f64(i + 1), bs)` (40_block_aggregator.md R128). -/
def edgeUnits (i n bits : Nat) : Nat := (i + 1) * F64.scale % blockUnits n bits

/-- The units of the quotient whose floor and ceiling are the block indices: `fl_div(f64(i), bs)`
(40_block_aggregator.md R129). -/
def quotientUnits (i n bits : Nat) : Nat := F64.roundUnits (i * F64.scale * F64.scale) (blockUnits n bits)

/-- What the host may read, until it observes completion, instead of the results of a command that was accepted in
`s` and made `n` fingerprint writes: the results and bytes of before, the record as acceptance cleared it, and what it
could read already (93_implementation_defined.md row 16, log 22). -/
def unseenAfter (s : State) (n : Nat) : Unseen where
  dist := s.dist :: s.unseen.dist
  info := (s.infoValid, s.infoPath) :: s.unseen.info
  records := [⟨.none, 0, 0⟩]
  bytes := (List.range n).map (fun j => (fpKey s j, s.mem.read (fpKey s j))) ++ s.unseen.bytes

/-- The words a result register may read as, besides its own, because of completions the host has not observed. -/
def unseenWords (s : State) : Reg → List Word
  | .dist => s.unseen.dist
  | .info => s.unseen.info.map fun i => ((if i.1 then 2 else 0) ||| (if i.2 then 1 else 0) : Word)
  | .err => s.unseen.records.map fun e => ((e.detail.setWidth 32 : Word) <<< 8) ||| (e.code.toByte.setWidth 32 : Word)
  | .errAddr => s.unseen.records.map fun e => e.addr
  | .id | .ctrl | .status | .cmd | .bits | .width | .height | .srcBase | .dstBase => []
  | .aBase | .aLen | .bBase | .bLen => []

/-- The registers that hold a command's results (70_reset_and_hazards.md R267). -/
def resultRegs : List Reg := [.dist, .info, .err, .errAddr]

/-- The sum of the contributions of all byte positions as the running HDIST reads them: read `i` of the left
fingerprint is access 2·i, of the right one access 2·i + 1 (43_comparator.md R184, 20_memory.md R81). -/
def readDistance (s : State) : Nat :=
  ((List.range s.aLen.toNat).map fun i =>
    nibbleDiff (s.engineRead (2 * i) (leftAddr s.distArgs i))
      (s.engineRead (2 * i + 1) (rightAddr s.distArgs i))).sum

/-- STATUS.CMD_OVR after the next step (10_state.md R40): set by a CMD write while BUSY, cleared by a STATUS
write of 1 to bit 3, by CLEAR and by reset, otherwise unchanged. -/
def cmdOvrAfter (s : State) : Bool :=
  match hostMove s with
  | some (.regWrite off _ v) =>
    if off = 0x0C then (if s.busy then true else if v = 0x00000005 then false else s.cmdOvr)
    else if off = 0x08 then s.cmdOvr && !v.getLsbD 3
    else s.cmdOvr
  | some (.regRead _ _) => s.cmdOvr
  | some (.memStore _ _) => s.cmdOvr
  | some (.memLoad _) => s.cmdOvr
  | some .seeIrq => s.cmdOvr
  | some .reset => false
  | none => s.cmdOvr

end Sys2Proof.Claims

open Sys2Proof Sys2Proof.Machine Sys2Proof.Claims

/-! ## Decoding and stepping -/

/-- 30_encoding.md R104: every word is exactly one of the six commands or rejected with its detail, RSVD first. -/
def Obligations.DecodeFollowsTheOpcodeMap : Prop :=
  ∀ w : Word,
    (w >>> 4 ≠ 0 → ∃ r, decode w = .error r ∧ r.detail = 2) ∧
    (w >>> 4 = 0 → 6 ≤ (w &&& 0xF).toNat → ∃ r, decode w = .error r ∧ r.detail = 1) ∧
    (w >>> 4 = 0 → (w &&& 0xF).toNat < 6 →
      ∃ i, [Instr.nop, .hash, .hashq, .hashw, .hdist, .clear][(w &&& 0xF).toNat]? = some i ∧ decode w = .ok i)

/-- 30_encoding.md R102 to R104: a word decodes to a command exactly when it is that command's encoding. -/
def Obligations.DecodeAndEncodeAgree : Prop :=
  ∀ (w : Word) (i : Instr), decode w = .ok i ↔ w = encode i

/-- 30_encoding.md R109: the words `cmd` expands to, and the neighbours of 45_control_commands.md R222. -/
def Obligations.CommandWordsDecode : Prop :=
  decode 0x00000000 = .ok .nop ∧ decode 0x00000001 = .ok .hash ∧ decode 0x00000002 = .ok .hashq ∧
  decode 0x00000003 = .ok .hashw ∧ decode 0x00000004 = .ok .hdist ∧ decode 0x00000005 = .ok .clear ∧
  decode 0x0000000F = .error .reservedOpcode ∧ decode 0x00000010 = .error .reservedField

/-- 10_state.md R42: a word written to CMD while not BUSY is decoded and executed by the rule its opcode
names; the step takes the pending write off the list and does nothing else around it. -/
def Obligations.StepRunsTheDecodedCommand : Prop :=
  ∀ (s : State) (e : Bool) (w : Word) (rest : List Pending) (i : Instr),
    s.inputs = ⟨e, .regWrite 0x0C 4 w⟩ :: rest → s.busy = false → decode w = .ok i →
      step s = exec i (s.withInputs rest)

/-- The word withFetchWord places is the next one the machine runs (log 8). -/
def Obligations.StepRunsThePlacedWord : Prop :=
  ∀ (s : State) (w : Word) (i : Instr), decode w = .ok i → step (s.withFetchWord 32 w.toNat) = exec i s

/-! ## Control commands -/

/-- 45_control_commands.md R220 and R221: NOP changes nothing; CLEAR clears DONE, CMD_OVR, ERR and ERR_ADDR, the host
then reads the cleared record, the interrupt line falls, and nothing else changes (which earlier records stay readable
is the model's own field, log 22); written while BUSY, either is dropped and sets CMD_OVR. -/
def Obligations.ControlCommandsTakeEffectAtOnce : Prop :=
  encode .nop = 0x00000000 ∧ encode .clear = 0x00000005 ∧
  ∀ s : State,
    (s.busy = false →
      exec .nop s = .next s ∧
      ∃ t, t = { s with
          done := false, cmdOvr := false, errCode := .none, errDetail := 0, errAddr := 0
          unseen := { s.unseen with records := t.unseen.records } } ∧
        exec .clear s = .next t ∧ t.readReg .status = 0 ∧ t.irq = false ∧ hostReads 0x10 t 0 ∧ hostReads 0x14 t 0) ∧
    (s.busy = true →
      exec .nop s = .next { s with cmdOvr := true } ∧ exec .clear s = .next { s with cmdOvr := true })

/-- 45_control_commands.md R222: a rejected word records ILLEGAL_COMMAND at once, the host then reads that record, and
nothing else changes (which earlier records stay readable is the model's own field, log 22). -/
def Obligations.RejectedWordsRecordIllegalCommand : Prop :=
  ∀ (s : State) (w : Word), s.busy = false → (w >>> 4 ≠ 0 ∨ 6 ≤ (w &&& 0xF).toNat) →
    ∃ t, hostStep (.regWrite 0x0C 4 w) s = .next t ∧
      t = { s with
        errCode := .illegalCommand
        errDetail := if w >>> 4 ≠ 0 then 2 else 1
        errAddr := 0
        done := true
        unseen := { s.unseen with records := t.unseen.records } } ∧
      hostReads 0x10 t (if w >>> 4 ≠ 0 then 0x0204 else 0x0104) ∧ hostReads 0x14 t 0

/-- 10_state.md R42: while BUSY every command word, legal or not, is dropped and sets CMD_OVR; otherwise a word is
decoded and executed by the rule of its command, or rejected; CMD reads 0. -/
def Obligations.CommandWordsAreSubmittedOrDropped : Prop :=
  ∀ s : State,
    (s.busy = true → (∀ w, hostStep (.regWrite 0x0C 4 w) s = .next { s with cmdOvr := true }) ∧
      ∀ i, exec i s = .next { s with cmdOvr := true }) ∧
    (s.busy = false → ∀ w,
      (∀ i, decode w = .ok i → hostStep (.regWrite 0x0C 4 w) s = exec i s) ∧
      (∀ r, decode w = .error r → ∃ t, hostStep (.regWrite 0x0C 4 w) s = .next t ∧ t.errCode = .illegalCommand)) ∧
    hostStep (.regRead 0x0C 4) s = .next { s with busData := 0 }

/-! ## The register block -/

/-- 10_state.md R45 to R53: an idle engine's configuration register keeps the bits of its field, and no other
register changes; memory and phase stay. -/
def Obligations.ConfigurationWritesKeepTheField : Prop :=
  ∀ (s : State) (r : Reg) (v : Word), s.busy = false → r ∈ configRegs →
    ∃ t, hostStep (.regWrite r.offset 4 v) s = .next t ∧ t.readReg r = v &&& fieldMask r ∧
      (∀ r', r' ≠ r → t.readReg r' = s.readReg r') ∧
      t.mem = s.mem ∧ t.phase = s.phase ∧ t.cfg = s.cfg ∧ t.inputs = s.inputs

/-- 10_state.md R57: while BUSY the configuration registers ignore writes, CTRL, STATUS and CMD behave as
always, and a step that stays busy keeps every operand. -/
def Obligations.OperandsAreFrozenWhileBusy : Prop :=
  (∀ (s : State) (r : Reg) (v : Word), s.busy = true → r ∈ configRegs →
    hostStep (.regWrite r.offset 4 v) s = .next s) ∧
  (∀ (s : State) (v : Word), s.busy = true →
    hostStep (.regWrite 0x04 4 v) s = .next { s with irqEn := v.getLsbD 0 } ∧
    hostStep (.regWrite 0x08 4 v) s =
      .next { s with done := s.done && !v.getLsbD 1, cmdOvr := s.cmdOvr && !v.getLsbD 3 } ∧
    hostStep (.regWrite 0x0C 4 v) s = .next { s with cmdOvr := true }) ∧
  (∀ s t : State, s.busy = true → t.busy = true → step s = .next t →
    t.hashArgs = s.hashArgs ∧ t.distArgs = s.distArgs ∧ t.cfg = s.cfg)

/-- 10_state.md R41: what a write to STATUS does, at any time. -/
def Obligations.StatusWriteClearsByOnes : Prop :=
  ∀ (s : State) (v : Word),
    hostStep (.regWrite 0x08 4 v) s =
      .next { s with
        done := if v.getLsbD 1 then false else s.done
        cmdOvr := if v.getLsbD 3 then false else s.cmdOvr }

/-- 10_state.md R56: reserved offsets read 0 and ignore writes. -/
def Obligations.ReservedOffsetsReadZeroAndIgnoreWrites : Prop :=
  ∀ (s : State) (off : BitVec 8) (v : Word), 0x44 ≤ off.toNat → off.toNat % 4 = 0 →
    hostStep (.regWrite off 4 v) s = .next s ∧
    hostStep (.regRead off 4) s = .next { s with busData := 0 }

/-- 10_state.md R33: the read-only registers ignore writes. -/
def Obligations.ReadOnlyRegistersIgnoreWrites : Prop :=
  ∀ (s : State) (r : Reg) (v : Word), r ∈ [Reg.id, .err, .errAddr, .dist, .info] →
    hostStep (.regWrite r.offset 4 v) s = .next s

/-- 10_state.md R33 to R58: the registers' offsets, their words, and what a host read answers and changes. A register
that holds no result of a command answers its word. A STATUS read does too, and with BUSY 0 or DONE 1 it settles the
results; so does a look at the interrupt line, whose answer is its level, if it is high (20_memory.md R85). A settled
result answers its word; before that a result answers its word, one that it had before a completion the host has not
observed, or one that the running command would leave were it to complete now (70_reset_and_hazards.md R267,
93_implementation_defined.md row 16; the values that are open are the model's form of that row, log 22, and the
answer's field is the model's own, log 7). -/
def Obligations.ReadsAnswerTheRegister : Prop :=
  [Reg.id, .ctrl, .status, .cmd, .err, .errAddr, .bits, .width, .height, .srcBase, .dstBase, .aBase, .aLen, .bBase,
      .bLen, .dist, .info].map Reg.offset =
    [0x00, 0x04, 0x08, 0x0C, 0x10, 0x14, 0x18, 0x1C, 0x20, 0x24, 0x28, 0x2C, 0x30, 0x34, 0x38, 0x3C, 0x40] ∧
  ∀ (s : State) (r : Reg),
    (r ≠ .status → (r ∈ resultRegs → s.busy = false ∧ s.unseen = .empty) →
      hostStep (.regRead r.offset 4) s = .next { s with busData := s.readReg r }) ∧
    hostStep (.regRead 0x08 4) s =
      .next { s with
        busData := s.readReg .status
        unseen := if s.busy = false ∨ s.done = true then .empty else s.unseen } ∧
    hostStep .seeIrq s =
      .next { s with busData := if s.irq then 1 else 0, unseen := if s.irq then .empty else s.unseen } ∧
    (r ∈ resultRegs → ∃ v k, hostStep (.regRead r.offset 4) s = .next { s with busData := v, freeCtr := k } ∧
      (v = s.readReg r ∨ v ∈ unseenWords s r ∨
        (s.busy = true ∧ ∃ t, step (s.withInputs []) = .next t ∧ v = t.readReg r))) ∧
    s.readReg .id = 0xB10C0100 ||| s.cfg.maxBits.setWidth 32 ∧
    s.readReg .cmd = 0 ∧
    s.readReg .ctrl = (if s.irqEn then 1 else 0) ∧
    s.readReg .info = (if s.infoValid then 2 else 0) ||| (if s.infoPath then 1 else 0) ∧
    s.readReg .err = (s.errDetail.setWidth 32 <<< 8) ||| s.errCode.toByte.setWidth 32 ∧
    s.readReg .errAddr = s.errAddr ∧ s.readReg .dist = s.dist ∧
    s.readReg .bits = s.bits.setWidth 32 ∧ s.readReg .width = s.width.setWidth 32 ∧
    s.readReg .height = s.height.setWidth 32 ∧ s.readReg .srcBase = s.srcBase ∧ s.readReg .dstBase = s.dstBase ∧
    s.readReg .aBase = s.aBase ∧ s.readReg .aLen = s.aLen.setWidth 32 ∧
    s.readReg .bBase = s.bBase ∧ s.readReg .bLen = s.bLen.setWidth 32 ∧
    s.readReg .status =
      (if s.busy then 1 else 0) ||| (if s.done then 2 else 0) |||
      (if s.errCode ≠ .none then 4 else 0) ||| (if s.cmdOvr then 8 else 0)

/-- 10_state.md R39: STATUS.ERR reads as 1 exactly when ERR.CODE is not 0; a write to it is ignored. -/
def Obligations.StatusErrShowsTheErrorCode : Prop :=
  (∀ s : State, (s.readReg .status).getLsbD 2 = true ↔ s.readReg .err &&& 0xFF ≠ 0) ∧
  (∀ s : State, hostStep (.regWrite 0x08 4 0x00000004) s = .next s)

/-- 30_encoding.md R101: any access that is not an aligned 32-bit one gets no step. -/
def Obligations.UnalignedRegisterAccessIsRefused : Prop :=
  ∀ (s : State) (off : BitVec 8) (size : Nat) (v : Word), (size ≠ 4 ∨ off.toNat % 4 ≠ 0) →
    hostStep (.regWrite off size v) s = .refused (.registerAccess off size) ∧
    hostStep (.regRead off size) s = .refused (.registerAccess off size)

/-- 60_exceptions.md R241: the interrupt line, in the words the host reads; its level after a command ends, after a
word is rejected, and after the host writes CTRL, which in every state changes IRQ_EN alone (10_state.md R35). -/
def Obligations.InterruptLineIsEnableAndDone : Prop :=
  (∀ s : State, s.irq = ((s.readReg .ctrl).getLsbD 0 && (s.readReg .status).getLsbD 1)) ∧
  (∀ s t : State, s.busy = true → t.busy = false → step s = .next t → hostMove s ≠ some .reset →
    t.irq = s.irqEn) ∧
  (∀ (s : State) (w : Word) (r : Reject), s.busy = false → decode w = .error r →
    ∃ t, hostStep (.regWrite 0x0C 4 w) s = .next t ∧ t.irq = s.irqEn) ∧
  (∀ (s : State) (v : Word), ∃ t, t = { s with irqEn := v.getLsbD 0 } ∧
    hostStep (.regWrite 0x04 4 v) s = .next t ∧ t.irq = (v.getLsbD 0 && s.done))

/-! ## Reset -/

/-- 70_reset_and_hazards.md R260 and R262: reset sets every register to its listed value, as the host then reads it,
and the phase to idle, whatever was running, keeps the parameters, and does not touch the memory of an idle engine. -/
def Obligations.ResetSetsTheListedValues : Prop :=
  ∀ s : State, ∃ t, hostStep .reset s = .next t ∧ (∀ r, t.readReg r = resetValue s.cfg r ∧ hostReads r.offset t (resetValue s.cfg r)) ∧
    t.phase = .idle ∧ t.irq = false ∧ t.cfg = s.cfg ∧ (s.busy = false → t.mem = s.mem)

/-- 70_reset_and_hazards.md R261: a reset during a command abandons it without completion or error, the registers
take their reset values, and every byte of memory holds its old value, or is a byte the running hash command writes
and holds what it writes. -/
def Obligations.ResetDuringACommandLeavesOldOrNewBytes : Prop :=
  ∀ s : State, s.busy = true → s.mem.wf = true →
    ∃ t, hostStep .reset s = .next t ∧ t.phase = .idle ∧ (∀ r, t.readReg r = resetValue s.cfg r) ∧
      ∀ a, t.mem.read a = s.mem.read a ∨
        ∃ op r j v, s.phase = .run (.hash op) r ∧ j < fpLength s ∧ a = fpKey s j ∧
          (s.fingerprint op)[j]? = some v ∧ t.mem.read a = v

/-! ## HDIST -/

/-- 43_comparator.md R180, R183, R184: HDIST completes and writes the sum of the contributions to DIST;
nothing but DIST, DONE and the cleared record changes. However HDIST ends, the host may read the results of before
until it observes that (70_reset_and_hazards.md R267, in the form of log 22). -/
def Obligations.HdistWritesTheDistance : Prop :=
  ∀ s : State, s.busy = false → s.quiet = true →
    (s.aBase ≠ 0 → s.bBase ≠ 0 → s.aLen = s.bLen →
      (∀ i, i < s.aLen.toNat → busAnswer s.cfg .read (leftAddr s.distArgs i) = .ok ∧
        busAnswer s.cfg .read (rightAddr s.distArgs i) = .ok) →
      exec .hdist s =
        .next { s with
          dist := BitVec.ofNat 32 (memDistance s)
          done := true, errCode := .none, errDetail := 0, errAddr := 0
          unseen := unseenAfter s 0 }) ∧
    ∀ t, exec .hdist s = .next t → t.unseen = unseenAfter s 0

/-- 43_comparator.md R181, R182 and 60_exceptions.md R233, R235: NULL_ARGUMENT with its detail, checked before
LENGTH_MISMATCH; nothing but the record and DONE changes (but for the model's own field of results still readable,
log 22, of which this says nothing). -/
def Obligations.HdistRejectsBadArguments : Prop :=
  ∀ s : State, s.busy = false → s.quiet = true →
    (s.aBase = 0 ∨ s.bBase = 0 →
      ∃ u, exec .hdist s =
        .next { s with
          errCode := .nullArgument
          errDetail := if s.aBase = 0 then (if s.bBase = 0 then 3 else 1) else 2
          errAddr := 0, done := true, unseen := u }) ∧
    (s.aBase ≠ 0 → s.bBase ≠ 0 → s.aLen ≠ s.bLen →
      ∃ u, exec .hdist s =
        .next { s with errCode := .lengthMismatch, errDetail := 0, errAddr := 0, done := true, unseen := u })

/-- 43_comparator.md R185 and 20_memory.md R81: a BUS_ERROR of HDIST reports the first failing read in the order
left byte i, right byte i. -/
def Obligations.HdistReportsTheFirstFailingRead : Prop :=
  ∀ (s : State) (i : Nat), s.busy = false → s.quiet = true → s.aBase ≠ 0 → s.bBase ≠ 0 → s.aLen = s.bLen →
    i < s.aLen.toNat →
    (∀ k, k < i → busAnswer s.cfg .read (leftAddr s.distArgs k) = .ok ∧
      busAnswer s.cfg .read (rightAddr s.distArgs k) = .ok) →
    (busAnswer s.cfg .read (leftAddr s.distArgs i) = .error →
      exec .hdist s =
        .next { s with
          errCode := .busError, errDetail := 1, errAddr := leftAddr s.distArgs i, done := true
          unseen := unseenAfter s 0 }) ∧
    (busAnswer s.cfg .read (leftAddr s.distArgs i) = .ok →
      busAnswer s.cfg .read (rightAddr s.distArgs i) = .error →
      exec .hdist s =
        .next { s with
          errCode := .busError, errDetail := 1, errAddr := rightAddr s.distArgs i, done := true
          unseen := unseenAfter s 0 })

/-- 43_comparator.md R187: the distance of a completed HDIST is at most 4·A_LEN, and DIST holds it without
overflow. -/
def Obligations.DistanceIsAtMostFourPerByte : Prop :=
  ∀ s t : State, s.busy = false → s.quiet = true → exec .hdist s = .next t → t.errCode = .none →
    t.dist.toNat ≤ 4 * s.aLen.toNat ∧ t.dist.toNat = memDistance s

/-- 43_comparator.md R186: the comparator's distance is a pseudometric on equally long byte arrays, and it sees
the low nibbles alone. -/
def Obligations.DistanceIsAPseudometric : Prop :=
  ∀ as bs cs : List Byte, as.length = bs.length → bs.length = cs.length →
    hammingDistance as as = 0 ∧ hammingDistance as bs = hammingDistance bs as ∧
    hammingDistance as bs ≤ hammingDistance as cs + hammingDistance cs bs ∧
    hammingDistance as bs = hammingDistance (as.map (· &&& 0x0F)) (bs.map (· &&& 0x0F))

/-- 43_comparator.md R188: what HDIST records depends only on its four operands, memory and the platform, and it
changes nothing else (but for the model's own field of results still readable, log 22). -/
def Obligations.HdistSeesOnlyItsOperands : Prop :=
  ∀ s₁ s₂ t₁ t₂ : State, s₁.busy = false → s₂.busy = false → s₁.quiet = true → s₂.quiet = true →
    s₁.distArgs = s₂.distArgs → s₁.cfg.bus = s₂.cfg.bus →
    (∀ i, i < s₁.aLen.toNat → byteAt s₁ (leftAddr s₁.distArgs i) = byteAt s₂ (leftAddr s₁.distArgs i) ∧
      byteAt s₁ (rightAddr s₁.distArgs i) = byteAt s₂ (rightAddr s₁.distArgs i)) →
    exec .hdist s₁ = .next t₁ → exec .hdist s₂ = .next t₂ →
      t₁.errCode = t₂.errCode ∧ t₁.errDetail = t₂.errDetail ∧ t₁.errAddr = t₂.errAddr ∧
      (t₁.errCode = .none → t₁.dist = t₂.dist) ∧ (t₁.errCode ≠ .none → t₁.dist = s₁.dist) ∧
      t₁ = { s₁ with
        dist := t₁.dist, done := true, errCode := t₁.errCode, errDetail := t₁.errDetail, errAddr := t₁.errAddr
        unseen := t₁.unseen }

/-! ## Hash commands -/

/-- 44_hash_commands.md R201 and 60_exceptions.md R232: the first failing operand check raises INVALID_ARGUMENT
with its detail, whatever the platform answers to accesses; memory, DIST and the operands stay (the model's own field of
results still readable, log 22, is left to the frame below). -/
def Obligations.HashChecksItsOperandsInOrder : Prop :=
  ∀ (op : HashOp) (s : State) (d : BitVec 8), s.busy = false → s.quiet = true →
    failingDetail op s = some d →
    ∃ u, exec (hashInstr op) s =
      .next { s with
        errCode := .invalidArgument, errDetail := d, errAddr := 0
        infoValid := false, infoPath := false, done := true, unseen := u }

/-- 44_hash_commands.md R200, R202 to R205 and 42_bitpacker.md R173: with legal operands and the platform
performing the accesses, each hash command completes; the fingerprint of the image as it was before the
command, even where buffers overlap (20_memory.md R82), stands at DST_BASE on, every other byte is unchanged,
and only INFO, DONE and the cleared record change among the registers. -/
def Obligations.HashCommandsWriteTheFingerprint : Prop :=
  ∀ (op : HashOp) (s : State), s.busy = false → s.quiet = true → s.mem.wf = true →
    failingDetail op s = none → readsAnswered op s → writesAnswered s →
    ∃ m : Memory,
      exec (hashInstr op) s =
        .next { s with
          mem := m
          infoValid := true, infoPath := s.hashPath op == .weighted
          done := true, errCode := .none, errDetail := 0, errAddr := 0
          unseen := unseenAfter s (fpLength s) } ∧
      m.wf = true ∧
      (memFingerprint op s).length = fpLength s ∧
      (∀ j v, (memFingerprint op s)[j]? = some v → m.read (fpKey s j) = v) ∧
      (∀ b, (∀ j, j < fpLength s → fpKey s j ≠ b) → m.read b = s.mem.read b)

/-- 40_block_aggregator.md R121: the path each command takes, and INFO.PATH reports it. -/
def Obligations.PathIsChosenByTheCommand : Prop :=
  ∀ s : State,
    s.hashPath .hashq = .exact ∧ s.hashPath .hashw = .weighted ∧
    (s.hashPath .hash = .exact ↔ s.bits.toNat ∣ s.width.toNat ∧ s.bits.toNat ∣ s.height.toNat) ∧
    ∀ (op : HashOp) (t : State), s.busy = false → s.quiet = true → exec (hashInstr op) s = .next t →
      t.errCode = .none → (t.infoPath = true ↔ s.hashPath op = .weighted)

/-- 60_exceptions.md R234, R239 and 20_memory.md R80: a BUS_ERROR on a pixel read reports the first failing read
in raster order, R G B A, and leaves all memory unchanged. -/
def Obligations.HashReportsTheFirstFailingRead : Prop :=
  ∀ (op : HashOp) (s : State) (x y ch : Nat), s.busy = false → s.quiet = true →
    failingDetail op s = none → covered op s x y → ch < 4 →
    (∀ x' y' ch', covered op s x' y' → ch' < 4 →
      (y' < y ∨ (y' = y ∧ (x' < x ∨ (x' = x ∧ ch' < ch)))) →
      busAnswer s.cfg .read (pixAddr s.hashArgs x' y' ch') = .ok) →
    busAnswer s.cfg .read (pixAddr s.hashArgs x y ch) = .error →
    exec (hashInstr op) s =
      .next { s with
        errCode := .busError, errDetail := 1, errAddr := pixAddr s.hashArgs x y ch
        infoValid := false, infoPath := false, done := true, unseen := unseenAfter s 0 }

/-- 42_bitpacker.md R173 and 60_exceptions.md R239: a BUS_ERROR on write j leaves bytes 0 to j − 1 written and
every other byte untouched. -/
def Obligations.WriteErrorKeepsTheEarlierBytes : Prop :=
  ∀ (op : HashOp) (s : State) (j : Nat), s.busy = false → s.quiet = true → s.mem.wf = true →
    failingDetail op s = none → readsAnswered op s → j < fpLength s →
    (∀ k, k < j → busAnswer s.cfg .write (fingerprintAddr s.hashArgs k) = .ok) →
    busAnswer s.cfg .write (fingerprintAddr s.hashArgs j) = .error →
    ∃ m : Memory,
      exec (hashInstr op) s =
        .next { s with
          mem := m
          errCode := .busError, errDetail := 2, errAddr := fingerprintAddr s.hashArgs j
          infoValid := false, infoPath := false, done := true, unseen := unseenAfter s j } ∧
      (∀ k v, k < j → (memFingerprint op s)[k]? = some v → m.read (fpKey s k) = v) ∧
      (∀ b, (∀ k, k < j → fpKey s k ≠ b) → m.read b = s.mem.read b)

/-- The frame of every hash command (44_hash_commands.md R205, 60_exceptions.md R230 and R239): in every next
state only memory, the record, INFO and DONE differ; bytes outside the fingerprint buffer are unchanged; and
after any error but a BUS_ERROR on a write all bytes are. -/
def Obligations.HashCommandFrame : Prop :=
  ∀ (op : HashOp) (s t : State), s.busy = false → s.quiet = true → s.mem.wf = true →
    exec (hashInstr op) s = .next t →
    t = { s with
      mem := t.mem, done := true, errCode := t.errCode, errDetail := t.errDetail, errAddr := t.errAddr
      infoValid := t.infoValid, infoPath := t.infoPath, unseen := t.unseen } ∧
    t.mem.wf = true ∧ (∃ n, n ≤ fpLength s ∧ t.unseen = unseenAfter s n) ∧
    (∀ b, (∀ j, j < fpLength s → fpKey s j ≠ b) → t.mem.read b = s.mem.read b) ∧
    (t.errCode ≠ .none → ¬(t.errCode = .busError ∧ t.errDetail = 2) → t.mem = s.mem)

/-- 42_bitpacker.md R170, R171: for every legal grid size the fingerprint has bits·bits/4 bytes whatever the
image, its size and the path, and the high nibble of each is 0. -/
def Obligations.FingerprintLengthAndNibbles : Prop :=
  ∀ (scale : Nat) (path : AggPath) (w h bits : Nat) (pix : Nat → Nat → Nat), bits % 2 = 0 →
    (fingerprintOf scale path w h bits pix).length = bits * bits / 4 ∧
    ∀ v ∈ fingerprintOf scale path w h bits pix, v.toNat < 16

/-- 40_block_aggregator.md R135: where bits divides W and H, the weighted path gives exactly the exact path's grid and
ppb; HASH and HASHQ do the same, and HASHW ends in the same state but for INFO.PATH. -/
def Obligations.PathEquivalence : Prop :=
  (∀ (w h bits : Nat) (pix : Nat → Nat → Nat), 0 < w → w ≤ 65535 → 0 < h → h ≤ 65535 → bits ∣ w → bits ∣ h →
    (∀ x y, pix x y ≤ 765) → aggregate .weighted w h bits pix = aggregate .exact w h bits pix) ∧
  ∀ s : State, s.busy = false → s.quiet = true →
    s.bits.toNat ∣ s.width.toNat → s.bits.toNat ∣ s.height.toNat →
    exec .hashq s = exec .hash s ∧
    ∀ t, exec .hash s = .next t → exec .hashw s = .next { t with infoPath := t.infoValid }

/-- 40_block_aggregator.md R136: an image that is alpha 0 everywhere hashes as the opaque white image of the same
size, under every command. -/
def Obligations.TransparentHashesAsWhite : Prop :=
  ∀ (op : HashOp) (s : State) (m t₁ t₂), s.busy = false → s.quiet = true → s.mem.wf = true → m.wf = true →
    (∀ x y, x < s.width.toNat → y < s.height.toNat → byteAt s (pixAddr s.hashArgs x y 3) = 0) →
    (∀ x y ch, x < s.width.toNat → y < s.height.toNat → ch < 4 →
      m.read (pixAddr s.hashArgs x y ch).toNat = 255) →
    exec (hashInstr op) s = .next t₁ → exec (hashInstr op) { s with mem := m } = .next t₂ →
    t₁.errCode = .none →
    t₂.errCode = .none ∧ t₁.infoPath = t₂.infoPath ∧
    ∀ j, j < fpLength s → t₁.mem.read (fpKey s j) = t₂.mem.read (fpKey s j)

/-- 44_hash_commands.md R206 and 40_block_aggregator.md R125: what a hash command records and writes depends only on
its operands, the platform, and the bytes of the pixels its path covers; uncovered pixels do not matter. -/
def Obligations.HashIsAFunctionOfTheCoveredPixels : Prop :=
  ∀ (op : HashOp) (s₁ s₂ t₁ t₂ : State), s₁.busy = false → s₂.busy = false → s₁.quiet = true →
    s₂.quiet = true → s₁.mem.wf = true → s₂.mem.wf = true →
    s₁.hashArgs = s₂.hashArgs → s₁.cfg = s₂.cfg →
    (∀ x y ch, covered op s₁ x y → ch < 4 →
      byteAt s₁ (pixAddr s₁.hashArgs x y ch) = byteAt s₂ (pixAddr s₁.hashArgs x y ch)) →
    exec (hashInstr op) s₁ = .next t₁ → exec (hashInstr op) s₂ = .next t₂ →
    t₁.errCode = t₂.errCode ∧ t₁.errDetail = t₂.errDetail ∧ t₁.errAddr = t₂.errAddr ∧
    t₁.infoValid = t₂.infoValid ∧ t₁.infoPath = t₂.infoPath ∧
    (∀ a, t₁.mem.read a = t₂.mem.read a ∨
      (t₁.mem.read a = s₁.mem.read a ∧ t₂.mem.read a = s₂.mem.read a)) ∧
    (t₁.errCode = .none → ∀ j, j < fpLength s₁ → t₁.mem.read (fpKey s₁ j) = t₂.mem.read (fpKey s₁ j))

/-- 40_block_aggregator.md R130 and 60_exceptions.md R237: no step of the machine records INDEX_RANGE. -/
def Obligations.IndexRangeIsNeverRaised : Prop :=
  ∀ s t : State, s.errCode ≠ .indexRange → step s = .next t → t.errCode ≠ .indexRange

/-! ## The datapath -/

/-- 40_block_aggregator.md R120: the intensity of a pixel. -/
def Obligations.IntensityOfAPixel : Prop :=
  ∀ r g b a : Byte, (a = 0 → intensity r g b a = 765) ∧
    (a ≠ 0 → intensity r g b a = r.toNat + g.toNat + b.toNat) ∧ intensity r g b a ≤ 765 ∧
    intensity 255 255 255 a = 765

/-- 40_block_aggregator.md R122 to R124: cell (r, c) of the exact path is the exact sum of the intensities of its
block, an integer value no rounding has touched, and ppb is the number of pixels of a block. -/
def Obligations.ExactPathSumsEachBlock : Prop :=
  ∀ (w h bits r c : Nat) (pix : Nat → Nat → Nat), w ≤ 65535 → h ≤ 65535 → 0 < bits → r < bits → c < bits →
    (∀ x y, pix x y ≤ 765) →
    ∃ v, (exactAggregate w h bits pix).grid[r * bits + c]? = some v ∧
      v.units = (F64.scale : Int) * (∑ iy ∈ Finset.range (h / bits), ∑ ix ∈ Finset.range (w / bits),
        pix (c * (w / bits) + ix) (r * (h / bits) + iy) : Nat) ∧
      (exactAggregate w h bits pix).ppb.units = (F64.scale : Int) * ((w / bits) * (h / bits) : Nat)

/-- 40_block_aggregator.md R126 to R129, R131 to R133: the axis map in units of 2^-1074. On every axis the weights
of a coordinate lie in [0, 1], the low weight is positive, and a coordinate of the last row or column, or on an even
axis, is credited to one block. On an uneven axis the low index is the floor of the quotient, the high one its
ceiling where a block boundary lies strictly inside the pixel, the high weight is the fraction of the edge position
and the low one the rounded rest. Each cell of the weighted path is its contributions added in order, and ppb is the
product of the block sizes. Values in units are the model's form of binary64 (log 10). -/
def Obligations.AxisWeightsAndSplits : Prop :=
  (∀ i n bits : Nat, i < n → n ≤ 65535 → 2 ≤ bits → bits ≤ 254 → bits % 2 = 0 →
    F64.lt F64.zero (axisMap i n bits).wLo = true ∧ F64.lt F64.one (axisMap i n bits).wLo = false ∧
    F64.lt (axisMap i n bits).wHi F64.zero = false ∧ F64.lt (axisMap i n bits).wHi F64.one = true ∧
    (bits ∣ n ∨ i + 1 = n → (axisMap i n bits).hi = (axisMap i n bits).lo) ∧
    (bits ∣ n → (axisMap i n bits).lo = i / (n / bits) ∧ (axisMap i n bits).wLo = F64.one ∧
      (axisMap i n bits).wHi = F64.zero) ∧
    (¬ bits ∣ n →
      (axisMap i n bits).lo = quotientUnits i n bits / F64.scale ∧
      (axisMap i n bits).hi =
        (if F64.scale ≤ edgeUnits i n bits ∨ i + 1 = n ∨ edgeUnits i n bits = 0 then quotientUnits i n bits / F64.scale
         else (quotientUnits i n bits + (F64.scale - 1)) / F64.scale) ∧
      (axisMap i n bits).wHi.units = (edgeUnits i n bits % F64.scale : Nat) ∧
      (axisMap i n bits).wLo.units = F64.roundUnits (F64.scale - edgeUnits i n bits % F64.scale) 1)) ∧
  ∀ (w h bits : Nat) (pix : Nat → Nat → Nat),
    (∀ j, j < bits * bits → (weightedAggregate w h bits pix).grid[j]? =
      some (((contributions w h bits pix).filter (fun p => p.1 = j)).foldl (fun cell p => F64.add cell p.2) F64.zero)) ∧
    (w ≤ 65535 → h ≤ 65535 → 2 ≤ bits → bits ≤ 254 →
      (weightedAggregate w h bits pix).ppb.units =
        F64.roundUnits (blockUnits w bits * blockUnits h bits) F64.scale)

/-- 00_scope.md R20: every primitive but the exact ones rounds the exact quotient `p / q` to a representable
value nearest to it; when two are equally near, to the one that is an even multiple of their distance
(roundTiesToEven). Values are in units of 2^-1074, with no infinity and no overflow: the model's reading of R22
(log 10). -/
def Obligations.RoundingIsToNearestTiesToEven : Prop :=
  ∀ p q : Nat, 0 < q →
    F64.Representable (F64.roundUnits p q) ∧
    ∀ y, F64.Representable y →
      |((F64.roundUnits p q : Int) * q - p)| ≤ |((y : Int) * q - p)| ∧
      (y ≠ F64.roundUnits p q → |((F64.roundUnits p q : Int) * q - p)| = |((y : Int) * q - p)| →
        ∃ e, (y = F64.roundUnits p q + 2 ^ e ∨ F64.roundUnits p q = y + 2 ^ e) ∧
          2 ^ (e + 1) ∣ F64.roundUnits p q)

/-- 00_scope.md R20, R21: what the four rounding primitives round: the exact sum, difference, product and quotient
of non-negative values; fmod, floor, ceil, abs and the comparisons are exact, and every integer below 2^53 converts
exactly. That nothing overflows is log 10; that a difference may be negative, against R22, is log 11. -/
def Obligations.PrimitivesRoundTheExactResult : Prop :=
  ∀ a b : Nat,
    (a < 2 ^ 53 → (F64.ofNat a).units = (a : Int) * F64.scale) ∧
    (F64.add ⟨a⟩ ⟨b⟩).units = F64.roundUnits (a + b) 1 ∧
    (b ≤ a → (F64.sub ⟨a⟩ ⟨b⟩).units = F64.roundUnits (a - b) 1 ∧
      (F64.sub ⟨b⟩ ⟨a⟩).units = -(F64.roundUnits (a - b) 1 : Int)) ∧
    (F64.mul ⟨a⟩ ⟨b⟩).units = F64.roundUnits (a * b) F64.scale ∧
    (0 < b → (F64.div ⟨a⟩ ⟨b⟩).units = F64.roundUnits (a * F64.scale) b) ∧
    (0 < b → (F64.fmod ⟨a⟩ ⟨b⟩).units = (a : Int) - b * (a / b : Nat)) ∧
    (F64.floor ⟨a⟩ * F64.scale ≤ a ∧ a < (F64.floor ⟨a⟩ + 1) * F64.scale) ∧
    (a ≤ F64.ceil ⟨a⟩ * F64.scale ∧ F64.ceil ⟨a⟩ * F64.scale < a + F64.scale) ∧
    ∀ u v : F64, (F64.abs u).units = |u.units| ∧ (F64.lt u v = true ↔ u.units < v.units) ∧
      (F64.eq u v = true ↔ u.units = v.units)

/-- 41_quantizer.md R151 and 00_scope.md R23: the sort is an ascending permutation; the median is its middle element
for an odd number of values and the halved rounded sum of the two middle ones for an even number, and it does not
depend on the order of the band. -/
def Obligations.MedianIsOrderFree : Prop :=
  (∀ l : List F64, (sortAsc l).Perm l ∧ (sortAsc l).Pairwise (fun u v => F64.lt v u = false)) ∧
  (∀ l l' : List F64, l.Perm l' → median l = median l') ∧
  (∀ l : List F64, l.length % 2 = 1 → (sortAsc l)[(l.length - 1) / 2]? = some (median l)) ∧
  (∀ l : List F64, 0 < l.length → l.length % 2 = 0 →
    ∃ u v, (sortAsc l)[l.length / 2 - 1]? = some u ∧ (sortAsc l)[l.length / 2]? = some v ∧
      median l = F64.div (F64.add u v) (F64.ofNat 2))

/-- 41_quantizer.md R153, R155: above the median the bit is 1; at the median, and 0.5 below it, it is 1 exactly when
the median is above half; at 1.0 or more below the median it is 0; it is never 1 below the median unless the median
is above half. Less than 1.0 below it the bit is 1 exactly when the median is above half, wherever the binary64
difference is exact or the median is below 1.0; in every case below the median it follows the rounded difference
(which is negative, log 11). -/
def Obligations.BitDecisionIsAsymmetric : Prop :=
  ∀ m half v : F64,
    (F64.lt m v = true → decideBit m half v = true) ∧
    (v = m → decideBit m half v = F64.lt half m) ∧
    (v.units + F64.scale ≤ m.units → decideBit m half v = false) ∧
    (F64.lt m v = false → F64.lt half m = false → decideBit m half v = false) ∧
    (2 * v.units + F64.scale = 2 * m.units → decideBit m half v = F64.lt half m) ∧
    (∀ a b : Nat, m = ⟨a⟩ → v = ⟨b⟩ → b < a → a < b + F64.scale → F64.Representable a → F64.Representable b →
      a ≤ 2 * b ∨ a < F64.scale → decideBit m half v = F64.lt half m) ∧
    (v.units < m.units →
      (decideBit m half v = true ↔
        F64.roundUnits (m.units - v.units).toNat 1 < F64.scale ∧ F64.lt half m = true))

/-- 41_quantizer.md R150, R154: bit j of the BitSequence is the decision on cell j by the median of band
j div n alone, where n = bits·bits/4. -/
def Obligations.EachBandHasItsOwnMedian : Prop :=
  ∀ (scale bits j : Nat) (grid : List F64) (ppb v : F64), bits % 2 = 0 → grid.length = bits * bits →
    grid[j]? = some v →
    (quantize scale bits grid ppb).length = bits * bits ∧
    (quantize scale bits grid ppb)[j]? =
      some (decideBit (median ((List.range (bits * bits / 4)).filterMap
        fun k => grid[j / (bits * bits / 4) * (bits * bits / 4) + k]?)) (halfBlock scale ppb) v)

/-- 42_bitpacker.md R170: byte j packs bits 4j to 4j + 3, most significant first. -/
def Obligations.PackerPutsFourBitsInEachByte : Prop :=
  ∀ (bits : List Bool) (j : Nat) (b0 b1 b2 b3 : Bool), bits[4 * j]? = some b0 → bits[4 * j + 1]? = some b1 →
    bits[4 * j + 2]? = some b2 → bits[4 * j + 3]? = some b3 →
    ∃ v, (pack bits)[j]? = some v ∧
      v.toNat = 8 * b0.toNat + 4 * b1.toNat + 2 * b2.toNat + b3.toNat

/-- 41_quantizer.md R156: a band of equal values has that median and equal bits; with the default 256, a white image
on the exact path gives bytes 0x0F throughout, and a black opaque one 0x00. The half-block value they are held
against (41_quantizer.md R152) is evaluated left to right with any HALF_SCALE (93_implementation_defined.md row 2),
and with 256 is exactly 384·P for the integer ppb P of an exact path. -/
def Obligations.UniformImagesOnTheExactPath : Prop :=
  (∀ (half : F64) (u k : Nat), F64.Representable u → 0 < k →
    median (List.replicate k ⟨u⟩) = ⟨u⟩ ∧
    bandBits half (List.replicate k ⟨u⟩) = List.replicate k (F64.lt half ⟨u⟩)) ∧
  (∀ (scale : Nat) (p : F64), halfBlock scale p =
    F64.div (F64.mul (F64.mul p (F64.ofNat scale)) (F64.ofNat 3)) (F64.ofNat 2)) ∧
  (∀ n : Nat, n ≤ 65535 * 65535 → (halfBlock 256 (F64.ofNat n)).units = (384 * n * F64.scale : Nat)) ∧
  ∀ w h bits : Nat, w ≤ 65535 → h ≤ 65535 → bits % 2 = 0 → 2 ≤ bits → bits ≤ w → bits ≤ h →
    fingerprintOf 256 .exact w h bits (fun _ _ => 765) = List.replicate (bits * bits / 4) 0x0F ∧
    fingerprintOf 256 .exact w h bits (fun _ _ => 0) = List.replicate (bits * bits / 4) 0x00

/-! ## Running commands and races -/

/-- 10_state.md R37, R38, R43, R44, R58: when a host operation arrives before completion, a command that runs is
accepted: the phase is RUN of that command, DONE, ERR and ERR_ADDR are 0, and nothing else has changed; STATUS
then reads BUSY alone, unless CMD_OVR was set. -/
def Obligations.AcceptedCommandsAreBusy : Prop :=
  ∀ s : State, s.busy = false → s.quiet = false →
    (∀ op, exec (hashInstr op) s =
      .next { s with
        phase := .run (.hash op) [], done := false, errCode := .none, errDetail := 0, errAddr := 0
        unseen := { s.unseen with records := [] } }) ∧
    exec .hdist s =
      .next { s with
        phase := .run .hdist [], done := false, errCode := .none, errDetail := 0, errAddr := 0
        unseen := { s.unseen with records := [] } } ∧
    ∀ (i : Instr) (t : State), i ∈ [Instr.hash, .hashq, .hashw, .hdist] → exec i s = .next t →
      s.cmdOvr = false → t.readReg .status = 0x1

/-- 44_hash_commands.md R206: a command that was accepted while a host operation was due, and then runs with no
host store, ends as it would have ended in one step, whatever the host does after its completion. -/
def Obligations.CompletionLaterIsTheSameCommand : Prop :=
  ∀ (s b : State) (i : Instr) (l : List Pending), s.busy = false → s.quiet = false → exec i s = .next b →
    b.busy = true → (b.withInputs l).quiet = true → step (b.withInputs l) = exec i (s.withInputs l)

/-- 10_state.md R37, R38, R58 and 70_reset_and_hazards.md R271: with no host operation due before completion and
no access left unanswered, the busy engine's step completes: BUSY 0 and DONE 1, with INFO.VALID telling the
error of a hash command. 20_memory.md R86: after a hash command that ends without error, each byte of its buffer is
the byte of the fingerprint it computed; one the host also stored to during the command is that or the host's. An
HDIST that ends without error writes the sum over the bytes it read (43_comparator.md R184) and leaves memory. What
the command computed, where the host raced with its reads, rests on free draws (logs 5, 9). -/
def Obligations.BusyEngineCompletes : Prop :=
  ∀ s : State, s.busy = true → s.quiet = true → neverSilent s →
    ∃ t, step s = .next t ∧ t.busy = false ∧ t.done = true ∧ t.inputs = s.inputs ∧
      (s.runsHash = true → s.errCode = .none → (t.infoValid = true ↔ t.errCode = .none)) ∧
      (∀ r, s.phase = .run .hdist r → t.mem = s.mem ∧
        (t.errCode = .none → t.dist = BitVec.ofNat 32 (readDistance s))) ∧
      ∀ op r, s.phase = .run (.hash op) r → s.mem.wf = true → t.errCode = .none →
        (s.fingerprint op).length = fpLength s ∧
        ∀ j v, (s.fingerprint op)[j]? = some v →
          t.mem.read (fpKey s j) = v ∨
            ((∃ old, (fpKey s j, old) ∈ s.replaced) ∧ t.mem.read (fpKey s j) = s.mem.read (fpKey s j))

/-- 20_memory.md R86: a byte the engine reads during a command is the byte in memory or one the byte held since
acceptance. A host store writes its byte and no other (20_memory.md R79), and the host reads no value from before its
own store (log 22); in an idle engine nothing else changes, and in a busy one the replaced byte joins those the byte
held and the free draws are renewed (logs 6, 9). -/
def Obligations.RacedReadsReturnAHeldByte : Prop :=
  (∀ (s : State) (n : Nat) (a : Word),
    s.engineRead n a = byteAt s a ∨ (a.toNat, s.engineRead n a) ∈ s.replaced) ∧
  (∀ (s : State) (a : Word) (v : Byte),
    (s.busy = false → hostStep (.memStore a v) s =
      .next { s with
        mem := s.mem.write a.toNat v
        unseen := { s.unseen with bytes := s.unseen.bytes.filter (fun c => c.1 ≠ a.toNat) } }) ∧
    (∀ op r, s.phase = .run op r →
      hostStep (.memStore a v) s =
        .next { s with
          mem := s.mem.write a.toNat v
          phase := .run op ((a.toNat, byteAt s a) :: r)
          unseen := { s.unseen with bytes := s.unseen.bytes.filter (fun c => c.1 ≠ a.toNat) }
          freeCtr := s.freeCtr + 1 }) ∧
    (s.mem.wf = true → ∀ b, (s.mem.write a.toNat v).read b = if b = a.toNat then v else s.mem.read b))

/-- 20_memory.md R86, 70_reset_and_hazards.md R267: a host load answers the byte in memory, the byte the running hash
command writes there, or a byte that a completion has replaced which the host has not observed (93_implementation_defined.md
row 16); with no hash command running and every completion observed it answers the byte in memory. That the running
engine's value is the one it would write in the state of the load is the model's choice (log 9), and so is the form in
which replaced bytes stay open (log 22); which value is answered is free (log 5). The zero-extended answer is the
model's own field (log 7). -/
def Obligations.HostLoadsSeeOldOrNewBytes : Prop :=
  ∀ (s : State) (a : Word), ∃ v k,
    hostStep (.memLoad a) s = .next { s with busData := v.setWidth 32, freeCtr := k } ∧
    (s.runsHash = false → s.unseen = .empty → v = byteAt s a) ∧
    (v = byteAt s a ∨ (a.toNat, v) ∈ s.unseen.bytes ∨ ∃ op r j, s.phase = .run (.hash op) r ∧ j < fpLength s ∧
      a = fingerprintAddr s.hashArgs j ∧ (s.fingerprint op)[j]? = some v)

/-! ## Rules about every step -/

/-- 10_state.md R54: DIST changes only by reset, or when HDIST completes without error. -/
def Obligations.DistChangesOnlyByHdist : Prop :=
  ∀ s t : State, step s = .next t →
    t.dist = s.dist ∨ hostMove s = some .reset ∨
    (hdistAtWork s ∧ t.busy = false ∧ t.done = true ∧
      (s.errCode = .none ∨ s.busy = false → t.errCode = .none))

/-- 10_state.md R55: INFO changes only by reset, or when a hash command completes: then VALID tells success, and
PATH is 0 on error. -/
def Obligations.InfoChangesOnlyByHashCompletion : Prop :=
  ∀ s t : State, step s = .next t →
    (t.infoValid = s.infoValid ∧ t.infoPath = s.infoPath) ∨ hostMove s = some .reset ∨
    (hashAtWork s ∧ t.busy = false ∧ t.done = true ∧ (t.infoValid = false → t.infoPath = false) ∧
      (s.errCode = .none ∨ s.busy = false → (t.infoValid = true ↔ t.errCode = .none)))

/-- 10_state.md R40: what sets and clears CMD_OVR; nothing else changes it. -/
def Obligations.CommandOverrunFollowsItsRule : Prop :=
  ∀ s t : State, step s = .next t → t.cmdOvr = cmdOvrAfter s

/-- 60_exceptions.md R242 and 10_state.md R38: DONE is cleared only by a STATUS write of 1 to bit 1, by CLEAR, by
the acceptance of a command that runs, and by reset; never by the engine's own completion. -/
def Obligations.DoneIsClearedOnlyByTheHost : Prop :=
  ∀ s t : State, s.done = true → step s = .next t → t.done = false →
    hostMove s = some .reset ∨ (∃ v, hostMove s = some (.regWrite 0x08 4 v) ∧ v.getLsbD 1 = true) ∨
    (s.busy = false ∧ ∃ i, i ≠ .nop ∧ submits s i)

/-- 10_state.md R45 to R53, R57, R105: a configuration register changes only by reset or by a host write to it while
the engine is idle; the parameters never change. -/
def Obligations.ConfigurationChangesOnlyByHostWrites : Prop :=
  ∀ s t : State, step s = .next t →
    t.cfg = s.cfg ∧
    ∀ r ∈ configRegs, t.readReg r = s.readReg r ∨ hostMove s = some .reset ∨
      (s.busy = false ∧ ∃ v, hostMove s = some (.regWrite r.offset 4 v) ∧ t.readReg r = v &&& fieldMask r)

/-- 20_memory.md R75, R88: a byte of memory changes only by a host store to it, or when it is a byte of the
fingerprint buffer of a hash command, and then it gets a nibble. -/
def Obligations.MemoryChangesOnlyByStoresAndFingerprints : Prop :=
  ∀ (s t : State) (a : Nat), s.mem.wf = true → step s = .next t →
    t.mem.read a = s.mem.read a ∨
    (∃ aw v, hostMove s = some (.memStore aw v) ∧ aw.toNat = a ∧ t.mem.read a = v) ∨
    (hashAtWork s ∧ (t.mem.read a).toNat < 16 ∧ ∃ j, j < fpLength s ∧ fpKey s j = a)

/-- 30_encoding.md R101 and 93_implementation_defined.md row 24: the machine stops only where the spec says: a
register access that is not an aligned 32-bit one, or an access of a command, running or submitted, that the platform
never answers; and a command does stop at the first access that is not performed, if that is never answered. -/
def Obligations.StepsStopOnlyWhereTheSpecSaysSo : Prop :=
  ∀ s : State,
    (neverSilent s → ∀ f, step s ≠ .fault f) ∧
    (∀ f, step s = .fault f → (∃ k a, f = .portSilent a ∧ busAnswer s.cfg k a = .silent) ∧
      ((s.busy = true ∧ hostMove s = none) ∨
        (s.busy = false ∧ ∃ i ∈ [Instr.hash, .hashq, .hashw, .hdist], submits s i))) ∧
    (s.busy = false → s.quiet = true →
      (∀ i, s.aBase ≠ 0 → s.bBase ≠ 0 → s.aLen = s.bLen → i < s.aLen.toNat →
        (∀ k, k < i → busAnswer s.cfg .read (leftAddr s.distArgs k) = .ok ∧
          busAnswer s.cfg .read (rightAddr s.distArgs k) = .ok) →
        (busAnswer s.cfg .read (leftAddr s.distArgs i) = .silent →
          exec .hdist s = .fault (.portSilent (leftAddr s.distArgs i))) ∧
        (busAnswer s.cfg .read (leftAddr s.distArgs i) = .ok →
          busAnswer s.cfg .read (rightAddr s.distArgs i) = .silent →
          exec .hdist s = .fault (.portSilent (rightAddr s.distArgs i)))) ∧
      (∀ op, failingDetail op s = none →
        (∀ x y ch, covered op s x y → ch < 4 →
          (∀ x' y' ch', covered op s x' y' → ch' < 4 →
            (y' < y ∨ (y' = y ∧ (x' < x ∨ (x' = x ∧ ch' < ch)))) →
            busAnswer s.cfg .read (pixAddr s.hashArgs x' y' ch') = .ok) →
          busAnswer s.cfg .read (pixAddr s.hashArgs x y ch) = .silent →
          exec (hashInstr op) s = .fault (.portSilent (pixAddr s.hashArgs x y ch))) ∧
        (∀ j, readsAnswered op s → j < fpLength s →
          (∀ k, k < j → busAnswer s.cfg .write (fingerprintAddr s.hashArgs k) = .ok) →
          busAnswer s.cfg .write (fingerprintAddr s.hashArgs j) = .silent →
          exec (hashInstr op) s = .fault (.portSilent (fingerprintAddr s.hashArgs j))))) ∧
    (∀ r, step s = .refused r → ∃ off size, r = .registerAccess off size ∧ (size ≠ 4 ∨ off.toNat % 4 ≠ 0) ∧
      ((∃ v, hostMove s = some (.regWrite off size v)) ∨ hostMove s = some (.regRead off size)))

/-! ## The invariant -/

/-- Memory's canonical form, a legal error record (60_exceptions.md R231 to R238), a clear record while busy
(10_state.md R38, R43), a bounded DIST (43_comparator.md R187) and a legal INFO (10_state.md R55) are kept by
every step. -/
def Obligations.EveryStepKeepsTheInvariant : Prop :=
  ∀ s t : State, s.Inv → step s = .next t → t.Inv

/-- The invariant holds after reset. -/
def Obligations.ResetMeetsTheInvariant : Prop := State.reset.Inv
end

