-- ==== Sys2Proof/Laws/Binary64.lean ====
section
/-! SUPPORT. The binary64 primitives: a rounded value is representable, rounding is monotone against
representable values and exact on them, and the integers below 2^53 compute exactly. -/

namespace Sys2Proof.F64

/-- 1.0 is a power of two number of units, and far above the smallest value. -/
theorem scale_eq : ∃ e, 60 ≤ e ∧ scale = 2 ^ e := by
  unfold scale
  generalize h : 1074 = k
  exact ⟨k, by omega, rfl⟩

theorem scale_pos : 0 < scale := by
  obtain ⟨e, -, h⟩ := scale_eq; rw [h]; exact Nat.two_pow_pos e

/-! ## The spacing at `n` units -/

theorem lt_pow_spareBits (n : Nat) : n < 2 ^ (spareBits n + 53) := by
  refine Nat.lt_of_lt_of_le Nat.lt_log2_self (Nat.pow_le_pow_right (by norm_num) ?_)
  unfold spareBits; omega

theorem pow_spareBits_le {n : Nat} (h : 0 < spareBits n) : 2 ^ (spareBits n + 52) ≤ n := by
  have hn : n ≠ 0 := by rintro rfl; simp [spareBits] at h
  refine Nat.le_trans (Nat.pow_le_pow_right (by norm_num) ?_) (Nat.log2_self_le hn)
  unfold spareBits at *; omega

/-- A representable number at or above `n` is a multiple of the spacing at `n`. -/
theorem Representable.dvd_of_le {n y : Nat} (hy : Representable y) (h : n ≤ y) : 2 ^ spareBits n ∣ y := by
  obtain ⟨m, e, hm, rfl⟩ := hy
  rcases Nat.eq_zero_or_pos (spareBits n) with h0 | h0
  · simp [h0]
  · have h1 : 2 ^ (spareBits n + 52) < 2 ^ (53 + e) :=
      calc 2 ^ (spareBits n + 52) ≤ n := pow_spareBits_le h0
        _ ≤ m * 2 ^ e := h
        _ < 2 ^ 53 * 2 ^ e := Nat.mul_lt_mul_of_pos_right hm (Nat.pow_pos (by norm_num))
        _ = 2 ^ (53 + e) := (Nat.pow_add 2 53 e).symm
    have h2 := (Nat.pow_lt_pow_iff_right (by norm_num)).mp h1
    exact Dvd.dvd.mul_left (Nat.pow_dvd_pow 2 (by omega)) m

/-! ## Rounding a quotient to an integer -/

theorem divNearestEven_cases (p q : Nat) :
    (divNearestEven p q = p / q ∧ 2 * (p % q) ≤ q) ∨ (divNearestEven p q = p / q + 1 ∧ q ≤ 2 * (p % q)) := by
  unfold divNearestEven
  split_ifs with h
  · left; omega
  · right
    constructor
    · rfl
    · by_contra hlt; exact h (.inl (by omega))

theorem divNearestEven_of_dvd {p q : Nat} (hq : 0 < q) (h : q ∣ p) : divNearestEven p q = p / q := by
  rcases divNearestEven_cases p q with h1 | ⟨-, h1⟩
  · exact h1.1
  · rw [Nat.mod_eq_zero_of_dvd h] at h1; omega

/-- The rounded units are one of the two multiples of the spacing that enclose the exact value. -/
theorem roundUnits_cases (p : Nat) {q : Nat} (hq : 0 < q) :
    (roundUnits p q = p / q / 2 ^ spareBits (p / q) * 2 ^ spareBits (p / q)) ∨
    (roundUnits p q = (p / q / 2 ^ spareBits (p / q) + 1) * 2 ^ spareBits (p / q) ∧
      p / q / 2 ^ spareBits (p / q) * (q * 2 ^ spareBits (p / q)) < p) := by
  have hd : 0 < q * 2 ^ spareBits (p / q) := Nat.mul_pos hq (Nat.pow_pos (by norm_num))
  rw [Nat.div_div_eq_div_mul]
  rcases divNearestEven_cases p (q * 2 ^ spareBits (p / q)) with ⟨h, -⟩ | ⟨h, hr⟩
  · left; rw [roundUnits, h]
  · right
    refine ⟨by rw [roundUnits, h], ?_⟩
    have := Nat.div_add_mod p (q * 2 ^ spareBits (p / q))
    rw [Nat.mul_comm] at this
    omega

/-- Rounding does not pass a representable value above. -/
theorem roundUnits_le {p q y : Nat} (hq : 0 < q) (hy : Representable y) (h : p ≤ y * q) :
    roundUnits p q ≤ y := by
  have hn : p / q ≤ y := Nat.div_le_of_le_mul (by rwa [Nat.mul_comm])
  rcases roundUnits_cases p hq with h1 | ⟨h1, h2⟩
  · rw [h1]; exact (Nat.div_mul_le_self _ _).trans hn
  · rw [h1]
    obtain ⟨t, rfl⟩ := hy.dvd_of_le hn
    rw [Nat.mul_comm (2 ^ _) t]
    refine Nat.mul_le_mul_right _ ?_
    have h3 : p / q / 2 ^ spareBits (p / q) * (q * 2 ^ spareBits (p / q)) <
        t * (q * 2 ^ spareBits (p / q)) := by
      refine lt_of_lt_of_le h2 (h.trans (le_of_eq ?_)); ring
    exact Nat.lt_of_mul_lt_mul_right h3

/-- Rounding does not pass a representable value below. -/
theorem le_roundUnits {p q y : Nat} (hq : 0 < q) (hy : Representable y) (h : y * q ≤ p) :
    y ≤ roundUnits p q := by
  have hn : y ≤ p / q := (Nat.le_div_iff_mul_le hq).mpr h
  have hfloor : y ≤ p / q / 2 ^ spareBits (p / q) * 2 ^ spareBits (p / q) := by
    obtain ⟨m, e, hm, rfl⟩ := hy
    by_cases he : spareBits (p / q) ≤ e
    · obtain ⟨t, ht⟩ : 2 ^ spareBits (p / q) ∣ m * 2 ^ e := Dvd.dvd.mul_left (Nat.pow_dvd_pow 2 he) m
      rw [ht, Nat.mul_comm] at hn ⊢
      exact Nat.mul_le_mul_right _ ((Nat.le_div_iff_mul_le (Nat.pow_pos (by norm_num))).mpr hn)
    · have h52 := pow_spareBits_le (n := p / q) (by omega)
      have h1 : m * 2 ^ e ≤ 2 ^ 52 * 2 ^ spareBits (p / q) :=
        calc m * 2 ^ e ≤ 2 ^ 53 * 2 ^ e := Nat.mul_le_mul_right _ hm.le
          _ = 2 ^ (53 + e) := (Nat.pow_add 2 53 e).symm
          _ ≤ 2 ^ (52 + spareBits (p / q)) := Nat.pow_le_pow_right (by norm_num) (by omega)
          _ = 2 ^ 52 * 2 ^ spareBits (p / q) := Nat.pow_add 2 52 _
      refine h1.trans (Nat.mul_le_mul_right _ ?_)
      rw [Nat.le_div_iff_mul_le (Nat.pow_pos (by norm_num)), ← Nat.pow_add, Nat.add_comm]
      exact h52
  rcases roundUnits_cases p hq with h1 | ⟨h1, -⟩
  · rwa [h1]
  · rw [h1]; exact hfloor.trans (Nat.mul_le_mul_right _ (Nat.le_succ _))

/-- A representable value rounds to itself. -/
theorem roundUnits_exact {q y : Nat} (hq : 0 < q) (hy : Representable y) : roundUnits (y * q) q = y :=
  Nat.le_antisymm (roundUnits_le hq hy le_rfl) (le_roundUnits hq hy le_rfl)

/-- A rounded value has 53 significant bits. -/
theorem roundUnits_representable (p : Nat) {q : Nat} (hq : 0 < q) : Representable (roundUnits p q) := by
  have hk : p / q / 2 ^ spareBits (p / q) < 2 ^ 53 := by
    rw [Nat.div_lt_iff_lt_mul (Nat.pow_pos (by norm_num)), ← Nat.pow_add, Nat.add_comm]
    exact lt_pow_spareBits _
  rcases roundUnits_cases p hq with h1 | ⟨h1, -⟩
  · exact ⟨_, _, hk, h1⟩
  · rcases Nat.lt_or_ge (p / q / 2 ^ spareBits (p / q) + 1) (2 ^ 53) with h2 | h2
    · exact ⟨_, _, h2, h1⟩
    · refine ⟨2 ^ 52, spareBits (p / q) + 1, by norm_num, ?_⟩
      rw [h1, show p / q / 2 ^ spareBits (p / q) + 1 = 2 ^ 53 by omega, Nat.pow_succ]
      ring

theorem representable_zero : Representable 0 := ⟨0, 0, by norm_num, by norm_num⟩

theorem representable_of_lt {n e : Nat} (h : n < 2 ^ 53) : Representable (n * 2 ^ e) := ⟨n, e, h, rfl⟩

theorem representable_nat {n : Nat} (h : n < 2 ^ 53) : Representable (n * scale) := by
  obtain ⟨e, -, h1⟩ := scale_eq; rw [h1]; exact representable_of_lt h

theorem representable_unit : Representable 1 := ⟨1, 0, by norm_num, by norm_num⟩

@[simp] theorem roundUnits_zero (q : Nat) : roundUnits 0 q = 0 := by
  simp [roundUnits, divNearestEven]

/-! ## Non-negative values -/

/-- Rounding a non-negative exact value. -/
theorem roundSigned_natCast (p q : Nat) : roundSigned (p : Int) q = ⟨(roundUnits p q : Nat)⟩ := by
  unfold roundSigned
  rcases Nat.eq_zero_or_pos p with rfl | hp
  · simp
  · rw [Int.sign_eq_one_of_pos (by exact_mod_cast hp)]
    simp

/-- A non-negative value given by its units. -/
def ofUnits (n : Nat) : F64 := ⟨(n : Int)⟩

@[simp] theorem ofUnits_units (n : Nat) : (ofUnits n).units = (n : Int) := rfl

theorem ofNat_eq {n : Nat} (h : n < 2 ^ 53) : ofNat n = ofUnits (n * scale) := by
  have h1 : ofNat n = ⟨((roundUnits (n * scale) 1 : Nat) : Int)⟩ := by
    unfold ofNat; rw [← roundSigned_natCast]; push_cast; rfl
  have h2 := roundUnits_exact one_pos (representable_nat h)
  rw [Nat.mul_one] at h2
  rw [h1, h2]; rfl

theorem zero_eq : zero = ofUnits 0 := by rw [zero, ofNat_eq (by norm_num), Nat.zero_mul]
theorem one_eq : one = ofUnits scale := by rw [one, ofNat_eq (by norm_num), Nat.one_mul]

theorem add_ofUnits (a b : Nat) : add (ofUnits a) (ofUnits b) = ofUnits (roundUnits (a + b) 1) := by
  unfold add; rw [ofUnits_units, ofUnits_units, ← Nat.cast_add, roundSigned_natCast]; rfl

theorem sub_ofUnits {a b : Nat} (h : b ≤ a) : sub (ofUnits a) (ofUnits b) = ofUnits (roundUnits (a - b) 1) := by
  unfold sub; rw [ofUnits_units, ofUnits_units, ← Nat.cast_sub h, roundSigned_natCast]; rfl

theorem mul_ofUnits (a b : Nat) : mul (ofUnits a) (ofUnits b) = ofUnits (roundUnits (a * b) scale) := by
  unfold mul; rw [ofUnits_units, ofUnits_units, ← Nat.cast_mul, roundSigned_natCast]; rfl

theorem div_ofUnits (a b : Nat) : div (ofUnits a) (ofUnits b) = ofUnits (roundUnits (a * scale) b) := by
  unfold div; rw [ofUnits_units, ofUnits_units, ← Nat.cast_mul, Int.natAbs_natCast, roundSigned_natCast]; rfl

theorem fmod_ofUnits (a b : Nat) : fmod (ofUnits a) (ofUnits b) = ofUnits (a % b) := by
  unfold fmod; rw [ofUnits_units, ofUnits_units, ← Int.ofNat_tmod]; rfl

@[simp] theorem floor_ofUnits (a : Nat) : (ofUnits a).floor = a / scale := rfl

@[simp] theorem ceil_ofUnits (a : Nat) : (ofUnits a).ceil = (a + (scale - 1)) / scale := rfl

@[simp] theorem lt_ofUnits (a b : Nat) : lt (ofUnits a) (ofUnits b) = decide (a < b) := by simp [lt]

@[simp] theorem eq_ofUnits (a b : Nat) : eq (ofUnits a) (ofUnits b) = decide (a = b) := by simp [eq]

/-! ## Integers below 2^53 compute exactly (00_scope.md R21) -/

theorem add_ofNat {a b : Nat} (h : a + b < 2 ^ 53) : add (ofNat a) (ofNat b) = ofNat (a + b) := by
  rw [ofNat_eq (by omega), ofNat_eq (by omega), ofNat_eq h, add_ofUnits,
    show a * scale + b * scale = (a + b) * scale * 1 by ring, roundUnits_exact one_pos (representable_nat h)]

theorem mul_ofNat {a b : Nat} (ha : a < 2 ^ 53) (hb : b < 2 ^ 53) (h : a * b < 2 ^ 53) :
    mul (ofNat a) (ofNat b) = ofNat (a * b) := by
  rw [ofNat_eq ha, ofNat_eq hb, ofNat_eq h, mul_ofUnits,
    show a * scale * (b * scale) = a * b * scale * scale by ring,
    roundUnits_exact scale_pos (representable_nat h)]

theorem div_ofNat {a b : Nat} (hb0 : 0 < b) (ha : a < 2 ^ 53) (hb : b < 2 ^ 53) (h : a * b < 2 ^ 53) :
    div (ofNat (a * b)) (ofNat b) = ofNat a := by
  rw [ofNat_eq h, ofNat_eq hb, ofNat_eq ha, div_ofUnits,
    show a * b * scale * scale = a * scale * (b * scale) by ring,
    roundUnits_exact (Nat.mul_pos hb0 scale_pos) (representable_nat ha)]

theorem lt_ofNat {a b : Nat} (ha : a < 2 ^ 53) (hb : b < 2 ^ 53) : lt (ofNat a) (ofNat b) = decide (a < b) := by
  rw [ofNat_eq ha, ofNat_eq hb, lt_ofUnits]
  simp [Nat.mul_lt_mul_right scale_pos]

/-! ## Differences, and scaled quotients -/

/-- Rounding sees the quotient alone. -/
theorem roundUnits_mul_right (p q : Nat) {k : Nat} (hk : 0 < k) : roundUnits (p * k) (q * k) = roundUnits p q := by
  unfold roundUnits
  rw [Nat.mul_div_mul_right _ _ hk]
  generalize 2 ^ spareBits (p / q) = d
  congr 1
  unfold divNearestEven
  rw [show q * k * d = q * d * k by ring, Nat.mul_div_mul_right _ _ hk, Nat.mul_mod_mul_right]
  have h1 : 2 * (p % (q * d) * k) < q * d * k ↔ 2 * (p % (q * d)) < q * d := by
    rw [← Nat.mul_assoc]; exact Nat.mul_lt_mul_right hk
  have h2 : 2 * (p % (q * d) * k) = q * d * k ↔ 2 * (p % (q * d)) = q * d := by
    rw [← Nat.mul_assoc]; exact Nat.mul_left_inj (by omega)
  simp only [h1, h2]

/-- The difference of two representable values of which one is at most twice the other is representable. -/
theorem Representable.sub {a b : Nat} (ha : Representable a) (hb : Representable b) (hba : b ≤ a)
    (h : a ≤ 2 * b) : Representable (a - b) := by
  obtain ⟨m, e, hm, rfl⟩ := ha
  obtain ⟨n, f, hn, rfl⟩ := hb
  rcases Nat.le_total e f with hef | hef
  · obtain ⟨d, rfl⟩ := Nat.exists_eq_add_of_le hef
    refine ⟨m - n * 2 ^ d, e, by omega, ?_⟩
    rw [Nat.sub_mul, pow_add]; ring_nf
  · obtain ⟨d, rfl⟩ := Nat.exists_eq_add_of_le hef
    refine ⟨m * 2 ^ d - n, f, ?_, ?_⟩
    · have h1 : m * 2 ^ (f + d) ≤ 2 * n * 2 ^ f := by rw [Nat.mul_assoc]; exact h
      rw [pow_add, show m * (2 ^ f * 2 ^ d) = m * 2 ^ d * 2 ^ f by ring] at h1
      have := Nat.le_of_mul_le_mul_right h1 (Nat.two_pow_pos f)
      omega
    · rw [Nat.sub_mul, pow_add]; ring_nf

/-- `|v − m|` below `m`, rounded. -/
theorem abs_sub_of_lt {m v : F64} (h : v.units < m.units) :
    abs (sub v m) = ofUnits (roundUnits (m.units - v.units).toNat 1) := by
  obtain ⟨k, hk⟩ : ∃ k : Nat, m.units - v.units = k := ⟨(m.units - v.units).toNat, by omega⟩
  have h1 : v.units - m.units = -(k : Int) := by omega
  have h2 : (-(k : Int)).sign = -1 := by rw [Int.sign_neg, Int.sign_eq_one_of_pos]; omega
  simp [sub, roundSigned, abs, ofUnits, h1, hk, h2]

end Sys2Proof.F64
end

