-- ==== Sys2Proof/Laws/Aggregator.lean ====
section
/-! SUPPORT. The BlockAggregator: the size of its grids, the cells of the exact path, and the block indices
of the weighted path (40_block_aggregator.md R130). -/

namespace Sys2Proof.Machine

open F64

/-! ## The axis map -/

/-- The shortest spacing argument of 40_block_aggregator.md R130: for a coordinate below the axis length, the
quotient by the block size lies below `bits` by at least 2^-30. -/
theorem blockSize_units {n bits : Nat} (hn : 0 < n) (hn' : n ≤ 65535) (hb : 2 ≤ bits) (hb' : bits ≤ 254) :
    ∃ z, blockSize n bits = ofUnits z ∧ 0 < z ∧
      ∀ i, i + 1 ≤ n → i * scale * 2 ^ 30 ≤ (bits * 2 ^ 30 - 1) * z := by
  obtain ⟨e, he, hs⟩ := scale_eq
  obtain ⟨k, rfl⟩ : ∃ k, e = k + 36 := ⟨e - 36, by omega⟩
  refine ⟨roundUnits (n * scale * scale) (bits * scale), ?_, ?_, ?_⟩
  · rw [blockSize, ofNat_eq (by omega), ofNat_eq (by omega), div_ofUnits]
  all_goals
    have hfl : n * 2 ^ 36 / bits * 2 ^ k ≤ roundUnits (n * scale * scale) (bits * scale) := by
      refine le_roundUnits (Nat.mul_pos (by omega) scale_pos) (representable_of_lt ?_) ?_
      · refine lt_of_le_of_lt (Nat.div_le_self _ _) ?_
        omega
      · have h1 : n * 2 ^ 36 / bits * bits ≤ n * 2 ^ 36 := Nat.div_mul_le_self _ _
        calc n * 2 ^ 36 / bits * 2 ^ k * (bits * scale)
            = (n * 2 ^ 36 / bits * bits) * (2 ^ k * scale) := by ring
          _ ≤ n * 2 ^ 36 * (2 ^ k * scale) := Nat.mul_le_mul_right _ h1
          _ = n * scale * scale := by rw [hs]; ring
  · refine lt_of_lt_of_le (Nat.mul_pos (Nat.div_pos ?_ (by omega)) (Nat.two_pow_pos k)) hfl
    omega
  · intro i hi
    refine le_trans ?_ (Nat.mul_le_mul_left _ hfl)
    obtain ⟨d, hd⟩ : ∃ d, n * 2 ^ 36 / bits = d := ⟨_, rfl⟩
    have hd1 : n * 2 ^ 36 < bits * (d + 1) := by
      rw [← hd]; exact Nat.lt_mul_div_succ _ (by omega)
    rw [hd]
    have key : i * 2 ^ 36 * 2 ^ 30 ≤ (bits * 2 ^ 30 - 1) * d := by
      obtain ⟨c, hc⟩ : ∃ c, bits * 2 ^ 30 - 1 = c := ⟨_, rfl⟩
      have hc1 : bits * 2 ^ 30 = c + 1 := by omega
      rw [hc]
      have hdn : d ≤ n * 2 ^ 36 := by rw [← hd]; exact Nat.div_le_self _ _
      have hid : (i + 1) * 2 ^ 36 ≤ bits * (d + 1) := by
        refine le_trans (Nat.mul_le_mul_right _ hi) hd1.le
      have hsplit : bits * (d + 1) * 2 ^ 30 = c * d + d + c + 1 := by
        rw [show bits * (d + 1) * 2 ^ 30 = bits * 2 ^ 30 * (d + 1) by ring, hc1]; ring
      generalize bits * (d + 1) = u at hid hsplit
      generalize c * d = v at hsplit ⊢
      norm_num at hid hsplit hdn hc1 ⊢
      linarith
    calc i * scale * 2 ^ 30 = i * 2 ^ 36 * 2 ^ 30 * 2 ^ k := by rw [hs]; ring
      _ ≤ (bits * 2 ^ 30 - 1) * d * 2 ^ k := Nat.mul_le_mul_right _ key
      _ = (bits * 2 ^ 30 - 1) * (d * 2 ^ k) := by ring

/-- A block size in units (40_block_aggregator.md R126). -/
theorem blockSize_eq {n bits : Nat} (hn : n ≤ 65535) (hb : bits ≤ 254) :
    blockSize n bits = ofUnits (roundUnits (n * scale) bits) := by
  rw [blockSize, ofNat_eq (by omega), ofNat_eq (by omega), div_ofUnits, roundUnits_mul_right _ _ scale_pos]

/-- The edge position in units (40_block_aggregator.md R128). -/
theorem edgePos_eq {i z : Nat} (hi : i < 65535) : edgePos i (ofUnits z) = ofUnits ((i + 1) * scale % z) := by
  rw [edgePos, ofNat_eq (by omega), fmod_ofUnits]

/-- The fraction of the edge position is exact (40_block_aggregator.md R128). -/
theorem edgeFrac_eq {i z : Nat} (hi : i < 65535) (hz0 : 0 < z) (hz : Representable z) (hz' : z ≤ 65535 * scale) :
    edgeFrac i (ofUnits z) = ofUnits ((i + 1) * scale % z % scale) := by
  have hml : (i + 1) * scale % z < 65535 * scale := lt_of_lt_of_le (Nat.mod_lt _ hz0) hz'
  have hfl : (i + 1) * scale % z / scale < 65535 := by rw [Nat.div_lt_iff_lt_mul scale_pos]; exact hml
  have hdvd : ∃ e, 2 ^ e ∣ (i + 1) * scale % z ∧ 2 ^ e ∣ scale ∧ (i + 1) * scale % z < 2 ^ e * 2 ^ 53 := by
    obtain ⟨M, e, hM, rfl⟩ := hz
    obtain ⟨E, -, hs⟩ := scale_eq
    rcases Nat.le_total e E with h | h
    · refine ⟨e, (Nat.dvd_mod_iff (Nat.dvd_mul_left _ _)).2 ?_, ?_, ?_⟩
      · rw [hs]; exact Dvd.dvd.mul_left (Nat.pow_dvd_pow _ h) _
      · rw [hs]; exact Nat.pow_dvd_pow _ h
      · refine lt_of_lt_of_le (Nat.mod_lt _ hz0) ?_
        rw [Nat.mul_comm]; exact Nat.mul_le_mul_left _ hM.le
    · refine ⟨E, (Nat.dvd_mod_iff (Dvd.dvd.mul_left (Nat.pow_dvd_pow _ h) _)).2 ?_, ?_, ?_⟩
      · rw [hs]; exact Nat.dvd_mul_left _ _
      · rw [hs]
      · refine lt_trans hml ?_
        rw [hs, Nat.mul_comm]; exact Nat.mul_lt_mul_of_pos_left (by norm_num) (Nat.two_pow_pos _)
  have hrep : Representable ((i + 1) * scale % z % scale) := by
    obtain ⟨e, h1, h2, h3⟩ := hdvd
    obtain ⟨c, hc⟩ := (Nat.dvd_mod_iff h2).2 h1
    refine ⟨c, e, ?_, by rw [hc]; ring⟩
    have h4 := lt_of_le_of_lt (Nat.mod_le _ scale) h3
    rw [hc] at h4
    exact Nat.lt_of_mul_lt_mul_left h4
  rw [edgeFrac, edgePos_eq hi, floor_ofUnits, ofNat_eq (by omega), sub_ofUnits (Nat.div_mul_le_self _ _)]
  have h5 : (i + 1) * scale % z - (i + 1) * scale % z / scale * scale = (i + 1) * scale % z % scale * 1 := by
    have := Nat.div_add_mod' ((i + 1) * scale % z) scale; omega
  rw [h5, roundUnits_exact (by omega) hrep]

/-- An even axis: the block of a coordinate is in the grid (40_block_aggregator.md R127, R130). -/
theorem evenAxis_lt {i n bits : Nat} (hi : i < n) (h : n % bits = 0) :
    i / (n / bits) < bits := by
  have h1 : n / bits * bits = n := Nat.div_mul_cancel (Nat.dvd_of_mod_eq_zero h)
  have h2 : 0 < n / bits := by
    rcases Nat.eq_zero_or_pos (n / bits) with h0 | h0
    · rw [h0] at h1; omega
    · exact h0
  rw [Nat.div_lt_iff_lt_mul h2, Nat.mul_comm, h1]
  exact hi

/-- The lower index of an uneven axis is in the grid (40_block_aggregator.md R130). -/
theorem floor_quotient_lt {i n bits : Nat} (hi : i < n) (hn' : n ≤ 65535) (hb : 2 ≤ bits) (hb' : bits ≤ 254) :
    (F64.div (F64.ofNat i) (blockSize n bits)).floor < bits := by
  obtain ⟨z, hz, hz0, hle⟩ := blockSize_units (by omega) hn' hb hb'
  obtain ⟨e, he, hs⟩ := scale_eq
  obtain ⟨k, rfl⟩ : ∃ k, e = k + 30 := ⟨e - 30, by omega⟩
  rw [hz, ofNat_eq (by omega), div_ofUnits, floor_ofUnits, Nat.div_lt_iff_lt_mul scale_pos]
  have h1 : roundUnits (i * scale * scale) z ≤ (bits * 2 ^ 30 - 1) * 2 ^ k := by
    refine roundUnits_le hz0 (representable_of_lt (by omega)) ?_
    calc i * scale * scale = i * scale * 2 ^ 30 * 2 ^ k := by rw [hs]; ring
      _ ≤ (bits * 2 ^ 30 - 1) * z * 2 ^ k := Nat.mul_le_mul_right _ (hle i hi)
      _ = (bits * 2 ^ 30 - 1) * 2 ^ k * z := by ring
  refine lt_of_le_of_lt h1 ?_
  calc (bits * 2 ^ 30 - 1) * 2 ^ k < bits * 2 ^ 30 * 2 ^ k :=
        Nat.mul_lt_mul_of_pos_right (by omega) (Nat.two_pow_pos k)
    _ = bits * scale := by rw [hs]; ring

/-- If a pixel is split, a block boundary lies strictly inside it (40_block_aggregator.md R129). -/
theorem edge_lt_of_split {i n : Nat} {z : Nat} (hi : i < n) (hn' : n ≤ 65535)
    (h : notSplit i n (ofUnits z) = false) :
    i + 1 ≠ n ∧ 0 < (i + 1) * scale % z ∧ (i + 1) * scale % z < scale := by
  have hpos : edgePos i (ofUnits z) = ofUnits ((i + 1) * scale % z) := by
    rw [edgePos, ofNat_eq (by omega), fmod_ofUnits]
  simp only [notSplit, Bool.or_eq_false_iff, beq_eq_false_iff_ne] at h
  obtain ⟨⟨h1, h2⟩, h3⟩ := h
  refine ⟨h2, ?_, ?_⟩
  · rw [hpos, zero_eq, eq_ofUnits] at h3
    have := of_decide_eq_false h3
    omega
  · by_contra hge
    rw [edgeWhole, edgeFrac, hpos] at h1
    generalize hm : (i + 1) * scale % z = m at *
    have hmlt : m / scale < 2 ^ 53 := by
      have : m ≤ (i + 1) * scale := by rw [← hm]; exact Nat.mod_le _ _
      have : m / scale ≤ i + 1 := Nat.div_le_of_le_mul (by rwa [Nat.mul_comm])
      omega
    have hfl : m / scale * scale ≤ m := Nat.div_mul_le_self _ _
    rw [floor_ofUnits, ofNat_eq hmlt, sub_ofUnits hfl] at h1
    have hfrac : roundUnits (m - m / scale * scale) 1 ≤ scale := by
      have := Nat.mod_lt m scale_pos
      have hdm := Nat.div_add_mod m scale
      rw [Nat.mul_comm] at hdm
      refine roundUnits_le one_pos ?_ (by omega)
      have := representable_nat (n := 1) (by norm_num)
      rwa [Nat.one_mul] at this
    have hltm : roundUnits (m - m / scale * scale) 1 < m := by
      rcases Nat.lt_or_ge scale m with hsm | hsm
      · omega
      · have hms : m = scale := by omega
        rw [hms, Nat.div_self scale_pos, Nat.one_mul, Nat.sub_self, roundUnits_zero]
        exact scale_pos
    rw [sub_ofUnits hltm.le, zero_eq, lt_ofUnits] at h1
    have h4 := of_decide_eq_false h1
    have h5 : 1 ≤ roundUnits (m - roundUnits (m - m / scale * scale) 1) 1 :=
      le_roundUnits one_pos representable_unit (by omega)
    omega

/-- Under 40_block_aggregator.md R126 to R129 every block index lies in the grid (R130). -/
theorem axisMap_lt {i n bits : Nat} (hi : i < n) (hn' : n ≤ 65535) (hb : 2 ≤ bits) (hb' : bits ≤ 254) :
    (axisMap i n bits).lo < bits ∧ (axisMap i n bits).hi < bits := by
  unfold axisMap
  split_ifs with h
  · exact ⟨evenAxis_lt hi h, evenAxis_lt hi h⟩
  · have hlo := floor_quotient_lt hi hn' hb hb'
    refine ⟨hlo, ?_⟩
    simp only [unevenAxis]
    split_ifs with hsplit
    · exact hlo
    · obtain ⟨z, hz, hz0, hle⟩ := blockSize_units (by omega) hn' hb hb'
      rw [hz] at hsplit ⊢
      obtain ⟨h1, h2, h3⟩ := edge_lt_of_split hi hn' (by simpa using hsplit)
      have hdm := Nat.div_add_mod ((i + 1) * scale) z
      generalize hq : (i + 1) * scale / z = q at hdm
      have hqb : q < bits := by
        have h4 := hle (i + 1) (by omega)
        have h5 : q * z < (i + 1) * scale := by rw [Nat.mul_comm]; omega
        have h6 : q * 2 ^ 30 * z < (bits * 2 ^ 30 - 1) * z :=
          calc q * 2 ^ 30 * z = q * z * 2 ^ 30 := by ring
            _ < (i + 1) * scale * 2 ^ 30 := Nat.mul_lt_mul_of_pos_right h5 (by norm_num)
            _ ≤ _ := h4
        have h7 := Nat.lt_of_mul_lt_mul_right h6
        omega
      rw [ofNat_eq (by omega), div_ofUnits, ceil_ofUnits]
      have hr : roundUnits (i * scale * scale) z ≤ q * scale := by
        refine roundUnits_le hz0 (representable_nat (by omega)) ?_
        have : i * scale ≤ q * z := by
          have : (i + 1) * scale = i * scale + scale := by ring
          rw [Nat.mul_comm q z]; omega
        calc i * scale * scale ≤ q * z * scale := Nat.mul_le_mul_right _ this
          _ = q * scale * z := by ring
      have hc : (roundUnits (i * scale * scale) z + (scale - 1)) / scale ≤ q := by
        have := scale_pos
        rw [← Nat.lt_succ_iff, Nat.div_lt_iff_lt_mul scale_pos]
        have : q.succ * scale = q * scale + scale := by rw [Nat.succ_mul]
        omega
      omega

/-- INDEX_RANGE is never raised (40_block_aggregator.md R130). -/
theorem indicesInRange_of_legal {w h bits x y : Nat} (hx : x < w) (hy : y < h) (hw : w ≤ 65535)
    (hh : h ≤ 65535) (hb : 2 ≤ bits) (hb' : bits ≤ 254) : indicesInRange w h bits x y = true := by
  have h1 := axisMap_lt hy hh hb hb'
  have h2 := axisMap_lt hx hw hb hb'
  simp [indicesInRange, h1, h2]

/-! ## Pixels and grids -/

theorem mem_raster {w h x y : Nat} : (x, y) ∈ raster w h ↔ x < w ∧ y < h := by
  simp [raster, and_comm]

theorem range_split {k n : Nat} (h : k < n) : ∃ post, List.range n = List.range k ++ k :: post := by
  obtain ⟨d, rfl⟩ : ∃ d, n = k + 1 + d := ⟨n - (k + 1), by omega⟩
  exact ⟨(List.range d).map (k + 1 + ·), by rw [List.range_add, List.range_succ, List.append_assoc]; rfl⟩

/-- The pixels before (x, y) in raster order (20_memory.md R80). -/
theorem raster_split {w h x y : Nat} (hx : x < w) (hy : y < h) :
    ∃ pre post, raster w h = pre ++ (x, y) :: post ∧
      ∀ p ∈ pre, p.1 < w ∧ p.2 < h ∧ (p.2 < y ∨ (p.2 = y ∧ p.1 < x)) := by
  obtain ⟨rows, hrows⟩ := range_split hy
  obtain ⟨cols, hcols⟩ := range_split hx
  refine ⟨raster w y ++ (List.range x).map (fun x => (x, y)), cols.map (fun x => (x, y)) ++
    rows.flatMap (fun y => (List.range w).map fun x => (x, y)), ?_, ?_⟩
  · simp only [raster, hrows, List.flatMap_append, List.flatMap_cons, List.append_assoc]
    conv_lhs => rw [show (List.range w).map (fun x => (x, y)) =
      (List.range x ++ x :: cols).map (fun x => (x, y)) by rw [← hcols]]
    simp
  · rintro ⟨x', y'⟩ hp
    rcases List.mem_append.mp hp with hp | hp
    · obtain ⟨h1, h2⟩ := mem_raster.mp hp
      exact ⟨h1, h2.trans hy, .inl h2⟩
    · simp only [List.mem_map, List.mem_range, Prod.mk.injEq] at hp
      obtain ⟨a, ha, rfl, rfl⟩ := hp
      exact ⟨ha.trans hx, hy, .inr ⟨rfl, ha⟩⟩

/-- The pixels a path reads lie in the image. -/
theorem mem_pixelsOf {path : AggPath} {w h bits x y : Nat} (hp : (x, y) ∈ pixelsOf path w h bits) :
    x < w ∧ y < h := by
  cases path with
  | exact =>
    obtain ⟨h1, h2⟩ := mem_raster.mp hp
    exact ⟨h1.trans_le (Nat.mul_div_le w bits), h2.trans_le (Nat.mul_div_le h bits)⟩
  | weighted => exact mem_raster.mp hp

@[simp] theorem addCell_length (bits row col : Nat) (v : F64) (g : List F64) :
    (addCell bits row col v g).length = g.length := by simp [addCell]

@[simp] theorem contribute_length (bits v : Nat) (row col : AxisEntry) (g : List F64) :
    (contribute bits v row col g).length = g.length := by simp [contribute]

theorem foldl_contribute_length (ps : List (Nat × Nat)) (w h bits : Nat) (pix : Nat → Nat → Nat)
    (g : List F64) :
    (ps.foldl (fun grid p => contribute bits (pix p.1 p.2) (axisMap p.2 h bits) (axisMap p.1 w bits) grid)
      g).length = g.length := by
  induction ps generalizing g with
  | nil => rfl
  | cons p ps ih => rw [List.foldl_cons, ih, contribute_length]

/-- The BlockGrid has bits*bits cells (10_state.md R59). -/
theorem aggregate_grid_length (path : AggPath) (w h bits : Nat) (pix : Nat → Nat → Nat) :
    (aggregate path w h bits pix).grid.length = bits * bits := by
  cases path with
  | exact => simp [aggregate, exactAggregate]
  | weighted => simp [aggregate, weightedAggregate, foldl_contribute_length]

/-! ## Even axes -/

/-- The shares of a pixel on two even axes: all of it to one cell, nothing to the other three. -/
theorem share_even {v : Nat} (hv : v < 2 ^ 53) :
    share v F64.one F64.one = F64.ofNat v ∧ share v F64.one F64.zero = F64.zero ∧
    share v F64.zero F64.one = F64.zero ∧ share v F64.zero F64.zero = F64.zero := by
  have h1 : F64.mul (F64.ofNat v) (F64.ofNat 1) = F64.ofNat v := by
    rw [mul_ofNat hv (by norm_num) (by omega), Nat.mul_one]
  have h0 {n : Nat} (hn : n < 2 ^ 53) : F64.mul (F64.ofNat n) (F64.ofNat 0) = F64.ofNat 0 := by
    rw [mul_ofNat hn (by norm_num) (by omega), Nat.mul_zero]
  have h01 : F64.mul (F64.ofNat 0) (F64.ofNat 1) = F64.ofNat 0 := by
    rw [mul_ofNat (by norm_num) (by norm_num) (by omega)]
  simp only [share, F64.one, F64.zero, h1, h0 hv, h0 (show 0 < 2 ^ 53 by norm_num), h01, and_self]

/-- Adding an integer value into a grid of integer values. -/
theorem addCell_ofNat (bits row col v : Nat) (g : List Nat) (h : ∀ n ∈ g, n + v < 2 ^ 53) :
    addCell bits row col (F64.ofNat v) (g.map F64.ofNat) =
      (g.modify (row * bits + col) (· + v)).map F64.ofNat := by
  apply List.ext_getElem
  · simp [addCell]
  · intro i h1 h2
    simp only [addCell, List.getElem_modify, List.getElem_map]
    split_ifs with hi
    · exact add_ofNat (h _ (List.getElem_mem _))
    · rfl

theorem addCell_zero (bits row col : Nat) (g : List Nat) (h : ∀ n ∈ g, n < 2 ^ 53) :
    addCell bits row col F64.zero (g.map F64.ofNat) = g.map F64.ofNat := by
  rw [F64.zero, addCell_ofNat _ _ _ _ _ (by simpa using h)]
  congr 1
  apply List.ext_getElem
  · simp
  · intro i h1 h2; simp [List.getElem_modify]

/-- On two even axes a pixel adds its intensity to one cell (40_block_aggregator.md R135). -/
theorem contribute_even (bits v q r : Nat) (g : List Nat) (h : ∀ n ∈ g, n + v < 2 ^ 53) (hv : v < 2 ^ 53) :
    contribute bits v ⟨q, q, F64.one, F64.zero⟩ ⟨r, r, F64.one, F64.zero⟩ (g.map F64.ofNat) =
      (g.modify (q * bits + r) (· + v)).map F64.ofNat := by
  obtain ⟨h1, h2, h3, h4⟩ := share_even hv
  have hlt : ∀ n ∈ g.modify (q * bits + r) (· + v), n < 2 ^ 53 := by
    intro n hn
    obtain ⟨i, hi, rfl⟩ := List.getElem_of_mem hn
    rw [List.getElem_modify]
    split_ifs
    · exact h _ (List.getElem_mem _)
    · have := h _ (List.getElem_mem (l := g) (by simpa using hi)); omega
  simp only [contribute, h1, h2, h3, h4]
  rw [addCell_ofNat _ _ _ _ _ h, addCell_zero _ _ _ _ hlt, addCell_zero _ _ _ _ hlt, addCell_zero _ _ _ _ hlt]

/-- The block size of an even axis is the integer quotient (40_block_aggregator.md R135). -/
theorem blockSize_even {n bits : Nat} (hn : 0 < n) (hn' : n ≤ 65535) (h : bits ∣ n) :
    blockSize n bits = F64.ofNat (n / bits) := by
  obtain ⟨k, rfl⟩ := h
  have hb : 0 < bits := by rcases Nat.eq_zero_or_pos bits with rfl | h; simp at hn; exact h
  have hk : 0 < k := by rcases Nat.eq_zero_or_pos k with rfl | h; simp at hn; exact h
  have h1 : bits ≤ bits * k := Nat.le_mul_of_pos_right _ hk
  have h2 : k ≤ bits * k := Nat.le_mul_of_pos_left _ hb
  rw [blockSize, Nat.mul_div_cancel_left _ hb, Nat.mul_comm bits k, div_ofNat hb (by omega) (by omega) (by rw [Nat.mul_comm]; omega)]
/-! ## Cells of the weighted path -/

/-- Additions into the cells of a grid, cell by cell. -/
theorem getElem?_foldl_modify (l : List (Nat × F64)) (g : List F64) (j : Nat) :
    (l.foldl (fun g p => g.modify p.1 (fun c => F64.add c p.2)) g)[j]? =
      g[j]?.map (fun z => (l.filter (fun p => p.1 = j)).foldl (fun c p => F64.add c p.2) z) := by
  induction l generalizing g with
  | nil => simp
  | cons p l ih =>
    simp only [List.foldl_cons, ih, List.getElem?_modify, List.filter_cons]
    by_cases hp : p.1 = j <;> simp [hp, Function.comp_def]

end Sys2Proof.Machine
end

