-- ==== Sys2Proof/Laws/Memory.lean ====
section
/-! SUPPORT. Memory: read after write, the canonical form, and what a sequence of byte writes does. -/

namespace Sys2Proof.Machine.Memory

@[simp] theorem read_nil (a : Nat) : read [] a = blank := rfl

theorem read_cons (b : Nat) (u : Byte) (m : Memory) (a : Nat) :
    read ((b, u) :: m) a = if a = b then u else read m a := rfl

theorem wfFrom_cons {lo a : Nat} {v : Byte} {m : Memory} :
    wfFrom lo ((a, v) :: m) = true ↔ lo ≤ a ∧ a < 2 ^ 32 ∧ v ≠ blank ∧ wfFrom (a + 1) m = true := by
  simp [wfFrom, and_assoc]

theorem wfFrom_mono {lo lo' : Nat} {m : Memory} (h : lo' ≤ lo) (hm : wfFrom lo m = true) :
    wfFrom lo' m = true := by
  cases m with
  | nil => rfl
  | cons c m => obtain ⟨a, v⟩ := c; rw [wfFrom_cons] at *; exact ⟨by omega, hm.2⟩

/-- Below the lowest listed address everything reads blank. -/
theorem read_of_lt {lo a : Nat} {m : Memory} (hm : wfFrom lo m = true) (h : a < lo) : read m a = blank := by
  induction m generalizing lo with
  | nil => rfl
  | cons c m ih =>
    obtain ⟨b, u⟩ := c
    rw [wfFrom_cons] at hm
    rw [read_cons, if_neg (by omega)]
    exact ih hm.2.2.2 (by omega)

theorem read_write_same {lo a : Nat} {m : Memory} (v : Byte) (hm : wfFrom lo m = true) :
    read (write m a v) a = v := by
  induction m generalizing lo with
  | nil => by_cases hv : v = blank <;> simp [write, hv, read]
  | cons c m ih =>
    obtain ⟨b, u⟩ := c
    rw [wfFrom_cons] at hm
    unfold write
    by_cases h1 : a < b
    · by_cases hv : v = blank
      · simp only [h1, hv, if_true, read_cons, if_neg (Nat.ne_of_lt h1)]
        exact read_of_lt hm.2.2.2 (by omega)
      · simp [h1, hv, read_cons]
    · by_cases h2 : a = b
      · subst h2
        by_cases hv : v = blank
        · simp only [h1, hv, if_true, if_false]
          exact read_of_lt hm.2.2.2 (by omega)
        · simp [hv, read_cons]
      · simp only [h1, h2, if_false, read_cons]
        exact ih hm.2.2.2

theorem read_write_other {m : Memory} {a b : Nat} (v : Byte) (h : b ≠ a) : read (write m a v) b = read m b := by
  induction m with
  | nil => by_cases hv : v = blank <;> simp [write, hv, read, h]
  | cons c m ih =>
    obtain ⟨d, u⟩ := c
    unfold write
    split_ifs with h1 h2 h3 h4
    · rfl
    · simp [read_cons, h]
    · subst h3; simp [read_cons, h]
    · subst h3; simp [read_cons, h]
    · simp [read_cons, ih]

theorem wfFrom_write {lo a : Nat} {m : Memory} (v : Byte) (hm : wfFrom lo m = true) (hlo : lo ≤ a)
    (ha : a < 2 ^ 32) : wfFrom lo (write m a v) = true := by
  induction m generalizing lo with
  | nil =>
    by_cases hv : v = blank
    · simp [write, hv, wfFrom]
    · simp only [write, hv, if_false]
      rw [wfFrom_cons]
      exact ⟨hlo, ha, hv, rfl⟩
  | cons c m ih =>
    obtain ⟨b, u⟩ := c
    have hm' := hm
    rw [wfFrom_cons] at hm
    unfold write
    split_ifs with h1 h2 h3 h4
    · exact hm'
    · rw [wfFrom_cons, wfFrom_cons]
      exact ⟨hlo, ha, h2, by omega, hm.2.1, hm.2.2.1, hm.2.2.2⟩
    · subst h3; exact wfFrom_mono (by omega) hm.2.2.2
    · subst h3; rw [wfFrom_cons]; exact ⟨hlo, ha, h4, hm.2.2.2⟩
    · rw [wfFrom_cons]; exact ⟨hm.1, hm.2.1, hm.2.2.1, ih hm.2.2.2 (by omega)⟩

/-- Every write keeps the canonical form. -/
theorem wf_write {m : Memory} (hm : wf m = true) (a : Word) (v : Byte) : wf (write m a.toNat v) = true :=
  wfFrom_write v hm (Nat.zero_le _) a.isLt

theorem read_write {m : Memory} (hm : wf m = true) (a b : Nat) (v : Byte) :
    read (write m a v) b = if b = a then v else read m b := by
  split_ifs with h
  · subst h; exact read_write_same v hm
  · exact read_write_other v h

/-- Equal memories are equal lists: canonical memories that read alike are the same. -/
theorem ext_of_read {lo : Nat} {m m' : Memory} (hm : wfFrom lo m = true) (hm' : wfFrom lo m' = true)
    (h : ∀ a, read m a = read m' a) : m = m' := by
  induction m generalizing lo m' with
  | nil =>
    cases m' with
    | nil => rfl
    | cons c m' =>
      obtain ⟨b, u⟩ := c
      rw [wfFrom_cons] at hm'
      have := h b
      simp [read_cons] at this
      exact absurd this.symm hm'.2.2.1
  | cons c m ih =>
    obtain ⟨b, u⟩ := c
    rw [wfFrom_cons] at hm
    cases m' with
    | nil =>
      have := h b
      simp [read_cons] at this
      exact absurd this hm.2.2.1
    | cons c' m' =>
      obtain ⟨d, w⟩ := c'
      rw [wfFrom_cons] at hm'
      have hbd : b = d := by
        rcases Nat.lt_trichotomy b d with hlt | heq | hgt
        · have := h b
          rw [read_cons, if_pos rfl, read_cons, if_neg (by omega),
            read_of_lt hm'.2.2.2 (by omega)] at this
          exact absurd this hm.2.2.1
        · exact heq
        · have := h d
          rw [read_cons, if_neg (by omega), read_of_lt hm.2.2.2 (by omega), read_cons, if_pos rfl] at this
          exact absurd this.symm hm'.2.2.1
      subst hbd
      have huw : u = w := by simpa [read_cons] using h b
      subst huw
      congr 1
      refine ih hm.2.2.2 hm'.2.2.2 fun a => ?_
      by_cases hab : a = b
      · subst hab
        rw [read_of_lt hm.2.2.2 (by omega), read_of_lt hm'.2.2.2 (by omega)]
      · have := h a
        simpa [read_cons, hab] using this

end Sys2Proof.Machine.Memory

namespace Sys2Proof.Machine

/-! ## A sequence of byte writes -/

/-- Writing keeps the canonical form. -/
theorem storeAll_wf (keep : Nat → Word → Bool) (j : Nat) (ws : List (Word × Byte)) {m : Memory}
    (hm : m.wf = true) : (storeAll keep j ws m).wf = true := by
  induction ws generalizing j m with
  | nil => exact hm
  | cons p rest ih =>
    obtain ⟨a, v⟩ := p
    refine ih (j + 1) ?_
    split_ifs
    · exact hm
    · exact Memory.wf_write hm a v

/-- A byte no write goes to is unchanged. -/
theorem storeAll_read_other (keep : Nat → Word → Bool) (j : Nat) (ws : List (Word × Byte)) (m : Memory)
    (b : Nat) (hb : ∀ p ∈ ws, p.1.toNat ≠ b) : (storeAll keep j ws m).read b = m.read b := by
  induction ws generalizing j m with
  | nil => rfl
  | cons p rest ih =>
    obtain ⟨a, v⟩ := p
    unfold storeAll
    rw [ih (j + 1) _ fun p hp => hb p (List.mem_cons_of_mem _ hp)]
    split_ifs
    · rfl
    · exact Memory.read_write_other v (fun h => hb (a, v) List.mem_cons_self h.symm)

/-- A byte ends with what it held, or with what one of the writes puts there. -/
theorem storeAll_read_cases (keep : Nat → Word → Bool) (j : Nat) (ws : List (Word × Byte)) {m : Memory}
    (hm : m.wf = true) (b : Nat) :
    (storeAll keep j ws m).read b = m.read b ∨
      ∃ p ∈ ws, p.1.toNat = b ∧ (storeAll keep j ws m).read b = p.2 := by
  induction ws generalizing j m with
  | nil => exact .inl rfl
  | cons p rest ih =>
    obtain ⟨a, v⟩ := p
    unfold storeAll
    by_cases hk : keep j a = true
    · rw [if_pos hk]
      rcases ih (j + 1) hm with h | ⟨p, hp, h1, h2⟩
      · exact .inl h
      · exact .inr ⟨p, List.mem_cons_of_mem _ hp, h1, h2⟩
    · rw [if_neg hk]
      rcases ih (j + 1) (Memory.wf_write hm a v) with h | ⟨p, hp, h1, h2⟩
      · by_cases hab : b = a.toNat
        · subst hab
          refine .inr ⟨(a, v), List.mem_cons_self, rfl, ?_⟩
          rw [h, Memory.read_write_same v hm]
        · exact .inl (by rw [h, Memory.read_write_other v hab])
      · exact .inr ⟨p, List.mem_cons_of_mem _ hp, h1, h2⟩

/-- The addresses distinct, a write whose address keeps no byte is in memory afterwards. -/
theorem storeAll_read_mem {keep : Nat → Word → Bool} (j : Nat) {ws : List (Word × Byte)}
    (hd : (ws.map Prod.fst).Nodup) {m : Memory} (hm : m.wf = true) {p : Word × Byte} (hp : p ∈ ws)
    (hk : ∀ j, keep j p.1 = false) : (storeAll keep j ws m).read p.1.toNat = p.2 := by
  induction ws generalizing j m with
  | nil => simp at hp
  | cons q rest ih =>
    obtain ⟨a, v⟩ := q
    simp only [List.map_cons, List.nodup_cons] at hd
    unfold storeAll
    rcases List.mem_cons.mp hp with rfl | hp
    · rw [storeAll_read_other, if_neg (by simp [hk])]
      · exact Memory.read_write_same _ hm
      · intro p hp h
        apply hd.1
        rw [List.mem_map]
        exact ⟨p, hp, BitVec.eq_of_toNat_eq h⟩
    · refine ih (j + 1) hd.2 ?_ hp
      split_ifs
      · exact hm
      · exact Memory.wf_write hm a v

/-- The addresses distinct, the byte of a write's address ends as the write's byte or as it was. -/
theorem storeAll_read_or (keep : Nat → Word → Bool) (j : Nat) {ws : List (Word × Byte)}
    (hd : (ws.map Prod.fst).Nodup) {m : Memory} (hm : m.wf = true) {p : Word × Byte} (hp : p ∈ ws) :
    (storeAll keep j ws m).read p.1.toNat = p.2 ∨
      (storeAll keep j ws m).read p.1.toNat = m.read p.1.toNat := by
  rcases storeAll_read_cases keep j ws hm p.1.toNat with h | ⟨q, hq, hqa, h⟩
  · exact .inr h
  · have : q = p := List.inj_on_of_nodup_map hd hq hp (BitVec.eq_of_toNat_eq hqa)
    exact .inl (this ▸ h)

end Sys2Proof.Machine
end

