-- ==== Sys2Proof/Laws/State.lean ====
section
/-! SUPPORT. What each update of the state does to each field, by rfl, for simp: no later proof unfolds a
record update. -/

namespace Sys2Proof.Machine.State

/-! ## accept -/

section
variable (s : State) (op : RunOp)

@[simp] theorem accept_cfg : (s.accept op).cfg = s.cfg := rfl
@[simp] theorem accept_irqEn : (s.accept op).irqEn = s.irqEn := rfl
@[simp] theorem accept_done : (s.accept op).done = false := rfl
@[simp] theorem accept_cmdOvr : (s.accept op).cmdOvr = s.cmdOvr := rfl
@[simp] theorem accept_errCode : (s.accept op).errCode = .none := rfl
@[simp] theorem accept_errDetail : (s.accept op).errDetail = 0 := rfl
@[simp] theorem accept_errAddr : (s.accept op).errAddr = 0 := rfl
@[simp] theorem accept_bits : (s.accept op).bits = s.bits := rfl
@[simp] theorem accept_width : (s.accept op).width = s.width := rfl
@[simp] theorem accept_height : (s.accept op).height = s.height := rfl
@[simp] theorem accept_srcBase : (s.accept op).srcBase = s.srcBase := rfl
@[simp] theorem accept_dstBase : (s.accept op).dstBase = s.dstBase := rfl
@[simp] theorem accept_aBase : (s.accept op).aBase = s.aBase := rfl
@[simp] theorem accept_aLen : (s.accept op).aLen = s.aLen := rfl
@[simp] theorem accept_bBase : (s.accept op).bBase = s.bBase := rfl
@[simp] theorem accept_bLen : (s.accept op).bLen = s.bLen := rfl
@[simp] theorem accept_dist : (s.accept op).dist = s.dist := rfl
@[simp] theorem accept_infoPath : (s.accept op).infoPath = s.infoPath := rfl
@[simp] theorem accept_infoValid : (s.accept op).infoValid = s.infoValid := rfl
@[simp] theorem accept_phase : (s.accept op).phase = .run op [] := rfl
@[simp] theorem accept_mem : (s.accept op).mem = s.mem := rfl
@[simp] theorem accept_inputs : (s.accept op).inputs = s.inputs := rfl
@[simp] theorem accept_busData : (s.accept op).busData = s.busData := rfl
@[simp] theorem accept_freeCtr : (s.accept op).freeCtr = s.freeCtr := rfl
@[simp] theorem accept_unseen : (s.accept op).unseen = s.unseen.settleRecord := rfl

end

/-! ## overrun -/

section
variable (s : State) 

@[simp] theorem overrun_cfg : (s.overrun).cfg = s.cfg := rfl
@[simp] theorem overrun_irqEn : (s.overrun).irqEn = s.irqEn := rfl
@[simp] theorem overrun_done : (s.overrun).done = s.done := rfl
@[simp] theorem overrun_cmdOvr : (s.overrun).cmdOvr = true := rfl
@[simp] theorem overrun_errCode : (s.overrun).errCode = s.errCode := rfl
@[simp] theorem overrun_errDetail : (s.overrun).errDetail = s.errDetail := rfl
@[simp] theorem overrun_errAddr : (s.overrun).errAddr = s.errAddr := rfl
@[simp] theorem overrun_bits : (s.overrun).bits = s.bits := rfl
@[simp] theorem overrun_width : (s.overrun).width = s.width := rfl
@[simp] theorem overrun_height : (s.overrun).height = s.height := rfl
@[simp] theorem overrun_srcBase : (s.overrun).srcBase = s.srcBase := rfl
@[simp] theorem overrun_dstBase : (s.overrun).dstBase = s.dstBase := rfl
@[simp] theorem overrun_aBase : (s.overrun).aBase = s.aBase := rfl
@[simp] theorem overrun_aLen : (s.overrun).aLen = s.aLen := rfl
@[simp] theorem overrun_bBase : (s.overrun).bBase = s.bBase := rfl
@[simp] theorem overrun_bLen : (s.overrun).bLen = s.bLen := rfl
@[simp] theorem overrun_dist : (s.overrun).dist = s.dist := rfl
@[simp] theorem overrun_infoPath : (s.overrun).infoPath = s.infoPath := rfl
@[simp] theorem overrun_infoValid : (s.overrun).infoValid = s.infoValid := rfl
@[simp] theorem overrun_phase : (s.overrun).phase = s.phase := rfl
@[simp] theorem overrun_mem : (s.overrun).mem = s.mem := rfl
@[simp] theorem overrun_inputs : (s.overrun).inputs = s.inputs := rfl
@[simp] theorem overrun_busData : (s.overrun).busData = s.busData := rfl
@[simp] theorem overrun_freeCtr : (s.overrun).freeCtr = s.freeCtr := rfl
@[simp] theorem overrun_unseen : (s.overrun).unseen = s.unseen := rfl

end

/-! ## raise -/

section
variable (s : State) (e : CmdError)

@[simp] theorem raise_cfg : (s.raise e).cfg = s.cfg := rfl
@[simp] theorem raise_irqEn : (s.raise e).irqEn = s.irqEn := rfl
@[simp] theorem raise_done : (s.raise e).done = true := rfl
@[simp] theorem raise_cmdOvr : (s.raise e).cmdOvr = s.cmdOvr := rfl
@[simp] theorem raise_errCode : (s.raise e).errCode = e.code := rfl
@[simp] theorem raise_errDetail : (s.raise e).errDetail = e.detail := rfl
@[simp] theorem raise_errAddr : (s.raise e).errAddr = e.addr := rfl
@[simp] theorem raise_bits : (s.raise e).bits = s.bits := rfl
@[simp] theorem raise_width : (s.raise e).width = s.width := rfl
@[simp] theorem raise_height : (s.raise e).height = s.height := rfl
@[simp] theorem raise_srcBase : (s.raise e).srcBase = s.srcBase := rfl
@[simp] theorem raise_dstBase : (s.raise e).dstBase = s.dstBase := rfl
@[simp] theorem raise_aBase : (s.raise e).aBase = s.aBase := rfl
@[simp] theorem raise_aLen : (s.raise e).aLen = s.aLen := rfl
@[simp] theorem raise_bBase : (s.raise e).bBase = s.bBase := rfl
@[simp] theorem raise_bLen : (s.raise e).bLen = s.bLen := rfl
@[simp] theorem raise_dist : (s.raise e).dist = s.dist := rfl
@[simp] theorem raise_infoPath : (s.raise e).infoPath = (!s.runsHash && s.infoPath) := rfl
@[simp] theorem raise_infoValid : (s.raise e).infoValid = (!s.runsHash && s.infoValid) := rfl
@[simp] theorem raise_phase : (s.raise e).phase = .idle := rfl
@[simp] theorem raise_mem : (s.raise e).mem = s.mem := rfl
@[simp] theorem raise_inputs : (s.raise e).inputs = s.inputs := rfl
@[simp] theorem raise_busData : (s.raise e).busData = s.busData := rfl
@[simp] theorem raise_freeCtr : (s.raise e).freeCtr = s.freeCtr := rfl
@[simp] theorem raise_unseen : (s.raise e).unseen = s.unseen := rfl

end

/-! ## clearRecord -/

section
variable (s : State) 

@[simp] theorem clearRecord_cfg : (s.clearRecord).cfg = s.cfg := rfl
@[simp] theorem clearRecord_irqEn : (s.clearRecord).irqEn = s.irqEn := rfl
@[simp] theorem clearRecord_done : (s.clearRecord).done = false := rfl
@[simp] theorem clearRecord_cmdOvr : (s.clearRecord).cmdOvr = false := rfl
@[simp] theorem clearRecord_errCode : (s.clearRecord).errCode = .none := rfl
@[simp] theorem clearRecord_errDetail : (s.clearRecord).errDetail = 0 := rfl
@[simp] theorem clearRecord_errAddr : (s.clearRecord).errAddr = 0 := rfl
@[simp] theorem clearRecord_bits : (s.clearRecord).bits = s.bits := rfl
@[simp] theorem clearRecord_width : (s.clearRecord).width = s.width := rfl
@[simp] theorem clearRecord_height : (s.clearRecord).height = s.height := rfl
@[simp] theorem clearRecord_srcBase : (s.clearRecord).srcBase = s.srcBase := rfl
@[simp] theorem clearRecord_dstBase : (s.clearRecord).dstBase = s.dstBase := rfl
@[simp] theorem clearRecord_aBase : (s.clearRecord).aBase = s.aBase := rfl
@[simp] theorem clearRecord_aLen : (s.clearRecord).aLen = s.aLen := rfl
@[simp] theorem clearRecord_bBase : (s.clearRecord).bBase = s.bBase := rfl
@[simp] theorem clearRecord_bLen : (s.clearRecord).bLen = s.bLen := rfl
@[simp] theorem clearRecord_dist : (s.clearRecord).dist = s.dist := rfl
@[simp] theorem clearRecord_infoPath : (s.clearRecord).infoPath = s.infoPath := rfl
@[simp] theorem clearRecord_infoValid : (s.clearRecord).infoValid = s.infoValid := rfl
@[simp] theorem clearRecord_phase : (s.clearRecord).phase = s.phase := rfl
@[simp] theorem clearRecord_mem : (s.clearRecord).mem = s.mem := rfl
@[simp] theorem clearRecord_inputs : (s.clearRecord).inputs = s.inputs := rfl
@[simp] theorem clearRecord_busData : (s.clearRecord).busData = s.busData := rfl
@[simp] theorem clearRecord_freeCtr : (s.clearRecord).freeCtr = s.freeCtr := rfl
@[simp] theorem clearRecord_unseen : (s.clearRecord).unseen = s.unseen.settleRecord := rfl

end

/-! ## writeStatus -/

section
variable (s : State) (v : Word)

@[simp] theorem writeStatus_cfg : (s.writeStatus v).cfg = s.cfg := rfl
@[simp] theorem writeStatus_irqEn : (s.writeStatus v).irqEn = s.irqEn := rfl
@[simp] theorem writeStatus_done : (s.writeStatus v).done = (s.done && !v.getLsbD 1) := rfl
@[simp] theorem writeStatus_cmdOvr : (s.writeStatus v).cmdOvr = (s.cmdOvr && !v.getLsbD 3) := rfl
@[simp] theorem writeStatus_errCode : (s.writeStatus v).errCode = s.errCode := rfl
@[simp] theorem writeStatus_errDetail : (s.writeStatus v).errDetail = s.errDetail := rfl
@[simp] theorem writeStatus_errAddr : (s.writeStatus v).errAddr = s.errAddr := rfl
@[simp] theorem writeStatus_bits : (s.writeStatus v).bits = s.bits := rfl
@[simp] theorem writeStatus_width : (s.writeStatus v).width = s.width := rfl
@[simp] theorem writeStatus_height : (s.writeStatus v).height = s.height := rfl
@[simp] theorem writeStatus_srcBase : (s.writeStatus v).srcBase = s.srcBase := rfl
@[simp] theorem writeStatus_dstBase : (s.writeStatus v).dstBase = s.dstBase := rfl
@[simp] theorem writeStatus_aBase : (s.writeStatus v).aBase = s.aBase := rfl
@[simp] theorem writeStatus_aLen : (s.writeStatus v).aLen = s.aLen := rfl
@[simp] theorem writeStatus_bBase : (s.writeStatus v).bBase = s.bBase := rfl
@[simp] theorem writeStatus_bLen : (s.writeStatus v).bLen = s.bLen := rfl
@[simp] theorem writeStatus_dist : (s.writeStatus v).dist = s.dist := rfl
@[simp] theorem writeStatus_infoPath : (s.writeStatus v).infoPath = s.infoPath := rfl
@[simp] theorem writeStatus_infoValid : (s.writeStatus v).infoValid = s.infoValid := rfl
@[simp] theorem writeStatus_phase : (s.writeStatus v).phase = s.phase := rfl
@[simp] theorem writeStatus_mem : (s.writeStatus v).mem = s.mem := rfl
@[simp] theorem writeStatus_inputs : (s.writeStatus v).inputs = s.inputs := rfl
@[simp] theorem writeStatus_busData : (s.writeStatus v).busData = s.busData := rfl
@[simp] theorem writeStatus_freeCtr : (s.writeStatus v).freeCtr = s.freeCtr := rfl
@[simp] theorem writeStatus_unseen : (s.writeStatus v).unseen = s.unseen := rfl

end

/-! ## completeHash -/

section
variable (s : State) (b : Bool)

@[simp] theorem completeHash_cfg : (s.completeHash b).cfg = s.cfg := rfl
@[simp] theorem completeHash_irqEn : (s.completeHash b).irqEn = s.irqEn := rfl
@[simp] theorem completeHash_done : (s.completeHash b).done = true := rfl
@[simp] theorem completeHash_cmdOvr : (s.completeHash b).cmdOvr = s.cmdOvr := rfl
@[simp] theorem completeHash_errCode : (s.completeHash b).errCode = s.errCode := rfl
@[simp] theorem completeHash_errDetail : (s.completeHash b).errDetail = s.errDetail := rfl
@[simp] theorem completeHash_errAddr : (s.completeHash b).errAddr = s.errAddr := rfl
@[simp] theorem completeHash_bits : (s.completeHash b).bits = s.bits := rfl
@[simp] theorem completeHash_width : (s.completeHash b).width = s.width := rfl
@[simp] theorem completeHash_height : (s.completeHash b).height = s.height := rfl
@[simp] theorem completeHash_srcBase : (s.completeHash b).srcBase = s.srcBase := rfl
@[simp] theorem completeHash_dstBase : (s.completeHash b).dstBase = s.dstBase := rfl
@[simp] theorem completeHash_aBase : (s.completeHash b).aBase = s.aBase := rfl
@[simp] theorem completeHash_aLen : (s.completeHash b).aLen = s.aLen := rfl
@[simp] theorem completeHash_bBase : (s.completeHash b).bBase = s.bBase := rfl
@[simp] theorem completeHash_bLen : (s.completeHash b).bLen = s.bLen := rfl
@[simp] theorem completeHash_dist : (s.completeHash b).dist = s.dist := rfl
@[simp] theorem completeHash_infoPath : (s.completeHash b).infoPath = b := rfl
@[simp] theorem completeHash_infoValid : (s.completeHash b).infoValid = true := rfl
@[simp] theorem completeHash_phase : (s.completeHash b).phase = .idle := rfl
@[simp] theorem completeHash_mem : (s.completeHash b).mem = s.mem := rfl
@[simp] theorem completeHash_inputs : (s.completeHash b).inputs = s.inputs := rfl
@[simp] theorem completeHash_busData : (s.completeHash b).busData = s.busData := rfl
@[simp] theorem completeHash_freeCtr : (s.completeHash b).freeCtr = s.freeCtr := rfl
@[simp] theorem completeHash_unseen : (s.completeHash b).unseen = s.unseen := rfl

end

/-! ## completeDistance -/

section
variable (s : State) (d : Nat)

@[simp] theorem completeDistance_cfg : (s.completeDistance d).cfg = s.cfg := rfl
@[simp] theorem completeDistance_irqEn : (s.completeDistance d).irqEn = s.irqEn := rfl
@[simp] theorem completeDistance_done : (s.completeDistance d).done = true := rfl
@[simp] theorem completeDistance_cmdOvr : (s.completeDistance d).cmdOvr = s.cmdOvr := rfl
@[simp] theorem completeDistance_errCode : (s.completeDistance d).errCode = s.errCode := rfl
@[simp] theorem completeDistance_errDetail : (s.completeDistance d).errDetail = s.errDetail := rfl
@[simp] theorem completeDistance_errAddr : (s.completeDistance d).errAddr = s.errAddr := rfl
@[simp] theorem completeDistance_bits : (s.completeDistance d).bits = s.bits := rfl
@[simp] theorem completeDistance_width : (s.completeDistance d).width = s.width := rfl
@[simp] theorem completeDistance_height : (s.completeDistance d).height = s.height := rfl
@[simp] theorem completeDistance_srcBase : (s.completeDistance d).srcBase = s.srcBase := rfl
@[simp] theorem completeDistance_dstBase : (s.completeDistance d).dstBase = s.dstBase := rfl
@[simp] theorem completeDistance_aBase : (s.completeDistance d).aBase = s.aBase := rfl
@[simp] theorem completeDistance_aLen : (s.completeDistance d).aLen = s.aLen := rfl
@[simp] theorem completeDistance_bBase : (s.completeDistance d).bBase = s.bBase := rfl
@[simp] theorem completeDistance_bLen : (s.completeDistance d).bLen = s.bLen := rfl
@[simp] theorem completeDistance_dist : (s.completeDistance d).dist = BitVec.ofNat 32 d := rfl
@[simp] theorem completeDistance_infoPath : (s.completeDistance d).infoPath = s.infoPath := rfl
@[simp] theorem completeDistance_infoValid : (s.completeDistance d).infoValid = s.infoValid := rfl
@[simp] theorem completeDistance_phase : (s.completeDistance d).phase = .idle := rfl
@[simp] theorem completeDistance_mem : (s.completeDistance d).mem = s.mem := rfl
@[simp] theorem completeDistance_inputs : (s.completeDistance d).inputs = s.inputs := rfl
@[simp] theorem completeDistance_busData : (s.completeDistance d).busData = s.busData := rfl
@[simp] theorem completeDistance_freeCtr : (s.completeDistance d).freeCtr = s.freeCtr := rfl
@[simp] theorem completeDistance_unseen : (s.completeDistance d).unseen = s.unseen := rfl

end

/-! ## commitWrites -/

section
variable (s : State) (ws : List (Word × Byte))

@[simp] theorem commitWrites_cfg : (s.commitWrites ws).cfg = s.cfg := rfl
@[simp] theorem commitWrites_irqEn : (s.commitWrites ws).irqEn = s.irqEn := rfl
@[simp] theorem commitWrites_done : (s.commitWrites ws).done = s.done := rfl
@[simp] theorem commitWrites_cmdOvr : (s.commitWrites ws).cmdOvr = s.cmdOvr := rfl
@[simp] theorem commitWrites_errCode : (s.commitWrites ws).errCode = s.errCode := rfl
@[simp] theorem commitWrites_errDetail : (s.commitWrites ws).errDetail = s.errDetail := rfl
@[simp] theorem commitWrites_errAddr : (s.commitWrites ws).errAddr = s.errAddr := rfl
@[simp] theorem commitWrites_bits : (s.commitWrites ws).bits = s.bits := rfl
@[simp] theorem commitWrites_width : (s.commitWrites ws).width = s.width := rfl
@[simp] theorem commitWrites_height : (s.commitWrites ws).height = s.height := rfl
@[simp] theorem commitWrites_srcBase : (s.commitWrites ws).srcBase = s.srcBase := rfl
@[simp] theorem commitWrites_dstBase : (s.commitWrites ws).dstBase = s.dstBase := rfl
@[simp] theorem commitWrites_aBase : (s.commitWrites ws).aBase = s.aBase := rfl
@[simp] theorem commitWrites_aLen : (s.commitWrites ws).aLen = s.aLen := rfl
@[simp] theorem commitWrites_bBase : (s.commitWrites ws).bBase = s.bBase := rfl
@[simp] theorem commitWrites_bLen : (s.commitWrites ws).bLen = s.bLen := rfl
@[simp] theorem commitWrites_dist : (s.commitWrites ws).dist = s.dist := rfl
@[simp] theorem commitWrites_infoPath : (s.commitWrites ws).infoPath = s.infoPath := rfl
@[simp] theorem commitWrites_infoValid : (s.commitWrites ws).infoValid = s.infoValid := rfl
@[simp] theorem commitWrites_phase : (s.commitWrites ws).phase = s.phase := rfl
@[simp] theorem commitWrites_mem : (s.commitWrites ws).mem = storeAll (fun j a => s.raced a && !Config.writeChoice s.freeCtr j) 0 ws s.mem := rfl
@[simp] theorem commitWrites_inputs : (s.commitWrites ws).inputs = s.inputs := rfl
@[simp] theorem commitWrites_busData : (s.commitWrites ws).busData = s.busData := rfl
@[simp] theorem commitWrites_freeCtr : (s.commitWrites ws).freeCtr = s.freeCtr := rfl
@[simp] theorem commitWrites_unseen : (s.commitWrites ws).unseen = s.remembered ws := rfl

end

/-! ## withInputs -/

section
variable (s : State) (l : List Pending)

@[simp] theorem withInputs_cfg : (s.withInputs l).cfg = s.cfg := rfl
@[simp] theorem withInputs_irqEn : (s.withInputs l).irqEn = s.irqEn := rfl
@[simp] theorem withInputs_done : (s.withInputs l).done = s.done := rfl
@[simp] theorem withInputs_cmdOvr : (s.withInputs l).cmdOvr = s.cmdOvr := rfl
@[simp] theorem withInputs_errCode : (s.withInputs l).errCode = s.errCode := rfl
@[simp] theorem withInputs_errDetail : (s.withInputs l).errDetail = s.errDetail := rfl
@[simp] theorem withInputs_errAddr : (s.withInputs l).errAddr = s.errAddr := rfl
@[simp] theorem withInputs_bits : (s.withInputs l).bits = s.bits := rfl
@[simp] theorem withInputs_width : (s.withInputs l).width = s.width := rfl
@[simp] theorem withInputs_height : (s.withInputs l).height = s.height := rfl
@[simp] theorem withInputs_srcBase : (s.withInputs l).srcBase = s.srcBase := rfl
@[simp] theorem withInputs_dstBase : (s.withInputs l).dstBase = s.dstBase := rfl
@[simp] theorem withInputs_aBase : (s.withInputs l).aBase = s.aBase := rfl
@[simp] theorem withInputs_aLen : (s.withInputs l).aLen = s.aLen := rfl
@[simp] theorem withInputs_bBase : (s.withInputs l).bBase = s.bBase := rfl
@[simp] theorem withInputs_bLen : (s.withInputs l).bLen = s.bLen := rfl
@[simp] theorem withInputs_dist : (s.withInputs l).dist = s.dist := rfl
@[simp] theorem withInputs_infoPath : (s.withInputs l).infoPath = s.infoPath := rfl
@[simp] theorem withInputs_infoValid : (s.withInputs l).infoValid = s.infoValid := rfl
@[simp] theorem withInputs_phase : (s.withInputs l).phase = s.phase := rfl
@[simp] theorem withInputs_mem : (s.withInputs l).mem = s.mem := rfl
@[simp] theorem withInputs_inputs : (s.withInputs l).inputs = l := rfl
@[simp] theorem withInputs_busData : (s.withInputs l).busData = s.busData := rfl
@[simp] theorem withInputs_freeCtr : (s.withInputs l).freeCtr = s.freeCtr := rfl
@[simp] theorem withInputs_unseen : (s.withInputs l).unseen = s.unseen := rfl

end

/-! ## answer -/

section
variable (s : State) (v : Word)

@[simp] theorem answer_cfg : (s.answer v).cfg = s.cfg := rfl
@[simp] theorem answer_irqEn : (s.answer v).irqEn = s.irqEn := rfl
@[simp] theorem answer_done : (s.answer v).done = s.done := rfl
@[simp] theorem answer_cmdOvr : (s.answer v).cmdOvr = s.cmdOvr := rfl
@[simp] theorem answer_errCode : (s.answer v).errCode = s.errCode := rfl
@[simp] theorem answer_errDetail : (s.answer v).errDetail = s.errDetail := rfl
@[simp] theorem answer_errAddr : (s.answer v).errAddr = s.errAddr := rfl
@[simp] theorem answer_bits : (s.answer v).bits = s.bits := rfl
@[simp] theorem answer_width : (s.answer v).width = s.width := rfl
@[simp] theorem answer_height : (s.answer v).height = s.height := rfl
@[simp] theorem answer_srcBase : (s.answer v).srcBase = s.srcBase := rfl
@[simp] theorem answer_dstBase : (s.answer v).dstBase = s.dstBase := rfl
@[simp] theorem answer_aBase : (s.answer v).aBase = s.aBase := rfl
@[simp] theorem answer_aLen : (s.answer v).aLen = s.aLen := rfl
@[simp] theorem answer_bBase : (s.answer v).bBase = s.bBase := rfl
@[simp] theorem answer_bLen : (s.answer v).bLen = s.bLen := rfl
@[simp] theorem answer_dist : (s.answer v).dist = s.dist := rfl
@[simp] theorem answer_infoPath : (s.answer v).infoPath = s.infoPath := rfl
@[simp] theorem answer_infoValid : (s.answer v).infoValid = s.infoValid := rfl
@[simp] theorem answer_phase : (s.answer v).phase = s.phase := rfl
@[simp] theorem answer_mem : (s.answer v).mem = s.mem := rfl
@[simp] theorem answer_inputs : (s.answer v).inputs = s.inputs := rfl
@[simp] theorem answer_busData : (s.answer v).busData = v := rfl
@[simp] theorem answer_freeCtr : (s.answer v).freeCtr = s.freeCtr := rfl
@[simp] theorem answer_unseen : (s.answer v).unseen = s.unseen := rfl

end

/-! ## hostStore -/

section
variable (s : State) (a : Word) (v : Byte)

@[simp] theorem hostStore_cfg : (hostStore a v s).cfg = s.cfg := rfl
@[simp] theorem hostStore_irqEn : (hostStore a v s).irqEn = s.irqEn := rfl
@[simp] theorem hostStore_done : (hostStore a v s).done = s.done := rfl
@[simp] theorem hostStore_cmdOvr : (hostStore a v s).cmdOvr = s.cmdOvr := rfl
@[simp] theorem hostStore_errCode : (hostStore a v s).errCode = s.errCode := rfl
@[simp] theorem hostStore_errDetail : (hostStore a v s).errDetail = s.errDetail := rfl
@[simp] theorem hostStore_errAddr : (hostStore a v s).errAddr = s.errAddr := rfl
@[simp] theorem hostStore_bits : (hostStore a v s).bits = s.bits := rfl
@[simp] theorem hostStore_width : (hostStore a v s).width = s.width := rfl
@[simp] theorem hostStore_height : (hostStore a v s).height = s.height := rfl
@[simp] theorem hostStore_srcBase : (hostStore a v s).srcBase = s.srcBase := rfl
@[simp] theorem hostStore_dstBase : (hostStore a v s).dstBase = s.dstBase := rfl
@[simp] theorem hostStore_aBase : (hostStore a v s).aBase = s.aBase := rfl
@[simp] theorem hostStore_aLen : (hostStore a v s).aLen = s.aLen := rfl
@[simp] theorem hostStore_bBase : (hostStore a v s).bBase = s.bBase := rfl
@[simp] theorem hostStore_bLen : (hostStore a v s).bLen = s.bLen := rfl
@[simp] theorem hostStore_dist : (hostStore a v s).dist = s.dist := rfl
@[simp] theorem hostStore_infoPath : (hostStore a v s).infoPath = s.infoPath := rfl
@[simp] theorem hostStore_infoValid : (hostStore a v s).infoValid = s.infoValid := rfl
@[simp] theorem hostStore_phase : (hostStore a v s).phase = s.phase.noteStore a.toNat (s.mem.read a.toNat) := rfl
@[simp] theorem hostStore_mem : (hostStore a v s).mem = s.mem.write a.toNat v := rfl
@[simp] theorem hostStore_inputs : (hostStore a v s).inputs = s.inputs := rfl
@[simp] theorem hostStore_busData : (hostStore a v s).busData = s.busData := rfl
@[simp] theorem hostStore_freeCtr : (hostStore a v s).freeCtr = if s.busy then s.freeCtr + 1 else s.freeCtr := rfl
@[simp] theorem hostStore_unseen : (hostStore a v s).unseen = s.unseen.settleByte a.toNat := rfl

end

/-! ## hostLoad -/

section
variable (s : State) (a : Word)

@[simp] theorem hostLoad_cfg : (hostLoad a s).cfg = s.cfg := rfl
@[simp] theorem hostLoad_irqEn : (hostLoad a s).irqEn = s.irqEn := rfl
@[simp] theorem hostLoad_done : (hostLoad a s).done = s.done := rfl
@[simp] theorem hostLoad_cmdOvr : (hostLoad a s).cmdOvr = s.cmdOvr := rfl
@[simp] theorem hostLoad_errCode : (hostLoad a s).errCode = s.errCode := rfl
@[simp] theorem hostLoad_errDetail : (hostLoad a s).errDetail = s.errDetail := rfl
@[simp] theorem hostLoad_errAddr : (hostLoad a s).errAddr = s.errAddr := rfl
@[simp] theorem hostLoad_bits : (hostLoad a s).bits = s.bits := rfl
@[simp] theorem hostLoad_width : (hostLoad a s).width = s.width := rfl
@[simp] theorem hostLoad_height : (hostLoad a s).height = s.height := rfl
@[simp] theorem hostLoad_srcBase : (hostLoad a s).srcBase = s.srcBase := rfl
@[simp] theorem hostLoad_dstBase : (hostLoad a s).dstBase = s.dstBase := rfl
@[simp] theorem hostLoad_aBase : (hostLoad a s).aBase = s.aBase := rfl
@[simp] theorem hostLoad_aLen : (hostLoad a s).aLen = s.aLen := rfl
@[simp] theorem hostLoad_bBase : (hostLoad a s).bBase = s.bBase := rfl
@[simp] theorem hostLoad_bLen : (hostLoad a s).bLen = s.bLen := rfl
@[simp] theorem hostLoad_dist : (hostLoad a s).dist = s.dist := rfl
@[simp] theorem hostLoad_infoPath : (hostLoad a s).infoPath = s.infoPath := rfl
@[simp] theorem hostLoad_infoValid : (hostLoad a s).infoValid = s.infoValid := rfl
@[simp] theorem hostLoad_phase : (hostLoad a s).phase = s.phase := rfl
@[simp] theorem hostLoad_mem : (hostLoad a s).mem = s.mem := rfl
@[simp] theorem hostLoad_inputs : (hostLoad a s).inputs = s.inputs := rfl
@[simp] theorem hostLoad_busData : (hostLoad a s).busData = (hostLoadByte a s).setWidth 32 := rfl
@[simp] theorem hostLoad_freeCtr : (hostLoad a s).freeCtr = if s.unsettled then s.freeCtr + 1 else s.freeCtr := rfl
@[simp] theorem hostLoad_unseen : (hostLoad a s).unseen = s.unseen := rfl

end

/-! ## hostRead -/

section
variable (s : State) (off : BitVec 8)

@[simp] theorem hostRead_cfg : (hostRead off s).cfg = s.cfg := rfl
@[simp] theorem hostRead_irqEn : (hostRead off s).irqEn = s.irqEn := rfl
@[simp] theorem hostRead_done : (hostRead off s).done = s.done := rfl
@[simp] theorem hostRead_cmdOvr : (hostRead off s).cmdOvr = s.cmdOvr := rfl
@[simp] theorem hostRead_errCode : (hostRead off s).errCode = s.errCode := rfl
@[simp] theorem hostRead_errDetail : (hostRead off s).errDetail = s.errDetail := rfl
@[simp] theorem hostRead_errAddr : (hostRead off s).errAddr = s.errAddr := rfl
@[simp] theorem hostRead_bits : (hostRead off s).bits = s.bits := rfl
@[simp] theorem hostRead_width : (hostRead off s).width = s.width := rfl
@[simp] theorem hostRead_height : (hostRead off s).height = s.height := rfl
@[simp] theorem hostRead_srcBase : (hostRead off s).srcBase = s.srcBase := rfl
@[simp] theorem hostRead_dstBase : (hostRead off s).dstBase = s.dstBase := rfl
@[simp] theorem hostRead_aBase : (hostRead off s).aBase = s.aBase := rfl
@[simp] theorem hostRead_aLen : (hostRead off s).aLen = s.aLen := rfl
@[simp] theorem hostRead_bBase : (hostRead off s).bBase = s.bBase := rfl
@[simp] theorem hostRead_bLen : (hostRead off s).bLen = s.bLen := rfl
@[simp] theorem hostRead_dist : (hostRead off s).dist = s.dist := rfl
@[simp] theorem hostRead_infoPath : (hostRead off s).infoPath = s.infoPath := rfl
@[simp] theorem hostRead_infoValid : (hostRead off s).infoValid = s.infoValid := rfl
@[simp] theorem hostRead_phase : (hostRead off s).phase = s.phase := rfl
@[simp] theorem hostRead_mem : (hostRead off s).mem = s.mem := rfl
@[simp] theorem hostRead_inputs : (hostRead off s).inputs = s.inputs := rfl
@[simp] theorem hostRead_busData : (hostRead off s).busData = hostReadWord off s := rfl
@[simp] theorem hostRead_freeCtr : (hostRead off s).freeCtr = if (regAt off).any Reg.isResult && s.unsettled then s.freeCtr + 1 else s.freeCtr := rfl
@[simp] theorem hostRead_unseen : (hostRead off s).unseen = if regAt off == some .status && s.statusObserves then .empty else s.unseen := rfl

end

/-! ## seeIrq -/

section
variable (s : State)

@[simp] theorem seeIrq_cfg : (seeIrq s).cfg = s.cfg := rfl
@[simp] theorem seeIrq_irqEn : (seeIrq s).irqEn = s.irqEn := rfl
@[simp] theorem seeIrq_done : (seeIrq s).done = s.done := rfl
@[simp] theorem seeIrq_cmdOvr : (seeIrq s).cmdOvr = s.cmdOvr := rfl
@[simp] theorem seeIrq_errCode : (seeIrq s).errCode = s.errCode := rfl
@[simp] theorem seeIrq_errDetail : (seeIrq s).errDetail = s.errDetail := rfl
@[simp] theorem seeIrq_errAddr : (seeIrq s).errAddr = s.errAddr := rfl
@[simp] theorem seeIrq_bits : (seeIrq s).bits = s.bits := rfl
@[simp] theorem seeIrq_width : (seeIrq s).width = s.width := rfl
@[simp] theorem seeIrq_height : (seeIrq s).height = s.height := rfl
@[simp] theorem seeIrq_srcBase : (seeIrq s).srcBase = s.srcBase := rfl
@[simp] theorem seeIrq_dstBase : (seeIrq s).dstBase = s.dstBase := rfl
@[simp] theorem seeIrq_aBase : (seeIrq s).aBase = s.aBase := rfl
@[simp] theorem seeIrq_aLen : (seeIrq s).aLen = s.aLen := rfl
@[simp] theorem seeIrq_bBase : (seeIrq s).bBase = s.bBase := rfl
@[simp] theorem seeIrq_bLen : (seeIrq s).bLen = s.bLen := rfl
@[simp] theorem seeIrq_dist : (seeIrq s).dist = s.dist := rfl
@[simp] theorem seeIrq_infoPath : (seeIrq s).infoPath = s.infoPath := rfl
@[simp] theorem seeIrq_infoValid : (seeIrq s).infoValid = s.infoValid := rfl
@[simp] theorem seeIrq_phase : (seeIrq s).phase = s.phase := rfl
@[simp] theorem seeIrq_mem : (seeIrq s).mem = s.mem := rfl
@[simp] theorem seeIrq_inputs : (seeIrq s).inputs = s.inputs := rfl
@[simp] theorem seeIrq_busData : (seeIrq s).busData = (bit s.irq).setWidth 32 := rfl
@[simp] theorem seeIrq_freeCtr : (seeIrq s).freeCtr = s.freeCtr := rfl
@[simp] theorem seeIrq_unseen : (seeIrq s).unseen = if s.irq then .empty else s.unseen := rfl

end

/-! ## resetEngine -/

section
variable (s : State)

@[simp] theorem resetEngine_cfg : (resetEngine s).cfg = s.cfg := rfl
@[simp] theorem resetEngine_irqEn : (resetEngine s).irqEn = false := rfl
@[simp] theorem resetEngine_done : (resetEngine s).done = false := rfl
@[simp] theorem resetEngine_cmdOvr : (resetEngine s).cmdOvr = false := rfl
@[simp] theorem resetEngine_errCode : (resetEngine s).errCode = .none := rfl
@[simp] theorem resetEngine_errDetail : (resetEngine s).errDetail = 0 := rfl
@[simp] theorem resetEngine_errAddr : (resetEngine s).errAddr = 0 := rfl
@[simp] theorem resetEngine_bits : (resetEngine s).bits = 16 := rfl
@[simp] theorem resetEngine_width : (resetEngine s).width = 0 := rfl
@[simp] theorem resetEngine_height : (resetEngine s).height = 0 := rfl
@[simp] theorem resetEngine_srcBase : (resetEngine s).srcBase = 0 := rfl
@[simp] theorem resetEngine_dstBase : (resetEngine s).dstBase = 0 := rfl
@[simp] theorem resetEngine_aBase : (resetEngine s).aBase = 0 := rfl
@[simp] theorem resetEngine_aLen : (resetEngine s).aLen = 0 := rfl
@[simp] theorem resetEngine_bBase : (resetEngine s).bBase = 0 := rfl
@[simp] theorem resetEngine_bLen : (resetEngine s).bLen = 0 := rfl
@[simp] theorem resetEngine_dist : (resetEngine s).dist = 0 := rfl
@[simp] theorem resetEngine_infoPath : (resetEngine s).infoPath = false := rfl
@[simp] theorem resetEngine_infoValid : (resetEngine s).infoValid = false := rfl
@[simp] theorem resetEngine_phase : (resetEngine s).phase = .idle := rfl
@[simp] theorem resetEngine_mem : (resetEngine s).mem = storeAll (fun j _ => !Config.resetChoice s.freeCtr j) 0 s.engineWrites s.mem := rfl
@[simp] theorem resetEngine_inputs : (resetEngine s).inputs = s.inputs := rfl
@[simp] theorem resetEngine_busData : (resetEngine s).busData = s.busData := rfl
@[simp] theorem resetEngine_freeCtr : (resetEngine s).freeCtr = if s.busy then s.freeCtr + 1 else s.freeCtr := rfl
@[simp] theorem resetEngine_unseen : (resetEngine s).unseen = .empty := rfl

end

/-! ## The phase after each update -/

section
variable (s : State)

@[simp] theorem accept_busy (op : RunOp) : (s.accept op).busy = true := rfl
@[simp] theorem accept_replaced (op : RunOp) : (s.accept op).replaced = [] := rfl
@[simp] theorem accept_runsHash (op : HashOp) : (s.accept (.hash op)).runsHash = true := rfl
@[simp] theorem accept_runsHash_hdist : (s.accept .hdist).runsHash = false := rfl
@[simp] theorem raise_busy (e : CmdError) : (s.raise e).busy = false := rfl
@[simp] theorem completeHash_busy (b : Bool) : (s.completeHash b).busy = false := rfl
@[simp] theorem completeDistance_busy (d : Nat) : (s.completeDistance d).busy = false := rfl
@[simp] theorem overrun_busy : s.overrun.busy = s.busy := rfl
@[simp] theorem clearRecord_busy : s.clearRecord.busy = s.busy := rfl
@[simp] theorem writeStatus_busy (v : Word) : (s.writeStatus v).busy = s.busy := rfl
@[simp] theorem commitWrites_busy (ws : List (Word × Byte)) : (s.commitWrites ws).busy = s.busy := rfl
@[simp] theorem commitWrites_runsHash (ws : List (Word × Byte)) : (s.commitWrites ws).runsHash = s.runsHash := rfl
@[simp] theorem accept_quiet (op : RunOp) : (s.accept op).quiet = s.quiet := rfl
@[simp] theorem accept_hashArgs (op : RunOp) : (s.accept op).hashArgs = s.hashArgs := rfl
@[simp] theorem accept_distArgs (op : RunOp) : (s.accept op).distArgs = s.distArgs := rfl

@[simp] theorem withInputs_busy (l : List Pending) : (s.withInputs l).busy = s.busy := rfl
@[simp] theorem withInputs_runsHash (l : List Pending) : (s.withInputs l).runsHash = s.runsHash := rfl
@[simp] theorem withInputs_replaced (l : List Pending) : (s.withInputs l).replaced = s.replaced := rfl
@[simp] theorem withInputs_hashArgs (l : List Pending) : (s.withInputs l).hashArgs = s.hashArgs := rfl
@[simp] theorem withInputs_distArgs (l : List Pending) : (s.withInputs l).distArgs = s.distArgs := rfl
@[simp] theorem withInputs_engineWrites (l : List Pending) : (s.withInputs l).engineWrites = s.engineWrites := rfl
@[simp] theorem withInputs_readReg (l : List Pending) (r : Reg) : (s.withInputs l).readReg r = s.readReg r := rfl
@[simp] theorem withInputs_quiet_nil : (s.withInputs []).quiet = true := rfl
@[simp] theorem withInputs_quiet_cons (p : Pending) (l : List Pending) :
    (s.withInputs (p :: l)).quiet = !p.early := rfl
@[simp] theorem withInputs_withInputs (k l : List Pending) : (s.withInputs k).withInputs l = s.withInputs l := rfl
@[simp] theorem withInputs_self : s.withInputs s.inputs = s := rfl
@[simp] theorem answer_busy (v : Word) : (s.answer v).busy = s.busy := rfl
@[simp] theorem answer_runsHash (v : Word) : (s.answer v).runsHash = s.runsHash := rfl
@[simp] theorem answer_readReg (v : Word) (r : Reg) : (s.answer v).readReg r = s.readReg r := rfl
@[simp] theorem hostStore_busy (a : Word) (v : Byte) : (hostStore a v s).busy = s.busy := by
  simp only [busy, hostStore_phase]; cases s.phase <;> rfl
@[simp] theorem hostStore_runsHash (a : Word) (v : Byte) : (hostStore a v s).runsHash = s.runsHash := by
  simp only [runsHash, hostStore_phase]
  cases s.phase with
  | idle => rfl
  | run op r => cases op <;> rfl
@[simp] theorem hostLoad_busy (a : Word) : (hostLoad a s).busy = s.busy := rfl
@[simp] theorem hostRead_busy (off : BitVec 8) : (hostRead off s).busy = s.busy := rfl
@[simp] theorem hostRead_runsHash (off : BitVec 8) : (hostRead off s).runsHash = s.runsHash := rfl
@[simp] theorem hostRead_readReg (off : BitVec 8) (r : Reg) : (hostRead off s).readReg r = s.readReg r := by
  cases r <;> rfl
@[simp] theorem seeIrq_busy : (seeIrq s).busy = s.busy := rfl
@[simp] theorem seeIrq_runsHash : (seeIrq s).runsHash = s.runsHash := rfl
@[simp] theorem seeIrq_readReg (r : Reg) : (seeIrq s).readReg r = s.readReg r := by cases r <;> rfl
@[simp] theorem hostLoad_runsHash (a : Word) : (hostLoad a s).runsHash = s.runsHash := rfl
@[simp] theorem resetEngine_busy : (resetEngine s).busy = false := rfl

@[simp] theorem hashArgs_w : s.hashArgs.w = s.width.toNat := rfl
@[simp] theorem hashArgs_h : s.hashArgs.h = s.height.toNat := rfl
@[simp] theorem hashArgs_bits : s.hashArgs.bits = s.bits.toNat := rfl
@[simp] theorem hashArgs_src : s.hashArgs.src = s.srcBase := rfl
@[simp] theorem hashArgs_dst : s.hashArgs.dst = s.dstBase := rfl
@[simp] theorem distArgs_a : s.distArgs.a = s.aBase := rfl
@[simp] theorem distArgs_b : s.distArgs.b = s.bBase := rfl
@[simp] theorem distArgs_aLen : s.distArgs.aLen = s.aLen.toNat := rfl
@[simp] theorem distArgs_bLen : s.distArgs.bLen = s.bLen.toNat := rfl

/-- A write to a register other than CMD leaves everything that is no register of the host's as it is. -/
theorem writeReg_rest (r : Reg) (v : Word) :
    (s.writeReg r v).cfg = s.cfg ∧ (s.writeReg r v).phase = s.phase ∧ (s.writeReg r v).mem = s.mem ∧
    (s.writeReg r v).inputs = s.inputs ∧ (s.writeReg r v).busData = s.busData ∧
    (s.writeReg r v).freeCtr = s.freeCtr ∧ (s.writeReg r v).errCode = s.errCode ∧
    (s.writeReg r v).errDetail = s.errDetail ∧ (s.writeReg r v).errAddr = s.errAddr ∧
    (s.writeReg r v).dist = s.dist ∧ (s.writeReg r v).infoPath = s.infoPath ∧
    (s.writeReg r v).infoValid = s.infoValid ∧ (s.writeReg r v).unseen = s.unseen := by
  cases r <;> cases hb : s.busy <;> simp [writeReg, writeConfig, hb]

theorem writeReg_busy (r : Reg) (v : Word) : (s.writeReg r v).busy = s.busy := by
  simp only [busy, (writeReg_rest s r v).2.1]

/-- Only a write to STATUS touches DONE and CMD_OVR, and it sets neither. -/
theorem writeReg_done (r : Reg) (v : Word) :
    (s.writeReg r v).done = (s.done && !(r == .status && v.getLsbD 1)) := by
  cases r <;> cases hb : s.busy <;> simp [writeReg, writeConfig, hb]

theorem writeReg_cmdOvr (r : Reg) (v : Word) :
    (s.writeReg r v).cmdOvr = (s.cmdOvr && !(r == .status && v.getLsbD 3)) := by
  cases r <;> cases hb : s.busy <;> simp [writeReg, writeConfig, hb]

/-- STATUS.BUSY is exactly the running phase (10_state.md R58). -/
theorem busy_eq_false_iff : s.busy = false ↔ s.phase = .idle := by
  unfold busy; cases s.phase <;> simp

theorem busy_eq_true_iff : s.busy = true ↔ ∃ op r, s.phase = .run op r := by
  unfold busy; cases s.phase <;> simp

theorem runsHash_of_idle (h : s.phase = .idle) : s.runsHash = false := by simp [runsHash, h]

theorem raise_of_idle_infoValid (e : CmdError) (h : s.phase = .idle) : (s.raise e).infoValid = s.infoValid := by
  simp [runsHash_of_idle s h]

theorem raise_of_idle_infoPath (e : CmdError) (h : s.phase = .idle) : (s.raise e).infoPath = s.infoPath := by
  simp [runsHash_of_idle s h]

end

end Sys2Proof.Machine.State
end

