-- ==== Sys2Proof/Laws/Port.lean ====
section
/-! SUPPORT. The engine's port: what stops an access, what a read returns, and what the writes of a command
leave in memory. -/

namespace Sys2Proof.Machine

/-! ## Answers -/

theorem accessStop_of_ok {c : Config} {k : AccessKind} {a : Word} (h : busAnswer c k a = .ok) :
    accessStop c k a = none := by simp [accessStop, h]

theorem accessStop_of_error {c : Config} {k : AccessKind} {a : Word} (h : busAnswer c k a = .error) :
    accessStop c k a = some (.error ⟨.busError, busDetail k, a⟩) := by simp [accessStop, h]

theorem accessStop_of_silent {c : Config} {k : AccessKind} {a : Word} (h : busAnswer c k a = .silent) :
    accessStop c k a = some (.silent a) := by simp [accessStop, h]

theorem accessStop_eq_none_iff {c : Config} {k : AccessKind} {a : Word} :
    accessStop c k a = none ↔ busAnswer c k a = .ok := by
  unfold accessStop; cases busAnswer c k a <;> simp

/-- Everything an access can do instead of completing. -/
theorem accessStop_cases {c : Config} {k : AccessKind} {a : Word} {st : Stop}
    (h : accessStop c k a = some st) :
    (busAnswer c k a = .error ∧ st = .error ⟨.busError, busDetail k, a⟩) ∨
    (busAnswer c k a = .silent ∧ st = .silent a) := by
  unfold accessStop at h
  cases hb : busAnswer c k a <;> rw [hb] at h <;> simp at h
  · exact .inl ⟨rfl, h.symm⟩
  · exact .inr ⟨rfl, h.symm⟩

/-- A platform no region of which is silent answers every access. -/
theorem busAnswer_ne_silent {c : Config} (h : ∀ r ∈ c.bus, r.answer ≠ .silent) (k : AccessKind) (a : Word) :
    busAnswer c k a ≠ .silent := by
  unfold busAnswer
  split
  · next r hr => exact h r (List.mem_of_find?_eq_some hr)
  · simp

/-! ## Reads -/

@[simp] theorem pickHeld_nil {α : Type} (cur : α) (k : Nat) : pickHeld cur [] k = cur := rfl

/-- A draw gives the current value or one of the others. -/
theorem pickHeld_mem {α : Type} (cur : α) (before : List α) (k : Nat) :
    pickHeld cur before k = cur ∨ pickHeld cur before k ∈ before := by
  unfold pickHeld
  cases before with
  | nil => exact .inl rfl
  | cons b bs =>
    have hlt : k % ((b :: bs).length + 1) < (cur :: b :: bs).length := by
      rw [List.length_cons (a := cur)]; exact Nat.mod_lt _ (Nat.succ_pos _)
    have : (cur :: b :: bs).getD (k % ((b :: bs).length + 1)) cur ∈ cur :: b :: bs := by
      rw [List.getD_eq_getElem _ _ hlt]; exact List.getElem_mem hlt
    simpa using List.mem_cons.mp this

/-- With no host store since acceptance a read returns the byte in memory. -/
theorem engineRead_of_no_stores {s : State} (h : s.replaced = []) (n : Nat) (a : Word) :
    s.engineRead n a = s.mem.read a.toNat := by
  simp [State.engineRead, State.heldBefore, h, pickHeld]

@[simp] theorem accept_engineRead (s : State) (op : RunOp) (n : Nat) (a : Word) :
    (s.accept op).engineRead n a = s.mem.read a.toNat :=
  engineRead_of_no_stores rfl n a

@[simp] theorem accept_raced (s : State) (op : RunOp) (a : Word) : (s.accept op).raced a = false := rfl

/-! ## Ends of a command -/

/-- What an end of a command answers. -/
theorem endWith_next {st : Stop} {s t : State} (h : s.endWith st = .next t) :
    ∃ e, st = .error e ∧ t = s.raise e := by
  cases st with
  | error e => simp only [State.endWith, Host.Outcome.next.injEq] at h; exact ⟨e, rfl, h.symm⟩
  | silent a => simp [State.endWith] at h

theorem launch_of_idle {s : State} (op : RunOp) (hb : s.busy = false) (hq : s.quiet = true) :
    s.launch op = (s.accept op).finish := by simp [State.launch, State.ifIdle, hb, hq]

theorem launch_of_overlap {s : State} (op : RunOp) (hb : s.busy = false) (hq : s.quiet = false) :
    s.launch op = .next (s.accept op) := by simp [State.launch, State.ifIdle, hb, hq]

theorem launch_of_busy {s : State} (op : RunOp) (hb : s.busy = true) : s.launch op = .next s.overrun := by
  simp [State.launch, State.ifIdle, hb]

theorem finish_accept_hash (s : State) (op : HashOp) :
    (s.accept (.hash op)).finish = (s.accept (.hash op)).finishHash op := rfl

theorem finish_accept_hdist (s : State) : (s.accept .hdist).finish = (s.accept .hdist).finishDistance := rfl

end Sys2Proof.Machine
end

