-- ==== Sys2Proof/Laws/Comparator.lean ====
section
/-! SUPPORT. The comparator: bounds of the distance, why HDIST stops, and everything its completion can do. -/

namespace Sys2Proof.Machine

theorem popcount_le {n : Nat} (v : BitVec n) : popcount v ≤ n := by
  unfold popcount; exact (List.countP_le_length).trans (by simp)

/-- The contribution counts the differing bits of the low nibbles (43_comparator.md R183). -/
theorem byteDistance_eq (a b : Byte) :
    byteDistance a b = (List.range 4).countP fun k => a.getLsbD k != b.getLsbD k := by
  simp [byteDistance, popcount, List.range_succ, List.countP_cons]

theorem byteDistance_le (a b : Byte) : byteDistance a b ≤ 4 := by
  rw [byteDistance_eq]; exact (List.countP_le_length).trans (by simp)

theorem sum_zipWith_le (as bs : List Byte) : hammingDistance as bs ≤ 4 * as.length := by
  induction as generalizing bs with
  | nil => simp [hammingDistance]
  | cons a as ih =>
    cases bs with
    | nil => simp [hammingDistance]
    | cons b bs =>
      have h1 := ih bs
      have h2 := byteDistance_le a b
      simp only [hammingDistance, List.zipWith_cons_cons, List.sum_cons, List.length_cons] at *
      omega

/-- The distance is at most 4 per byte (43_comparator.md R187). -/
theorem distance_le (s : State) : s.distance ≤ 4 * s.aLen.toNat := by
  have := sum_zipWith_le s.leftBytes s.rightBytes
  simpa [State.distance, State.leftBytes] using this

/-- DIST holds the distance without overflow (43_comparator.md R187). -/
theorem distance_toNat (s : State) : (BitVec.ofNat 32 s.distance).toNat = s.distance := by
  have h1 := distance_le s
  have h2 := s.aLen.isLt
  rw [BitVec.toNat_ofNat, Nat.mod_eq_of_lt (by omega)]

/-- Everything that stops an HDIST: an argument check, or a read the platform does not perform. -/
theorem distStop_some {c : Config} {o : DistArgs} {st : Stop} (h : distStop c o = some st) :
    (∃ e, checkDistArgs o = some e ∧ st = .error e) ∨
    (checkDistArgs o = none ∧ ∃ a, accessStop c .read a = some st) := by
  unfold distStop at h
  split at h
  · next e he => simp only [Option.some.injEq] at h; exact .inl ⟨e, he, h.symm⟩
  · next he =>
    obtain ⟨a, -, ha⟩ := List.exists_of_findSome?_eq_some h
    exact .inr ⟨he, a, ha⟩

/-- The errors the argument checks raise. -/
theorem checkDistArgs_some {o : DistArgs} {e : CmdError} (h : checkDistArgs o = some e) :
    (∃ d : BitVec 8, e = ⟨.nullArgument, d, 0⟩ ∧ 1 ≤ d.toNat ∧ d.toNat ≤ 3) ∨ e = ⟨.lengthMismatch, 0, 0⟩ := by
  unfold checkDistArgs at h
  split_ifs at h with h1 h2
  · left
    refine ⟨nullDetail o, by simpa using h.symm, ?_⟩
    unfold nullDetail
    split_ifs <;> simp_all
  · right; simpa using h.symm

/-- The errors an HDIST records: an address only with BUS_ERROR, never INDEX_RANGE. -/
theorem distStop_error {c : Config} {o : DistArgs} {e : CmdError} (h : distStop c o = some (.error e)) :
    (∃ d : BitVec 8, e = ⟨.nullArgument, d, 0⟩ ∧ 1 ≤ d.toNat ∧ d.toNat ≤ 3) ∨ e = ⟨.lengthMismatch, 0, 0⟩ ∨
    ∃ a, e = ⟨.busError, 1, a⟩ := by
  rcases distStop_some h with ⟨e', he, h1⟩ | ⟨-, a, h1⟩
  · cases h1
    rcases checkDistArgs_some he with h | h
    · exact .inl h
    · exact .inr (.inl h)
  · rcases accessStop_cases h1 with ⟨-, h2⟩ | ⟨-, h2⟩
    · cases h2; exact .inr (.inr ⟨a, rfl⟩)
    · cases h2

/-- Everything the completion of HDIST can do. -/
theorem finishDistance_next {s t : State} (h : s.finishDistance = .next t) :
    (distStop s.cfg s.distArgs = none ∧ t = (s.commitWrites []).completeDistance s.distance) ∨
    ∃ e, distStop s.cfg s.distArgs = some (.error e) ∧ t = (s.commitWrites []).raise e := by
  unfold State.finishDistance at h
  split at h
  · next st hst =>
    obtain ⟨e, rfl, ht⟩ := endWith_next h
    exact .inr ⟨e, hst, ht⟩
  · next hst => exact .inl ⟨hst, by simpa using h.symm⟩

end Sys2Proof.Machine
end

