-- ==== Sys2Proof/Laws/Decode.lean ====
section
/-! SUPPORT. The decoder: its two fields as numbers, and what each outcome says of the word. -/

namespace Sys2Proof

/-- RSVD is the word shifted right by 4. -/
theorem rsvdField_toNat (w : Word) : (rsvdField w).toNat = w.toNat / 16 := by
  have := w.isLt
  simp only [rsvdField, BitVec.extractLsb'_toNat, Nat.shiftRight_eq_div_pow]
  rw [Nat.mod_eq_of_lt (by omega)]

/-- OPCODE is the word modulo 16. -/
theorem opcodeField_toNat (w : Word) : (opcodeField w).toNat = w.toNat % 16 := by
  simp [opcodeField, BitVec.extractLsb'_toNat]

theorem rsvdField_eq_zero_iff (w : Word) : rsvdField w = 0 ↔ w.toNat < 16 := by
  rw [← BitVec.toNat_inj, rsvdField_toNat]
  simp

theorem decode_reservedField {w : Word} (h : 16 ≤ w.toNat) : decode w = .error .reservedField := by
  have : rsvdField w ≠ 0 := fun h' => by rw [rsvdField_eq_zero_iff] at h'; omega
  rw [decode, if_pos this]

/-- Below 16 the word is its opcode. -/
theorem decode_of_lt {w : Word} (h : w.toNat < 16) :
    decode w = match w.toNat with
      | 0 => .ok .nop | 1 => .ok .hash | 2 => .ok .hashq | 3 => .ok .hashw | 4 => .ok .hdist | 5 => .ok .clear
      | _ => .error .reservedOpcode := by
  have h0 : rsvdField w = 0 := (rsvdField_eq_zero_iff w).mpr h
  rw [decode, if_neg (fun h' => h' h0), opcodeMap, opcodeField_toNat, Nat.mod_eq_of_lt h]
  split <;> split <;> simp_all

theorem encode_toNat (i : Instr) : (encode i).toNat = (opcodeOf i).toNat := by cases i <;> rfl

end Sys2Proof
end

