-- ==== Sys2Proof/Laws/HashEngine.lean ====
section
/-! SUPPORT. The hash commands: the fingerprint's length and nibbles, the operand checks, why a command stops,
and everything its completion can do. -/

namespace Sys2Proof.Machine

/-! ## Quantizer and packer -/

@[simp] theorem bandBits_length (half : F64) (band : List F64) : (bandBits half band).length = band.length := by
  simp [bandBits]

/-- The BitSequence of a grid of four whole bands has a bit per cell. -/
theorem quantize_length {scale bits : Nat} {grid : List F64} {ppb : F64} (hg : grid.length = bits * bits)
    (hb : bits % 2 = 0) : (quantize scale bits grid ppb).length = bits * bits := by
  obtain ⟨k, hk⟩ : ∃ k, bits * bits = 4 * k := by
    obtain ⟨m, rfl⟩ : ∃ m, bits = 2 * m := ⟨bits / 2, by omega⟩
    exact ⟨m * m, by ring⟩
  simp only [quantize, bandOf, List.length_flatMap, bandBits_length, List.length_take, List.length_drop, hg, hk]
  simp [List.range_succ, List.range_zero]
  omega

theorem pack_length (l : List Bool) : (pack l).length = l.length / 4 := by
  induction l using pack.induct with
  | case1 b0 b1 b2 b3 rest ih => simp [pack, ih]; omega
  | case2 l h =>
    rw [pack]
    · match l, h with
      | [], _ | [_], _ | [_, _], _ | [_, _, _], _ => simp
      | _ :: _ :: _ :: _ :: _, h => exact absurd rfl (h _ _ _ _ _)
    · exact h

theorem packNibble_lt (b0 b1 b2 b3 : Bool) : (packNibble b0 b1 b2 b3).toNat < 16 := by
  cases b0 <;> cases b1 <;> cases b2 <;> cases b3 <;> decide

theorem pack_lt {l : List Bool} {v : Byte} (h : v ∈ pack l) : v.toNat < 16 := by
  induction l using pack.induct with
  | case1 b0 b1 b2 b3 rest ih =>
    rw [pack, List.mem_cons] at h
    rcases h with rfl | h
    · exact packNibble_lt ..
    · exact ih h
  | case2 l hl => rw [pack] at h; · simp at h
                  · exact hl

/-- The fingerprint's length depends only on bits (42_bitpacker.md R171). -/
theorem fingerprintOf_length {scale bits : Nat} (hb : bits % 2 = 0) (path : AggPath) (w h : Nat)
    (pix : Nat → Nat → Nat) : (fingerprintOf scale path w h bits pix).length = bits * bits / 4 := by
  rw [fingerprintOf, pack_length, quantize_length (aggregate_grid_length ..) hb]

theorem fingerprintOf_lt {scale bits w h : Nat} {path : AggPath} {pix : Nat → Nat → Nat} {v : Byte}
    (hv : v ∈ fingerprintOf scale path w h bits pix) : v.toNat < 16 := pack_lt hv

/-- The fingerprint depends on the pixels the path reads, and on no other (40_block_aggregator.md R125). -/
theorem fingerprintOf_congr {scale w h bits : Nat} {path : AggPath} {p1 p2 : Nat → Nat → Nat}
   (hh : ∀ x y, (x, y) ∈ pixelsOf path w h bits → p1 x y = p2 x y) :
   fingerprintOf scale path w h bits p1 = fingerprintOf scale path w h bits p2 := by
  have : aggregate path w h bits p1 = aggregate path w h bits p2 := by
    cases path with
    | weighted =>
      simp only [aggregate, weightedAggregate, Aggregate.mk.injEq, and_true]
      apply List.foldl_ext
      intro g p hp
      rw [hh p.1 p.2 hp]
    | exact =>
      simp only [aggregate, exactAggregate, Aggregate.mk.injEq, and_true]
      apply List.flatMap_congr
      intro r hr
      apply List.map_congr_left
      intro c hc
      congr 1
      unfold blockSum
      congr 1
      apply List.map_congr_left
      intro iy hiy
      congr 1
      apply List.map_congr_left
      intro ix hix
      rw [List.mem_range] at hr hc hiy hix
      apply hh
      simp only [pixelsOf, mem_raster]
      constructor
      · calc c * (w / bits) + ix < c * (w/bits) + (w/bits) := by omega
          _ = (c+1) * (w/bits) := by ring
          _ ≤ bits * (w/bits) := Nat.mul_le_mul_right _ hc
      · calc r * (h / bits) + iy < r * (h/bits) + (h/bits) := by omega
          _ = (r+1) * (h/bits) := by ring
          _ ≤ bits * (h/bits) := Nat.mul_le_mul_right _ hr
  simp only [fingerprintOf, this]

/-! ## Operand checks -/

/-- The operand checks as the first failing condition (44_hash_commands.md R201). -/
theorem checkHashArgs_eq (c : Config) (op : HashOp) (o : HashArgs) :
    checkHashArgs c op o =
      if o.src = 0 then some (invalidArgument 1)
      else if o.w = 0 then some (invalidArgument 2)
      else if o.h = 0 then some (invalidArgument 3)
      else if o.bits = 0 then some (invalidArgument 4)
      else if o.bits % 2 = 1 then some (invalidArgument 5)
      else if c.maxBits.toNat < o.bits then some (invalidArgument 6)
      else if o.dst = 0 then some (invalidArgument 7)
      else if pathOf op o.w o.h o.bits = .exact ∧ (o.w / o.bits = 0 ∨ o.h / o.bits = 0) then
        some (invalidArgument 8)
      else none := by
  split_ifs <;> simp_all [checkHashArgs, hashChecks]

/-- The zero-dimension check fires only under HASHQ (40_block_aggregator.md R122). -/
theorem zeroBlock_iff {op : HashOp} {w h bits : Nat} (hw : w ≠ 0) (hh : h ≠ 0) (hb : bits ≠ 0) :
    (pathOf op w h bits = .exact ∧ (w / bits = 0 ∨ h / bits = 0)) ↔ op = .hashq ∧ (w < bits ∨ h < bits) := by
  have hz (n : Nat) : n / bits = 0 ↔ n < bits := by rw [Nat.div_eq_zero_iff]; omega
  rw [hz, hz]
  cases op with
  | hashq => simp [pathOf]
  | hashw => simp [pathOf]
  | hash =>
    simp only [pathOf, reduceCtorEq, false_and, iff_false]
    rintro ⟨h1, h2⟩
    split_ifs at h1 with h3
    rcases h2 with h2 | h2
    · rw [Nat.mod_eq_of_lt h2] at h3; exact hw h3.1
    · rw [Nat.mod_eq_of_lt h2] at h3; exact hh h3.2

/-- The operand checks in the registers of a state (44_hash_commands.md R201). -/
theorem State.checkHashArgs_eq (c : Config) (op : HashOp) (s : State) :
    checkHashArgs c op s.hashArgs =
      if s.srcBase = 0 then some (invalidArgument 1)
      else if s.width.toNat = 0 then some (invalidArgument 2)
      else if s.height.toNat = 0 then some (invalidArgument 3)
      else if s.bits.toNat = 0 then some (invalidArgument 4)
      else if s.bits.toNat % 2 = 1 then some (invalidArgument 5)
      else if c.maxBits.toNat < s.bits.toNat then some (invalidArgument 6)
      else if s.dstBase = 0 then some (invalidArgument 7)
      else if op = .hashq ∧ (s.width.toNat < s.bits.toNat ∨ s.height.toNat < s.bits.toNat) then
        some (invalidArgument 8)
      else none := by
  by_cases h2 : s.width.toNat = 0
  · rw [Machine.checkHashArgs_eq]; simp [h2]
  by_cases h3 : s.height.toNat = 0
  · rw [Machine.checkHashArgs_eq]; simp [h3]
  by_cases h4 : s.bits.toNat = 0
  · rw [Machine.checkHashArgs_eq]; simp [h4]
  rw [Machine.checkHashArgs_eq]
  simp only [State.hashArgs_w, State.hashArgs_h, State.hashArgs_bits, zeroBlock_iff h2 h3 h4]
  rfl

/-- What legal operands satisfy (44_hash_commands.md R201). -/
theorem checkHashArgs_eq_none {c : Config} {op : HashOp} {o : HashArgs} (h : checkHashArgs c op o = none) :
    o.src ≠ 0 ∧ o.w ≠ 0 ∧ o.h ≠ 0 ∧ o.bits ≠ 0 ∧ o.bits % 2 = 0 ∧ o.bits ≤ c.maxBits.toNat ∧ o.dst ≠ 0 := by
  rw [checkHashArgs_eq] at h
  split_ifs at h with h1 h2 h3 h4 h5 h6 h7 h8
  exact ⟨h1, h2, h3, h4, by omega, by omega, h7⟩

/-- The errors the operand checks raise. -/
theorem checkHashArgs_eq_some {c : Config} {op : HashOp} {o : HashArgs} {e : CmdError}
    (h : checkHashArgs c op o = some e) :
    ∃ d : BitVec 8, e = invalidArgument d ∧ 1 ≤ d.toNat ∧ d.toNat ≤ 8 := by
  rw [checkHashArgs_eq] at h
  split_ifs at h <;> (cases h; exact ⟨_, rfl, by decide, by decide⟩)

/-- The bounds legal operands put on a state's grid size. -/
theorem legal_bits {s : State} {c : Config} {op : HashOp} (h : checkHashArgs c op s.hashArgs = none) :
    s.bits.toNat % 2 = 0 ∧ 2 ≤ s.bits.toNat ∧ s.bits.toNat ≤ 254 := by
  have h1 := checkHashArgs_eq_none h
  have h2 : s.bits.toNat ≠ 0 := h1.2.2.2.1
  have h3 : s.bits.toNat % 2 = 0 := h1.2.2.2.2.1
  have := s.bits.isLt
  omega

/-! ## Why a command stops -/

/-- Legal operands never stop at a pixel's index check (40_block_aggregator.md R130). -/
theorem pixelStop_eq {s : State} {c : Config} {op : HashOp} (hl : checkHashArgs c op s.hashArgs = none)
    {path : AggPath} {p : Nat × Nat} (hp : p ∈ pixelsOf path s.width.toNat s.height.toNat s.bits.toNat)
    (c' : Config) : pixelStop c' path s.hashArgs p =
      (List.range 4).findSome? (fun ch => accessStop c' .read (pixAddr s.hashArgs p.1 p.2 ch)) := by
  obtain ⟨x, y⟩ := p
  obtain ⟨hx, hy⟩ := mem_pixelsOf hp
  obtain ⟨-, hb2, hb254⟩ := legal_bits hl
  have hw := s.width.isLt
  have hh := s.height.isLt
  have hr : indicesInRange s.hashArgs.w s.hashArgs.h s.hashArgs.bits x y = true :=
    indicesInRange_of_legal hx hy (Nat.le_of_lt_succ hw) (Nat.le_of_lt_succ hh) hb2 hb254
  unfold pixelStop
  simp only [hr, Bool.not_true, Bool.and_false, Bool.false_eq_true, if_false]
  split
  · next st h => exact h.symm
  · next h => exact h.symm

/-- Everything that stops a hash command before its writes: an operand check, or a pixel read the platform does
not perform. -/
theorem hashReadStop_some {s : State} {c : Config} {op : HashOp} {st : Stop}
    (h : hashReadStop c op s.hashArgs = some st) :
    (∃ e, checkHashArgs c op s.hashArgs = some e ∧ st = .error e) ∨
    (checkHashArgs c op s.hashArgs = none ∧ ∃ x y ch,
      (x, y) ∈ pixelsOf (s.hashPath op) s.width.toNat s.height.toNat s.bits.toNat ∧ ch < 4 ∧
      accessStop c .read (pixAddr s.hashArgs x y ch) = some st) := by
  unfold hashReadStop at h
  split at h
  · next e he => simp only [Option.some.injEq] at h; exact .inl ⟨e, he, h.symm⟩
  · next he =>
    obtain ⟨⟨x, y⟩, hp, hst⟩ := List.exists_of_findSome?_eq_some h
    rw [pixelStop_eq he hp] at hst
    obtain ⟨ch, hch, hst⟩ := List.exists_of_findSome?_eq_some hst
    exact .inr ⟨he, x, y, ch, hp, List.mem_range.mp hch, hst⟩

/-- Legal operands and answered reads stop nothing. -/
theorem hashReadStop_eq_none {s : State} {c : Config} {op : HashOp} (hl : checkHashArgs c op s.hashArgs = none)
    (hr : ∀ x y ch, (x, y) ∈ pixelsOf (s.hashPath op) s.width.toNat s.height.toNat s.bits.toNat → ch < 4 →
      busAnswer c .read (pixAddr s.hashArgs x y ch) = .ok) : hashReadStop c op s.hashArgs = none := by
  cases h : hashReadStop c op s.hashArgs with
  | none => rfl
  | some st =>
    rcases hashReadStop_some h with ⟨e, he, -⟩ | ⟨-, x, y, ch, hp, hch, hst⟩
    · rw [hl] at he; cases he
    · rw [accessStop_of_ok (hr x y ch hp hch)] at hst; cases hst

theorem hashReadStop_of_check {c : Config} {op : HashOp} {o : HashArgs} {e : CmdError}
    (h : checkHashArgs c op o = some e) : hashReadStop c op o = some (.error e) := by
  simp [hashReadStop, h]

/-! ## The writes -/

theorem mem_addressed {o : HashArgs} {fp : List Byte} {p : Word × Byte} :
    p ∈ addressed o fp ↔ ∃ j, fp[j]? = some p.2 ∧ p.1 = fingerprintAddr o j := by
  obtain ⟨a, v⟩ := p
  simp only [addressed, List.mem_map, Prod.exists, List.mem_zipIdx_iff_getElem?, Prod.mk.injEq]
  constructor
  · rintro ⟨w, j, h1, rfl, rfl⟩; exact ⟨j, h1, rfl⟩
  · rintro ⟨j, h1, rfl⟩; exact ⟨v, j, h1, rfl, rfl⟩

/-- Every write a command performs is a fingerprint byte at its place, and a nibble. -/
theorem mem_performedWrites {s : State} {op : HashOp} {p : Word × Byte} (hp : p ∈ s.performedWrites op) :
    ∃ j, j < s.bits.toNat * s.bits.toNat / 4 ∧ (s.fingerprint op)[j]? = some p.2 ∧
      p.1 = fingerprintAddr s.hashArgs j ∧ p.2.toNat < 16 ∧ checkHashArgs s.cfg op s.hashArgs = none := by
  have hp := (List.takeWhile_sublist _).subset hp
  unfold State.plannedWrites at hp
  split at hp
  · simp at hp
  · next hn =>
    have hl : checkHashArgs s.cfg op s.hashArgs = none := by
      cases h : checkHashArgs s.cfg op s.hashArgs with
      | none => rfl
      | some e => rw [hashReadStop_of_check h] at hn; cases hn
    obtain ⟨j, hj, ha⟩ := mem_addressed.mp hp
    have hlt := (List.getElem?_eq_some_iff.mp hj).1
    have hlen : (s.fingerprint op).length = s.bits.toNat * s.bits.toNat / 4 :=
      fingerprintOf_length (legal_bits hl).1 ..
    exact ⟨j, by omega, hj, ha, fingerprintOf_lt (List.mem_of_getElem? hj), hl⟩

/-- The addresses of a fingerprint are distinct. -/
theorem fingerprintAddr_inj {o : HashArgs} {i j : Nat} (hi : i < 2 ^ 32) (hj : j < 2 ^ 32)
    (h : fingerprintAddr o i = fingerprintAddr o j) : i = j := by
  have h1 : BitVec.ofNat 32 i = BitVec.ofNat 32 j := by simpa [fingerprintAddr] using h
  have h2 := congrArg BitVec.toNat h1
  rwa [BitVec.toNat_ofNat, BitVec.toNat_ofNat, Nat.mod_eq_of_lt hi, Nat.mod_eq_of_lt hj] at h2

theorem addressed_eq_map_range (o : HashArgs) (fp : List Byte) :
    (addressed o fp).map Prod.fst = (List.range fp.length).map (fingerprintAddr o) := by
  apply List.ext_getElem <;> simp [addressed]

theorem addressed_nodup {o : HashArgs} {fp : List Byte} (h : fp.length ≤ 2 ^ 32) :
    ((addressed o fp).map Prod.fst).Nodup := by
  rw [addressed_eq_map_range]
  refine List.Nodup.map_on ?_ List.nodup_range
  intro i hi j hj hij
  rw [List.mem_range] at hi hj
  exact fingerprintAddr_inj (by omega) (by omega) hij

theorem addressed_take (o : HashArgs) (fp : List Byte) (n : Nat) :
    (addressed o fp).take n = addressed o (fp.take n) := by
  apply List.ext_getElem <;> simp [addressed]

/-- The bytes a fingerprint replaces, with their places. -/
theorem addressed_replaced (o : HashArgs) (fp : List Byte) (m : Memory) :
    (addressed o fp).map (fun p => (p.1.toNat, m.read p.1.toNat)) =
      (List.range fp.length).map fun j => ((fingerprintAddr o j).toNat, m.read (fingerprintAddr o j).toNat) := by
  simpa [List.map_map, Function.comp_def] using
    congrArg (List.map fun a : Word => (a.toNat, m.read a.toNat)) (addressed_eq_map_range o fp)

/-- The writes a command performs are the first `n` of its fingerprint. -/
theorem performedWrites_eq_take (s : State) (op : HashOp) :
    ∃ n, n ≤ s.bits.toNat * s.bits.toNat / 4 ∧ n ≤ (s.fingerprint op).length ∧
      s.performedWrites op = addressed s.hashArgs ((s.fingerprint op).take n) := by
  unfold State.performedWrites State.plannedWrites
  split
  · exact ⟨0, Nat.zero_le _, Nat.zero_le _, rfl⟩
  · next hn =>
    have hl : checkHashArgs s.cfg op s.hashArgs = none := by
      cases h : checkHashArgs s.cfg op s.hashArgs with
      | none => rfl
      | some e => rw [hashReadStop_of_check h] at hn; cases hn
    have hlen : (s.fingerprint op).length = s.bits.toNat * s.bits.toNat / 4 :=
      fingerprintOf_length (legal_bits hl).1 ..
    have hpre := List.takeWhile_prefix (l := addressed s.hashArgs (s.fingerprint op)) (writeOk s.cfg)
    have hle := hpre.length_le
    simp only [addressed, List.length_map, List.length_zipIdx] at hle
    exact ⟨_, hlen ▸ hle, hle, by rw [← addressed_take]; exact List.prefix_iff_eq_take.mp hpre⟩

theorem performedWrites_nodup (s : State) (op : HashOp) : ((s.performedWrites op).map Prod.fst).Nodup := by
  by_cases hl : checkHashArgs s.cfg op s.hashArgs = none
  · refine List.Nodup.sublist ((List.takeWhile_sublist _).map Prod.fst) ?_
    unfold State.plannedWrites
    split
    · simp
    · refine addressed_nodup ?_
      have hlen : (s.fingerprint op).length = s.bits.toNat * s.bits.toNat / 4 :=
        fingerprintOf_length (legal_bits hl).1 ..
      obtain ⟨-, -, h254⟩ := legal_bits hl
      have : s.bits.toNat * s.bits.toNat ≤ 254 * 254 := Nat.mul_le_mul h254 h254
      omega
  · obtain ⟨e, he⟩ := Option.ne_none_iff_exists'.mp hl
    simp [State.performedWrites, State.plannedWrites, hashReadStop_of_check he]

/-! ## Completion -/

/-- Everything the completion of a hash command can do. -/
theorem finishHash_next {s t : State} {op : HashOp} (h : s.finishHash op = .next t) :
    (s.hashStop op = none ∧
      t = (s.commitWrites (s.performedWrites op)).completeHash (s.hashPath op == .weighted)) ∨
    ∃ e, s.hashStop op = some (.error e) ∧ t = (s.commitWrites (s.performedWrites op)).raise e := by
  unfold State.finishHash at h
  split at h
  · next st hst =>
    obtain ⟨e, rfl, ht⟩ := endWith_next h
    exact .inr ⟨e, hst, ht⟩
  · next hst => exact .inl ⟨hst, by simpa using h.symm⟩

/-- Everything that stops a hash command: an operand check, a pixel read, or a fingerprint write. -/
theorem hashStop_some {s : State} {op : HashOp} {st : Stop} (h : s.hashStop op = some st) :
    (∃ e, checkHashArgs s.cfg op s.hashArgs = some e ∧ st = .error e) ∨
    (∃ k a, accessStop s.cfg k a = some st) := by
  unfold State.hashStop at h
  split at h
  · next st' h' =>
    simp only [Option.some.injEq] at h
    subst h
    rcases hashReadStop_some h' with h1 | ⟨-, x, y, ch, -, -, h1⟩
    · exact .inl h1
    · exact .inr ⟨_, _, h1⟩
  · obtain ⟨p, -, hp⟩ := List.exists_of_findSome?_eq_some h
    exact .inr ⟨_, _, hp⟩

/-- The errors a hash command records: never INDEX_RANGE, an address only with BUS_ERROR. -/
theorem hashStop_error {s : State} {op : HashOp} {e : CmdError} (h : s.hashStop op = some (.error e)) :
    (∃ d : BitVec 8, e = invalidArgument d ∧ 1 ≤ d.toNat ∧ d.toNat ≤ 8) ∨
    (∃ k a, e = ⟨.busError, busDetail k, a⟩) := by
  rcases hashStop_some h with ⟨e', he, h1⟩ | ⟨k, a, h1⟩
  · cases h1; exact .inl (checkHashArgs_eq_some he)
  · rcases accessStop_cases h1 with ⟨-, h2⟩ | ⟨-, h2⟩
    · cases h2; exact .inr ⟨k, a, rfl⟩
    · cases h2

theorem hashStop_of_readStop {s : State} {op : HashOp} {st : Stop}
    (h : hashReadStop s.cfg op s.hashArgs = some st) : s.hashStop op = some st := by simp [State.hashStop, h]

theorem plannedWrites_of_reads {s : State} {op : HashOp} (h : hashReadStop s.cfg op s.hashArgs = none) :
    s.plannedWrites op = addressed s.hashArgs (s.fingerprint op) := by simp [State.plannedWrites, h]

/-- A hash command with nothing to stop it performs every write of its fingerprint. -/
theorem performedWrites_of_no_stop {s : State} {op : HashOp} (h : s.hashStop op = none) :
    checkHashArgs s.cfg op s.hashArgs = none ∧ s.performedWrites op = addressed s.hashArgs (s.fingerprint op) := by
  unfold State.hashStop at h
  split at h
  · cases h
  · next hr =>
    refine ⟨?_, ?_⟩
    · cases hc : checkHashArgs s.cfg op s.hashArgs with
      | none => rfl
      | some e => rw [hashReadStop_of_check hc] at hr; cases hr
    · have hall : ∀ p ∈ s.plannedWrites op, writeOk s.cfg p = true := by
        intro p hp
        have := List.findSome?_eq_none_iff.mp h p hp
        simpa [writeOk] using accessStop_eq_none_iff.mp this
      rw [State.performedWrites, ← plannedWrites_of_reads hr]
      exact List.takeWhile_eq_self_iff.mpr hall

/-- What a performed write leaves at its address: its byte, or, if the host stored there during the command, that
or the byte in memory (20_memory.md R86). -/
theorem commitWrites_read {s : State} {op : HashOp} (hm : s.mem.wf = true) {p : Word × Byte}
    (hp : p ∈ s.performedWrites op) :
    (s.commitWrites (s.performedWrites op)).mem.read p.1.toNat = p.2 ∨
      (s.raced p.1 = true ∧
        (s.commitWrites (s.performedWrites op)).mem.read p.1.toNat = s.mem.read p.1.toNat) := by
  cases hr : s.raced p.1 with
  | false => exact .inl (storeAll_read_mem 0 (performedWrites_nodup s op) hm hp (fun j => by simp [hr]))
  | true =>
    rcases storeAll_read_or (fun j a => s.raced a && !Config.writeChoice s.freeCtr j) 0
      (performedWrites_nodup s op) hm hp with h | h
    · exact .inl h
    · exact .inr ⟨rfl, h⟩

/-- A command that stops before its writes performs none. -/
theorem performedWrites_of_readStop {s : State} {op : HashOp} {st : Stop}
    (h : hashReadStop s.cfg op s.hashArgs = some st) : s.performedWrites op = [] := by
  simp [State.performedWrites, State.plannedWrites, h]

end Sys2Proof.Machine
end

