-- ==== Sys2Proof/Laws/HostOrder.lean ====
section
/-! SUPPORT. What an order of effect keeps of the order of issue (20_memory.md R84, R85, R90). -/

namespace Sys2Proof.Machine

@[simp] theorem issued_nil : issued [] = [] := rfl
@[simp] theorem issued_issue (p : Pending) (acts : List HostAct) : issued (.issue p :: acts) = p :: issued acts := rfl
@[simp] theorem issued_sync (acts : List HostAct) : issued (.sync :: acts) = issued acts := rfl
@[simp] theorem issued_append (l m : List HostAct) : issued (l ++ m) = issued l ++ issued m := by
  simp [issued]

/-- On a coherent platform the program as issued is the only schedule (20_memory.md R90). -/
theorem TakesEffect.of_coherent {c : Config} {acts : List HostAct} {ops : List Pending}
    (hc : c.portCoherent = true) (h : TakesEffect c acts ops) : ops = issued acts := by
  cases h with
  | inOrder => rfl
  | delay hn => simp [hc] at hn
  | advance hn => simp [hc] at hn
  | linger hn => simp [hc] at hn

/-- Swapping two operations of different targets keeps the order within a target. -/
theorem filter_swap {p q : HostOp} (h : p.target ≠ q.target) (t : Option Word) (l r : List HostOp) :
    (l ++ q :: p :: r).filter (fun o => o.target == t) = (l ++ p :: q :: r).filter (fun o => o.target == t) := by
  simp only [List.filter_append, List.filter_cons]
  by_cases h1 : p.target = t
  · have h2 : ¬ q.target = t := fun h2 => h (h1.trans h2.symm)
    simp [h1, h2]
  · simp [h1]

/-- On every platform the accesses to one byte, and the register accesses and resets, keep their order. -/
theorem TakesEffect.same_target {c : Config} {acts : List HostAct} {ops : List Pending}
    (h : TakesEffect c acts ops) (t : Option Word) :
    (ops.map Pending.op).filter (fun o => o.target == t) =
      ((issued acts).map Pending.op).filter (fun o => o.target == t) := by
  induction h with
  | inOrder => rfl
  | @delay pre post _ _ _ _ _ _ hne _ ih =>
    rw [ih]; simpa using filter_swap hne t ((issued pre).map Pending.op) ((issued post).map Pending.op)
  | @advance pre post _ a _ _ _ _ hne _ ih =>
    rw [ih]
    simpa using filter_swap (q := .memLoad a) hne t ((issued pre).map Pending.op) ((issued post).map Pending.op)
  | linger _ _ _ ih => rw [ih]; simp

/-- Every operation takes effect once. -/
theorem TakesEffect.perm {c : Config} {acts : List HostAct} {ops : List Pending} (h : TakesEffect c acts ops) :
    (ops.map Pending.op).Perm ((issued acts).map Pending.op) := by
  induction h with
  | inOrder => exact .refl _
  | delay _ _ _ _ ih => exact ih.trans (by simpa using (List.Perm.swap _ _ _).append_left _)
  | advance _ _ _ ih => exact ih.trans (by simpa using (List.Perm.swap _ _ _).append_left _)
  | linger _ _ _ ih => exact ih.trans (by simp)

/-- Where a synchronisation stands in a program that has `mid`, without one, at a known place. -/
theorem sync_place {l r pre mid post : List HostAct} (hs : HostAct.sync ∉ mid)
    (h : pre ++ (mid ++ post) = l ++ .sync :: r) :
    (∃ m, l = pre ++ (mid ++ m) ∧ post = m ++ .sync :: r) ∨ ∃ m, pre = l ++ .sync :: m ∧ r = m ++ (mid ++ post) := by
  obtain ⟨m, rfl, h'⟩ | ⟨m, rfl, h'⟩ := List.append_eq_append_iff.1 h <;> clear h
  · obtain ⟨n, rfl, h⟩ | ⟨n, rfl, h⟩ := List.append_eq_append_iff.1 h'
    · exact .inl ⟨n, rfl, h⟩
    · cases n with
      | nil => exact .inl ⟨[], by simp, h.symm⟩
      | cons x n =>
        obtain ⟨rfl, -⟩ := List.cons.inj h
        simp at hs
  · cases m with
    | nil =>
      cases mid with
      | nil => exact .inl ⟨[], by simp, h'.symm⟩
      | cons x mid =>
        obtain ⟨rfl, -⟩ := List.cons.inj h'
        simp at hs
    | cons x m =>
      obtain ⟨rfl, h⟩ := List.cons.inj h'
      exact .inr ⟨m, rfl, h⟩

/-- What is issued before a synchronisation takes effect before what is issued after it, on every platform
(20_memory.md R84, 70_reset_and_hazards.md R270). -/
theorem TakesEffect.sync_split {c : Config} {acts : List HostAct} {ops : List Pending}
    (h : TakesEffect c acts ops) : ∀ l r, acts = l ++ .sync :: r →
      ∃ ol or, ops = ol ++ or ∧ TakesEffect c l ol ∧ TakesEffect c r or := by
  induction h with
  | inOrder acts =>
    rintro l r rfl
    exact ⟨issued l, issued r, by simp, .inOrder _, .inOrder _⟩
  | @delay pre post p q e ops hc hp hne _ ih =>
    intro l r h
    obtain ⟨m, rfl, rfl⟩ | ⟨m, rfl, rfl⟩ := sync_place (mid := [.issue p, .issue q]) (by simp) h
    · obtain ⟨ol, or, rfl, h1, h2⟩ := ih (pre ++ .issue ⟨q.early && p.early, q.op⟩ :: .issue ⟨e, p.op⟩ :: m) r (by simp)
      exact ⟨ol, or, rfl, .delay hc hp hne h1, h2⟩
    · obtain ⟨ol, or, rfl, h1, h2⟩ := ih l (m ++ .issue ⟨q.early && p.early, q.op⟩ :: .issue ⟨e, p.op⟩ :: post) (by simp)
      exact ⟨ol, or, rfl, h1, .delay hc hp hne h2⟩
  | @advance pre post p a e e' ops hc hne _ ih =>
    intro l r h
    obtain ⟨m, rfl, rfl⟩ | ⟨m, rfl, rfl⟩ := sync_place (mid := [.issue p, .issue ⟨e, .memLoad a⟩]) (by simp) h
    · obtain ⟨ol, or, rfl, h1, h2⟩ := ih (pre ++ .issue ⟨e', .memLoad a⟩ :: .issue p :: m) r (by simp)
      exact ⟨ol, or, rfl, .advance hc hne h1, h2⟩
    · obtain ⟨ol, or, rfl, h1, h2⟩ := ih l (m ++ .issue ⟨e', .memLoad a⟩ :: .issue p :: post) (by simp)
      exact ⟨ol, or, rfl, h1, .advance hc hne h2⟩
  | @linger pre post op ops hc hp _ ih =>
    intro l r h
    obtain ⟨m, rfl, rfl⟩ | ⟨m, rfl, rfl⟩ := sync_place (mid := [.issue ⟨true, op⟩]) (by simp) h
    · obtain ⟨ol, or, rfl, h1, h2⟩ := ih (pre ++ .issue ⟨false, op⟩ :: m) r (by simp)
      exact ⟨ol, or, rfl, .linger hc hp h1, h2⟩
    · obtain ⟨ol, or, rfl, h1, h2⟩ := ih l (m ++ .issue ⟨false, op⟩ :: post) (by simp)
      exact ⟨ol, or, rfl, h1, .linger hc hp h2⟩

end Sys2Proof.Machine
end

