-- ==== Sys2Proof/Laws/PerInstr.lean ====
section
/-! SUPPORT. Statements made of each instruction as syntax, one lemma per constructor. -/

namespace Sys2Proof.Laws.EncodeDecode

/-- The command's word has RSVD 0, decodes to the command, is the word its table row reads as, and is the
encoding of no other command (30_encoding.md R102 to R104). -/
def Statement (i : Instr) : Prop :=
  i.WellFormed = true ∧ rsvdField (encode i) = 0 ∧ opcodeField (encode i) = opcodeOf i ∧
  decode (encode i) = .ok i ∧ decodeTableWord 32 (encode i).toNat = some i ∧
  ∀ j, encode j = encode i → j = i

theorem nop : Statement .nop := ⟨by decide, by decide, by decide, rfl, rfl, fun j => by cases j <;> decide⟩

theorem hash : Statement .hash := ⟨by decide, by decide, by decide, rfl, rfl, fun j => by cases j <;> decide⟩

theorem hashq : Statement .hashq := ⟨by decide, by decide, by decide, rfl, rfl, fun j => by cases j <;> decide⟩

theorem hashw : Statement .hashw := ⟨by decide, by decide, by decide, rfl, rfl, fun j => by cases j <;> decide⟩

theorem hdist : Statement .hdist := ⟨by decide, by decide, by decide, rfl, rfl, fun j => by cases j <;> decide⟩

theorem clear : Statement .clear := ⟨by decide, by decide, by decide, rfl, rfl, fun j => by cases j <;> decide⟩

end Sys2Proof.Laws.EncodeDecode
end

