-- ==== Sys2Proof/Laws/Quantizer.lean ====
section
/-! SUPPORT. The Quantizer: the sort keeps the length, and the bit of a value below the median. -/

namespace Sys2Proof.Machine

open F64

@[simp] theorem insertAsc_length (v : F64) (l : List F64) : (insertAsc v l).length = l.length + 1 := by
  induction l with
  | nil => rfl
  | cons u l ih => simp only [insertAsc]; split <;> simp [ih]

@[simp] theorem sortAsc_length (l : List F64) : (sortAsc l).length = l.length := by
  induction l with
  | nil => rfl
  | cons u l ih => simp [sortAsc, ih]

/-- Below the median the bit follows the rounded difference and half (41_quantizer.md R153). -/
theorem decideBit_of_lt {m half v : F64} (h : v.units < m.units) :
    decideBit m half v = (decide (roundUnits (m.units - v.units).toNat 1 < scale) && lt half m) := by
  have h1 : lt m v = false := by simp [lt]; omega
  rw [decideBit, abs_sub_of_lt h, h1, one_eq]; simp

end Sys2Proof.Machine
end

