-- ==== Sys2Proof/Laws/Step.lean ====
section
/-! SUPPORT. Everything a step can do, said once: inversion of the engine's turn, of each instruction, of each
host operation, and of the step. -/

namespace Sys2Proof.Machine

/-! ## The engine's turn -/

/-- The engine's turn in a running phase ends the command: it completes, or an error is raised. -/
theorem finish_next {s t : State} (hb : s.busy = true) (h : s.finish = .next t) :
    (∃ op r, s.phase = .run (.hash op) r ∧ s.hashStop op = none ∧
      t = (s.commitWrites (s.performedWrites op)).completeHash (s.hashPath op == .weighted)) ∨
    (∃ op r e, s.phase = .run (.hash op) r ∧ s.hashStop op = some (.error e) ∧
      t = (s.commitWrites (s.performedWrites op)).raise e) ∨
    (∃ r, s.phase = .run .hdist r ∧ distStop s.cfg s.distArgs = none ∧
      t = (s.commitWrites []).completeDistance s.distance) ∨
    (∃ r e, s.phase = .run .hdist r ∧ distStop s.cfg s.distArgs = some (.error e) ∧
      t = (s.commitWrites []).raise e) := by
  obtain ⟨op, r, hp⟩ := (State.busy_eq_true_iff s).mp hb
  cases op with
  | hash op =>
    have h : s.finishHash op = .next t := by simpa [State.finish, hp] using h
    rcases finishHash_next h with ⟨h1, h2⟩ | ⟨e, h1, h2⟩
    · exact .inl ⟨op, r, hp, h1, h2⟩
    · exact .inr (.inl ⟨op, r, e, hp, h1, h2⟩)
  | hdist =>
    have h : s.finishDistance = .next t := by simpa [State.finish, hp] using h
    rcases finishDistance_next h with ⟨h1, h2⟩ | ⟨e, h1, h2⟩
    · exact .inr (.inr (.inl ⟨r, hp, h1, h2⟩))
    · exact .inr (.inr (.inr ⟨r, e, hp, h1, h2⟩))

/-- What a running command does does not depend on the host operations still to come. -/
theorem finish_withInputs {s t : State} (l : List Pending) (h : s.finish = .next t) :
    (s.withInputs l).finish = .next (t.withInputs l) := by
  cases hb : s.busy with
  | false =>
    have hp := (State.busy_eq_false_iff s).mp hb
    obtain rfl : s = t := by simpa [State.finish, hp] using h
    simp [State.finish, hp]
  | true =>
    have hhash (op : HashOp) : (s.withInputs l).hashStop op = s.hashStop op := rfl
    have hdist : distStop (s.withInputs l).cfg (s.withInputs l).distArgs = distStop s.cfg s.distArgs := rfl
    rcases finish_next hb h with ⟨op, r, hp, hs, rfl⟩ | ⟨op, r, e, hp, hs, rfl⟩ | ⟨r, hp, hs, rfl⟩ |
      ⟨r, e, hp, hs, rfl⟩
    · simp only [State.finish, State.withInputs_phase, hp, State.finishHash, hhash, hs]; rfl
    · simp only [State.finish, State.withInputs_phase, hp, State.finishHash, hhash, hs]; rfl
    · simp only [State.finish, State.withInputs_phase, hp, State.finishDistance, hdist, hs]; rfl
    · simp only [State.finish, State.withInputs_phase, hp, State.finishDistance, hdist, hs]; rfl

/-- A stop that ends a command faults only if it is an access the platform never answers. -/
theorem endWith_fault {c : Config} {st : Stop} {s : State} {f : Fault} (h : s.endWith st = .fault f)
    (hst : (∃ e, st = .error e) ∨ ∃ k a, accessStop c k a = some st) :
    ∃ k a, f = .portSilent a ∧ busAnswer c k a = .silent := by
  rcases hst with ⟨e, rfl⟩ | ⟨k, a, ha⟩
  · simp [State.endWith] at h
  · rcases accessStop_cases ha with ⟨-, rfl⟩ | ⟨hs, rfl⟩
    · simp [State.endWith] at h
    · exact ⟨k, a, by simpa [State.endWith] using h.symm, hs⟩

/-- An engine's turn never refuses, and faults only on an access the platform never answers. -/
theorem finish_stops {s : State} :
    (∀ r, s.finish ≠ .refused r) ∧
    ∀ f, s.finish = .fault f → ∃ k a, f = .portSilent a ∧ busAnswer s.cfg k a = .silent := by
  have hend (st : Stop) (s : State) (r : Refusal) : s.endWith st ≠ .refused r := by
    cases st <;> simp [State.endWith]
  constructor
  · intro r
    unfold State.finish
    split
    · simp
    · unfold State.finishHash; split
      · exact hend _ _ r
      · simp
    · unfold State.finishDistance; split
      · exact hend _ _ r
      · simp
  · intro f h
    unfold State.finish at h
    split at h
    · simp at h
    · unfold State.finishHash at h
      split at h
      · next st hst => exact endWith_fault h ((hashStop_some hst).imp (fun ⟨e, he⟩ => ⟨e, he.2⟩) id)
      · simp at h
    · unfold State.finishDistance at h
      split at h
      · next st hst =>
        exact endWith_fault h ((distStop_some hst).imp (fun ⟨e, he⟩ => ⟨e, he.2⟩) (fun ⟨_, a, ha⟩ => ⟨_, a, ha⟩))
      · simp at h

/-! ## Instructions -/

/-- The command a running phase belongs to. -/
def runOpOf : Instr → Option RunOp
  | .nop => none
  | .hash => some (.hash .hash)
  | .hashq => some (.hash .hashq)
  | .hashw => some (.hash .hashw)
  | .hdist => some .hdist
  | .clear => none

theorem exec_of_busy {s : State} (i : Instr) (hb : s.busy = true) : exec i s = .next s.overrun := by
  cases i <;> simp [exec, execNop, execHash, execHashq, execHashw, execHdist, execClear, State.ifIdle,
    State.launch, hb]

theorem exec_eq_launch {i : Instr} {op : RunOp} (h : runOpOf i = some op) (s : State) :
    exec i s = s.launch op := by
  cases i <;> simp [runOpOf] at h <;> subst h <;> rfl

theorem exec_nop {s : State} (hb : s.busy = false) : exec .nop s = .next s := by
  simp [exec, execNop, State.ifIdle, hb]

theorem exec_clear {s : State} (hb : s.busy = false) : exec .clear s = .next s.clearRecord := by
  simp [exec, execClear, State.ifIdle, hb]

/-- With no host operation due before completion, a command that runs is accepted and runs to its end. -/
theorem exec_of_quiet {i : Instr} {op : RunOp} (h : runOpOf i = some op) {s : State} (hb : s.busy = false)
    (hq : s.quiet = true) : exec i s = (s.accept op).finish := by
  rw [exec_eq_launch h, launch_of_idle op hb hq]

/-- What the host may still read after a command that runs to its end at once: acceptance has cleared the record. -/
theorem accept_remembered (s : State) (op : RunOp) (ws : List (Word × Byte)) :
    (s.accept op).remembered ws =
      { dist := s.dist :: s.unseen.dist
        info := (s.infoValid, s.infoPath) :: s.unseen.info
        records := [⟨.none, 0, 0⟩]
        bytes := ws.map (fun p => (p.1.toNat, s.mem.read p.1.toNat)) ++ s.unseen.bytes } := rfl

/-- An error of HDIST changes the record and DONE alone (60_exceptions.md R230), and what the host may read until it
observes that. -/
theorem raise_accept_hdist {s : State} (hb : s.busy = false) (e : CmdError) :
    ((s.accept .hdist).commitWrites []).raise e =
      { s with
        errCode := e.code, errDetail := e.detail, errAddr := e.addr, done := true
        unseen := (s.accept .hdist).remembered [] } := by
  simp [State.raise, State.accept, State.commitWrites, storeAll, State.runsHash, (State.busy_eq_false_iff s).mp hb]

/-- An HDIST without error changes DIST, DONE and the cleared record alone, and what the host may read until it
observes that. -/
theorem completeDistance_accept {s : State} (hb : s.busy = false) (d : Nat) :
    ((s.accept .hdist).commitWrites []).completeDistance d =
      { s with
        dist := BitVec.ofNat 32 d
        errCode := .none, errDetail := 0, errAddr := 0, done := true
        unseen := (s.accept .hdist).remembered [] } := by
  simp [State.completeDistance, State.accept, State.commitWrites, storeAll, (State.busy_eq_false_iff s).mp hb]

/-- An error of a hash command changes the record, DONE, INFO and the bytes already written
(60_exceptions.md R230), and what the host may read until it observes that. -/
theorem raise_accept_hash {s : State} (op : HashOp) (ws : List (Word × Byte)) (e : CmdError)
    (hb : s.busy = false) :
    ((s.accept (.hash op)).commitWrites ws).raise e =
      { s with
        mem := ((s.accept (.hash op)).commitWrites ws).mem
        errCode := e.code, errDetail := e.detail, errAddr := e.addr
        infoValid := false, infoPath := false, done := true
        unseen := (s.accept (.hash op)).remembered ws } := by
  simp [State.raise, State.runsHash, State.accept, State.commitWrites, (State.busy_eq_false_iff s).mp hb]

/-- A hash command without error changes INFO, DONE, the cleared record and the bytes written, and what the host may
read until it observes that. -/
theorem completeHash_accept {s : State} (op : HashOp) (ws : List (Word × Byte)) (weighted : Bool)
    (hb : s.busy = false) :
    ((s.accept (.hash op)).commitWrites ws).completeHash weighted =
      { s with
        mem := ((s.accept (.hash op)).commitWrites ws).mem
        infoValid := true, infoPath := weighted
        errCode := .none, errDetail := 0, errAddr := 0, done := true
        unseen := (s.accept (.hash op)).remembered ws } := by
  simp [State.completeHash, State.accept, State.commitWrites, (State.busy_eq_false_iff s).mp hb]

/-- Everything a hash command can do that runs to its end: the whole next state but the bytes in memory, and those
as the writes performed. -/
theorem exec_hash_next {i : Instr} {op : HashOp} (hi : runOpOf i = some (.hash op)) {s t : State}
    (hb : s.busy = false) (hq : s.quiet = true) (h : exec i s = .next t) :
    t.mem = ((s.accept (.hash op)).commitWrites ((s.accept (.hash op)).performedWrites op)).mem ∧
    t.unseen = (s.accept (.hash op)).remembered ((s.accept (.hash op)).performedWrites op) ∧
    (((s.accept (.hash op)).hashStop op = none ∧
      t = { s with
        mem := t.mem, done := true, errCode := .none, errDetail := 0, errAddr := 0
        infoValid := true, infoPath := s.hashPath op == .weighted, unseen := t.unseen }) ∨
    ∃ e, (s.accept (.hash op)).hashStop op = some (.error e) ∧ e.code ≠ .none ∧
      t = { s with
        mem := t.mem, done := true, errCode := e.code, errDetail := e.detail, errAddr := e.addr
        infoValid := false, infoPath := false, unseen := t.unseen }) := by
  rw [exec_of_quiet hi hb hq, finish_accept_hash] at h
  rcases finishHash_next h with ⟨h1, rfl⟩ | ⟨e, h1, rfl⟩
  · refine ⟨rfl, rfl, .inl ⟨h1, ?_⟩⟩
    rw [completeHash_accept _ _ _ hb]; rfl
  · refine ⟨rfl, rfl, .inr ⟨e, h1, ?_, ?_⟩⟩
    · rcases hashStop_error h1 with ⟨d, rfl, _⟩ | ⟨k, a, rfl⟩ <;> simp [invalidArgument]
    · rw [raise_accept_hash _ _ _ hb]

/-- Everything an instruction can do in an idle engine. -/
theorem exec_next {s t : State} {i : Instr} (hb : s.busy = false) (h : exec i s = .next t) :
    (i = .nop ∧ t = s) ∨ (i = .clear ∧ t = s.clearRecord) ∨
    ∃ op, runOpOf i = some op ∧
      ((s.quiet = false ∧ t = s.accept op) ∨ (s.quiet = true ∧ (s.accept op).finish = .next t)) := by
  cases hi : runOpOf i with
  | none =>
    cases i <;> simp [runOpOf] at hi
    · rw [exec_nop hb] at h; exact .inl ⟨rfl, by simpa using h.symm⟩
    · rw [exec_clear hb] at h; exact .inr (.inl ⟨rfl, by simpa using h.symm⟩)
  | some op =>
    rw [exec_eq_launch hi] at h
    refine .inr (.inr ⟨op, rfl, ?_⟩)
    cases hq : s.quiet with
    | false => rw [launch_of_overlap op hb hq] at h; exact .inl ⟨rfl, by simpa using h.symm⟩
    | true => rw [launch_of_idle op hb hq] at h; exact .inr ⟨rfl, h⟩

/-- An instruction refuses nothing, and faults only as a command that runs, in an idle engine, on an access the
platform never answers. -/
theorem exec_stops {s : State} (i : Instr) :
    (∀ r, exec i s ≠ .refused r) ∧
    ∀ f, exec i s = .fault f → s.busy = false ∧ (∃ op, runOpOf i = some op) ∧
      ∃ k a, f = .portSilent a ∧ busAnswer s.cfg k a = .silent := by
  cases hb : s.busy with
  | true => rw [exec_of_busy i hb]; simp
  | false =>
    cases hi : runOpOf i with
    | none =>
      cases i <;> simp [runOpOf] at hi
      · rw [exec_nop hb]; simp
      · rw [exec_clear hb]; simp
    | some op =>
      rw [exec_eq_launch hi]
      cases hq : s.quiet with
      | false => rw [launch_of_overlap op hb hq]; simp
      | true =>
        rw [launch_of_idle op hb hq]
        exact ⟨finish_stops.1, fun f h => ⟨rfl, ⟨op, rfl⟩, (finish_stops (s := s.accept op)).2 f h⟩⟩

/-! ## The host's operations -/

/-- The register an offset names, and the offset a register has (10_state.md R33). -/
theorem regAt_offset (r : Reg) : regAt r.offset = some r := by cases r <;> decide

theorem regAt_eq_some {off : BitVec 8} {r : Reg} (h : regAt off = some r) : off = r.offset := by
  have := List.find?_some h
  simpa using (beq_iff_eq.mp this).symm

theorem offset_aligned (r : Reg) : alignedAccess r.offset 4 = true := by cases r <;> decide

theorem regAt_reserved {off : BitVec 8} (h : 0x44 ≤ off.toNat) : regAt off = none := by
  unfold regAt
  rw [List.find?_eq_none]
  intro r _
  have : off ≠ r.offset := by
    rintro rfl
    cases r <;> simp [Reg.offset] at h
  simpa using this.symm

/-- Everything a host operation can do. -/
theorem hostTurn_next {op : HostOp} {s t : State} (h : hostTurn op s = .next t) :
    (∃ off v, op = .regWrite off 4 v ∧ alignedAccess off 4 = true ∧ hostWrite off v s = .next t) ∨
    (∃ off, op = .regRead off 4 ∧ alignedAccess off 4 = true ∧ t = hostRead off s) ∨
    (∃ a v, op = .memStore a v ∧ t = hostStore a v s) ∨
    (∃ a, op = .memLoad a ∧ t = hostLoad a s) ∨
    (op = .seeIrq ∧ t = seeIrq s) ∨
    (op = .reset ∧ t = resetEngine s) := by
  have hsize {off : BitVec 8} {size : Nat} (ha : alignedAccess off size = true) : size = 4 := by
    simp only [alignedAccess, Bool.and_eq_true, beq_iff_eq] at ha; exact ha.1
  cases op with
  | regWrite off size v =>
    simp only [hostTurn] at h
    split_ifs at h with ha
    obtain rfl := hsize ha
    exact .inl ⟨off, v, rfl, ha, h⟩
  | regRead off size =>
    simp only [hostTurn] at h
    split_ifs at h with ha
    obtain rfl := hsize ha
    exact .inr (.inl ⟨off, rfl, ha, by simpa using h.symm⟩)
  | memStore a v => exact .inr (.inr (.inl ⟨a, v, rfl, by simpa [hostTurn] using h.symm⟩))
  | memLoad a => exact .inr (.inr (.inr (.inl ⟨a, rfl, by simpa [hostTurn] using h.symm⟩)))
  | seeIrq => exact .inr (.inr (.inr (.inr (.inl ⟨rfl, by simpa [hostTurn] using h.symm⟩))))
  | reset => exact .inr (.inr (.inr (.inr (.inr ⟨rfl, by simpa [hostTurn] using h.symm⟩))))

/-- Everything a host write to the register block can do. -/
theorem hostWrite_next {off : BitVec 8} {v : Word} {s t : State} (h : hostWrite off v s = .next t) :
    (off = 0x0C ∧ submitWord v s = .next t) ∨ (∃ r, r ≠ .cmd ∧ off = r.offset ∧ t = s.writeReg r v) ∨
    (regAt off = none ∧ t = s) := by
  unfold hostWrite at h
  split at h
  · next hr => exact .inl ⟨regAt_eq_some hr, h⟩
  · next r hne hr => exact .inr (.inl ⟨r, hne, regAt_eq_some hr, by simpa using h.symm⟩)
  · next hr => exact .inr (.inr ⟨hr, by simpa using h.symm⟩)

/-- Everything a word written to CMD can do. -/
theorem submitWord_next {w : Word} {s t : State} (h : submitWord w s = .next t) :
    (s.busy = true ∧ t = s.overrun) ∨ (s.busy = false ∧ ∃ i, decode w = .ok i ∧ exec i s = .next t) ∨
    (s.busy = false ∧ ∃ r, decode w = .error r ∧ t = s.rejectWord r) := by
  unfold submitWord at h
  split_ifs at h with hb
  · exact .inl ⟨hb, by simpa using h.symm⟩
  · have hb : s.busy = false := by simpa using hb
    split at h
    · next i hi => exact .inr (.inl ⟨hb, i, hi, h⟩)
    · next r hr => exact .inr (.inr ⟨hb, r, hr, by simpa using h.symm⟩)

/-- A host operation faults only where it submits, to an idle engine, a command that meets an access the platform
never answers. -/
theorem hostTurn_fault {op : HostOp} {s : State} {f : Fault} (h : hostTurn op s = .fault f) :
    s.busy = false ∧ (∃ w i, op = .regWrite 0x0C 4 w ∧ decode w = .ok i ∧ ∃ o, runOpOf i = some o) ∧
      ∃ k a, f = .portSilent a ∧ busAnswer s.cfg k a = .silent := by
  cases op with
  | regWrite off size v =>
    simp only [hostTurn] at h
    split_ifs at h with ha
    obtain rfl : size = 4 := by simp [alignedAccess] at ha; exact ha.1
    unfold hostWrite at h
    split at h
    · next hr =>
      obtain rfl : off = 0x0C := regAt_eq_some hr
      unfold submitWord at h
      split_ifs at h
      split at h
      · next i hi =>
        obtain ⟨hb, ho, hf⟩ := (exec_stops i).2 f h
        exact ⟨hb, ⟨v, i, rfl, hi, ho⟩, hf⟩
      · simp at h
    · simp at h
    · simp at h
  | regRead off size =>
    simp only [hostTurn] at h
    split_ifs at h
  | memStore a v => simp [hostTurn] at h
  | memLoad a => simp [hostTurn] at h
  | seeIrq => simp [hostTurn] at h
  | reset => simp [hostTurn] at h

/-! ## The step -/

theorem step_of_busy_quiet {s : State} (hb : s.busy = true) (hq : s.quiet = true) : step s = s.finish := by
  simp [step, turn, hb, hq]

theorem step_of_cons {s : State} {p : Pending} {rest : List Pending} (hi : s.inputs = p :: rest)
    (hm : (s.busy && s.quiet) = false) : step s = hostTurn p.op (s.withInputs rest) := by
  simp [step, turn, hm, hi]

/-- A step whose next host operation is `op`, marked early, is that operation. -/
theorem step_of_op (op : HostOp) (s : State) :
    step (s.withInputs (⟨true, op⟩ :: s.inputs)) = hostTurn op s := by
  rw [step_of_cons (p := ⟨true, op⟩) (rest := s.inputs) rfl (by simp)]; simp

/-- A host write to a register, by the register's name. -/
theorem hostTurn_write (r : Reg) (v : Word) (s : State) :
    hostTurn (.regWrite r.offset 4 v) s = if r = .cmd then submitWord v s else .next (s.writeReg r v) := by
  simp only [hostTurn, offset_aligned, if_true, hostWrite, regAt_offset]
  cases r <;> simp

/-- A host read of a register, by the register's name. -/
theorem hostTurn_read (r : Reg) (s : State) : hostTurn (.regRead r.offset 4) s = .next (hostRead r.offset s) := by
  simp [hostTurn, offset_aligned]

/-- A register answers its word, but for a result that is not settled. -/
theorem hostReadReg_settled {r : Reg} {s : State} (h : r.isResult = true → s.unsettled = false) :
    hostReadReg r s = s.readReg r := by
  cases hr : r.isResult with
  | false => cases r <;> simp [Reg.isResult] at hr <;> simp [hostReadReg, Unseen.words, comingWords, Reg.isResult]
  | true =>
    obtain ⟨hb, hu⟩ : s.busy = false ∧ s.unseen = .empty := by simpa [State.unsettled] using h hr
    cases r <;> simp [hostReadReg, Unseen.words, comingWords, hb, hu, Unseen.empty]

/-- Everything a host read of a register can answer (93_implementation_defined.md row 16). -/
theorem hostReadReg_cases (r : Reg) (s : State) :
    hostReadReg r s = s.readReg r ∨ hostReadReg r s ∈ s.unseen.words r ∨
    (s.busy = true ∧ r.isResult = true ∧ ∃ t, s.finish = .next t ∧ hostReadReg r s = t.readReg r) := by
  rcases pickHeld_mem (s.readReg r) (s.unseen.words r ++ comingWords r s) (Config.resultChoice s.freeCtr) with h | h
  · exact .inl h
  rcases List.mem_append.mp h with h | h
  · exact .inr (.inl h)
  change hostReadReg r s ∈ comingWords r s at h
  unfold comingWords at h
  split_ifs at h with hc
  · rw [Bool.and_eq_true] at hc
    split at h
    · next t ht => exact .inr (.inr ⟨hc.1, hc.2, t, ht, List.mem_singleton.mp h⟩)
    all_goals cases h
  · cases h

/-- A read of a register that is not STATUS, and no result or a settled one, answers its word and changes nothing
else. -/
theorem hostRead_settled {r : Reg} {s : State} (hs : r ≠ .status) (h : r.isResult = true → s.unsettled = false) :
    hostRead r.offset s = s.answer (s.readReg r) := by
  have hc : (r.isResult && s.unsettled) = false := by cases hr : r.isResult <;> simp_all
  simp [hostRead, hostReadWord, regAt_offset, hs, hostReadReg_settled h, State.answer, hc]

/-- A host load answers the byte in memory, one the running command writes there, or one that a completion replaced
unseen (20_memory.md R86, 93_implementation_defined.md row 16). -/
theorem hostLoadByte_cases (a : Word) (s : State) :
    hostLoadByte a s = s.mem.read a.toNat ∨ (a, hostLoadByte a s) ∈ s.engineWrites ∨
    (a.toNat, hostLoadByte a s) ∈ s.unseen.bytes := by
  rcases pickHeld_mem (s.mem.read a.toNat) (otherBytes a s) (Config.loadChoice s.freeCtr) with h | h
  · exact .inl h
  rcases List.mem_append.mp h with h | h
  · obtain ⟨⟨b, v⟩, hm, hv⟩ := List.mem_map.mp h
    obtain rfl : b = a := by simpa using (List.mem_filter.mp hm).2
    exact .inr (.inl (by rw [hostLoadByte, ← hv]; exact List.mem_of_mem_filter hm))
  · obtain ⟨⟨b, v⟩, hm, hv⟩ := List.mem_map.mp h
    obtain rfl : b = a.toNat := by simpa using (List.mem_filter.mp hm).2
    exact .inr (.inr (by rw [hostLoadByte, ← hv]; exact List.mem_of_mem_filter hm))

/-- Everything a step can do: the engine moves, the machine waits, or the host makes its next operation. -/
theorem step_cases (s : State) :
    (s.busy = true ∧ s.quiet = true ∧ step s = s.finish) ∨
    (s.busy = false ∧ s.inputs = [] ∧ step s = .next s) ∨
    (∃ p rest, s.inputs = p :: rest ∧ (s.busy && s.quiet) = false ∧
      step s = hostTurn p.op (s.withInputs rest)) := by
  cases hm : (s.busy && s.quiet) with
  | true =>
    rw [Bool.and_eq_true] at hm
    exact .inl ⟨hm.1, hm.2, step_of_busy_quiet hm.1 hm.2⟩
  | false =>
    cases hi : s.inputs with
    | nil =>
      have hq : s.quiet = true := by simp [State.quiet, hi]
      rw [hq, Bool.and_true] at hm
      exact .inr (.inl ⟨hm, rfl, by simp [step, turn, hm, hi]⟩)
    | cons p rest => exact .inr (.inr ⟨p, rest, rfl, rfl, step_of_cons hi hm⟩)

end Sys2Proof.Machine
end

