-- ==== Sys2Proof/Tests/Slice0.lean ====
section
/-! SUPPORT. Tests with results from the spec's vectors (95_test_vectors.md), ill-formed terms that are
refused, and for each statement with hypotheses a state that meets them all. -/

namespace Sys2Proof.Tests

set_option Elab.async false

open Sys2Proof.Machine Sys2Proof.Claims

/-! ## Small states -/

def black : List Byte := [0x00, 0x00, 0x00, 0xFF]
def white : List Byte := [0xFF, 0xFF, 0xFF, 0xFF]
def grey : List Byte := [100, 100, 100, 0xFF]

/-- An idle engine with an image at 0x1000, its size, and the destination 0x2000. -/
def withImage (w h bits : Nat) (pixels : List (List Byte)) : State :=
  { State.reset with
    width := BitVec.ofNat 16 w, height := BitVec.ofNat 16 h, bits := BitVec.ofNat 8 bits
    srcBase := 0x1000, dstBase := 0x2000 }.withBytes 0x1000 pixels.flatten

/-- The image of P1 (V2.1): 4×4, left half black, right half white, `bits` 2. -/
def halfWhite : State := withImage 4 4 2 (List.replicate 4 [black, black, white, white]).flatten

/-- The image of V2.3: 5×4, columns black, black, grey, grey, white, `bits` 2. -/
def fiveColumns : State := withImage 5 4 2 (List.replicate 4 [black, black, grey, grey, white]).flatten

/-- P3: the fingerprints deadbeef and f00fba11. -/
def twoPrints : State :=
  ({ State.reset with aBase := 0x3000, aLen := 8, bBase := 0x3100, bLen := 8 }.withBytes 0x3000
    [0x0d, 0x0e, 0x0a, 0x0d, 0x0b, 0x0e, 0x0e, 0x0f]).withBytes 0x3100
    [0x0f, 0x00, 0x00, 0x0f, 0x0b, 0x0a, 0x01, 0x01]

/-- The platform answers one kind of access at one address with `answer`. -/
def withRegion (a : Word) (k : AccessKind) (answer : Answer) (s : State) : State :=
  { s with cfg := { s.cfg with bus := [⟨a, 1, k, answer⟩] } }

/-- The busy engine: P1 after its HASH was accepted. -/
def running : State := halfWhite.accept (.hash .hash)

/-- The outcome is a next state that satisfies `P`. -/
def nextIs (P : State → Bool) (o : Host.Outcome State Fault Refusal) : Bool :=
  match o with
  | .next t => P t
  | .fault _ => false
  | .refused _ => false

theorem exists_of_nextIs {P : State → Bool} {o : Host.Outcome State Fault Refusal} (h : nextIs P o = true) :
    ∃ t, o = .next t ∧ P t = true := by
  cases o with
  | next t => exact ⟨t, rfl, h⟩
  | fault f => simp [nextIs] at h
  | refused r => simp [nextIs] at h

/-! ## Ill-formed terms are refused -/

theorem test_wellFormed_size : (HostOp.regWrite 0x0C 2 0).WellFormed = false := by decide
theorem test_wellFormed_offset : (HostOp.regRead 0x0A 4).WellFormed = false := by decide
theorem test_wellFormed_access : (HostOp.regRead 0x08 4).WellFormed = true := by decide
theorem test_config_odd : ({ Config.reference with maxBits := 33 } : Config).wf = false := by decide
theorem test_config_small : ({ Config.reference with maxBits := 14 } : Config).wf = false := by decide
theorem test_config_large : ({ Config.reference with maxBits := 255 } : Config).wf = false := by decide
theorem test_config_bounds : Config.reference.wf = true ∧ ({ Config.reference with maxBits := 16 } : Config).wf = true ∧
    ({ Config.reference with maxBits := 254 } : Config).wf = true := by decide
theorem test_memory_unsorted : Memory.wf [(5, 1), (3, 1)] = false := by decide
theorem test_memory_twice : Memory.wf [(3, 1), (3, 2)] = false := by decide
theorem test_memory_blank : Memory.wf [(3, 0)] = false := by decide
theorem test_memory_outside : Memory.wf [(2 ^ 32, 1)] = false := by decide

/-! ## Decoding (opcode_table.json, 30_encoding.md R102 to R104): each word bit by bit -/

theorem test_decode_nop : decode 0b00000000000000000000000000000000 = .ok .nop := rfl
theorem test_decode_hash : decode 0b00000000000000000000000000000001 = .ok .hash := rfl
theorem test_decode_hashq : decode 0b00000000000000000000000000000010 = .ok .hashq := rfl
theorem test_decode_hashw : decode 0b00000000000000000000000000000011 = .ok .hashw := rfl
theorem test_decode_hdist : decode 0b00000000000000000000000000000100 = .ok .hdist := rfl
theorem test_decode_clear : decode 0b00000000000000000000000000000101 = .ok .clear := rfl
theorem test_decode_reserved_first : decode 0x00000006 = .error .reservedOpcode := rfl
theorem test_decode_reserved_last : decode 0x0000000F = .error .reservedOpcode := rfl
theorem test_decode_rsvd_low : decode 0x00000010 = .error .reservedField := rfl
theorem test_decode_rsvd_high : decode 0x80000001 = .error .reservedField := rfl
theorem test_decodeTableWord : decodeTableWord 32 3 = some .hashw ∧ decodeTableWord 32 6 = none := ⟨rfl, rfl⟩

/-! ## One step per instruction -/

/-- V10.1. -/
theorem test_nop : nextIs (fun t => t.readReg .status == 0x2 && t.readReg .err == 0)
    (step ({ State.reset with done := true }.withCommand 0x00000000)) = true := by decide

/-- V10.2. -/
theorem test_clear : nextIs (fun t => t.readReg .status == 0 && t.readReg .err == 0 && t.readReg .errAddr == 0)
    (step ({ State.reset with done := true, errCode := .invalidArgument, errDetail := 4 }.withCommand 0x00000005))
      = true := by decide

/-- V8.1, P1. -/
theorem test_hash_exact :
    nextIs (fun t => t.mem.read 0x2000 == 0x05 && t.mem.read 0x2001 == 0 && t.readReg .status == 0x2 &&
        t.readReg .info == 0x2)
      (step (halfWhite.withCommand 0x00000001)) = true := by decide +kernel

/-- V8.12: dimensions that do not divide take the weighted path. -/
theorem test_hash_weighted :
    nextIs (fun t => t.mem.read 0x2000 == 0x08 && t.readReg .status == 0x2 && t.readReg .info == 0x3)
      (step ((withImage 1 1 2 [white]).withCommand 0x00000001)) = true := by decide +kernel

/-- V8.2: the last column is ignored. -/
theorem test_hashq :
    nextIs (fun t => t.mem.read 0x2000 == 0x00 && t.readReg .status == 0x2 && t.readReg .info == 0x2)
      (step (fiveColumns.withCommand 0x00000002)) = true := by decide +kernel

/-- V11.8. -/
theorem test_hashq_zero_block :
    nextIs (fun t => t.readReg .err == 0x0801 && t.readReg .status == 0x6 && t.readReg .info == 0)
      (step ({ halfWhite with width := 1 }.withCommand 0x00000002)) = true := by decide

/-- V5.1. -/
theorem test_hashw :
    nextIs (fun t => t.mem.read 0x2000 == 0x05 && t.readReg .status == 0x2 && t.readReg .info == 0x3)
      (step (halfWhite.withCommand 0x00000003)) = true := by decide +kernel

/-- V11.11, under HASHW: the failing write leaves the byte. -/
theorem test_hashw_write_error :
    nextIs (fun t => t.mem.read 0x2000 == 0 && t.readReg .err == 0x0205 && t.readReg .errAddr == 0x2000 &&
        t.readReg .status == 0x6 && t.readReg .info == 0)
      (step ((withRegion 0x2000 .write .error halfWhite).withCommand 0x00000003)) = true := by decide +kernel

/-- P3: the first source vector. -/
theorem test_hdist : nextIs (fun t => t.readReg .dist == 15 && t.readReg .status == 0x2 && t.readReg .info == 0)
    (step (twoPrints.withCommand 0x00000004)) = true := by decide +kernel

/-- V9.11. -/
theorem test_hdist_bus_error :
    nextIs (fun t => t.readReg .err == 0x0105 && t.readReg .errAddr == 0x3002 && t.readReg .dist == 7)
      (step ((withRegion 0x3002 .read .error { twoPrints with dist := 7 }).withCommand 0x00000004)) = true := by
  decide +kernel

/-! ## The host -/

/-- Section 2.12. -/
theorem test_reset :
    State.reset.readReg .id = 0xB10C0120 ∧ State.reset.readReg .bits = 0x10 ∧ hostReadWord 0x44 State.reset = 0 := by
  decide

/-- V10.5. -/
theorem test_reject : nextIs (fun t => t.readReg .status == 0x6 && t.readReg .err == 0x0204)
    (step (State.reset.withCommand 0x00000010)) = true := by decide

/-- V10.7. -/
theorem test_overrun : nextIs (fun t => t.readReg .status == 0x9) (step (running.withCommand 0x00000000)) = true := by
  decide +kernel

/-- V10.8, through `ack`. -/
theorem test_ack : nextIs (fun t => t.readReg .status == 0)
    (step { State.reset with done := true, cmdOvr := true, inputs := [ack] }) = true := by decide

/-- P6: the NOP that arrives while HASH is busy is dropped; the one that waits runs. -/
theorem test_overrun_race :
    nextIs (fun t => t.readReg .status == 0x1 && nextIs (fun u => u.readReg .status == 0x9) (step t))
      (step { halfWhite with inputs := [cmd .hash, ⟨true, (cmd .nop).op⟩] }) = true ∧
    nextIs (fun t => t.readReg .status == 0x2 && nextIs (fun u => u.readReg .status == 0x2) (step t))
      (step { halfWhite with inputs := [cmd .hash, cmd .nop] }) = true := by decide +kernel

/-- 93_implementation_defined.md row 16, 70_reset_and_hazards.md R267: after P1's HASH the host may still read the
INFO and the byte of before; a STATUS read with BUSY = 0 settles both. -/
theorem test_results_open_until_observed :
    nextIs (fun t => t.unseen.info == [(false, false)] && t.unseen.bytes == [(0x2000, 0)] &&
        nextIs (fun u => u.busData == 0x2 && u.unseen == .empty && hostReadWord 0x40 u == 0x2) (step t))
      (step { halfWhite with inputs := [cmd .hash, waitDone] }) = true := by decide +kernel

/-- P2's wait, on P3's HDIST: a high line observes completion; with IRQ_EN 0 it stays low and observes nothing. -/
theorem test_irq_observes :
    nextIs (fun t => nextIs (fun u => u.busData == 1 && hostReadWord 0x3C u == 15) (step t))
      (step { twoPrints with irqEn := true, inputs := [cmd .hdist, waitIrq] }) = true ∧
    nextIs (fun t => nextIs (fun u => u.busData == 0 && u.unseen.dist == [0]) (step t))
      (step { twoPrints with inputs := [cmd .hdist, waitIrq] }) = true := by decide +kernel

/-! ## The order of the host's accesses (70_reset_and_hazards.md R270) -/

/-- On a port that is not coherent a store may reach memory during the command that follows it, or after it. -/
theorem test_store_passes_command (c : Config) (h : c.portCoherent = false) (e : Bool) :
    TakesEffect c [.issue ⟨false, .memStore 0x1000 7⟩, .issue (cmd .hash)] [cmd .hash, ⟨e, .memStore 0x1000 7⟩] :=
  .delay (pre := []) (e := e) h (by decide) (by decide) (.inOrder _)

/-- After the host's own clean it may not. -/
theorem test_sync_orders_store (c : Config) (e : Bool) :
    ¬ TakesEffect c [.issue ⟨false, .memStore 0x1000 7⟩, .sync, .issue (cmd .hash)]
      [cmd .hash, ⟨e, .memStore 0x1000 7⟩] := by
  intro h
  obtain ⟨ol, or, he, hl, -⟩ := h.sync_split [.issue ⟨false, .memStore 0x1000 7⟩] [.issue (cmd .hash)] rfl
  obtain ⟨p, rfl, hp⟩ := List.map_eq_singleton_iff.1 (List.perm_singleton.1 hl.perm)
  obtain ⟨rfl, -⟩ := List.cons.inj he
  cases hp

/-! ## The datapath -/

/-- The table of 40_block_aggregator.md R129: N = 5, bits = 2; the split row and its neighbours. -/
theorem test_axisMap :
    axisMap 1 5 2 = ⟨0, 0, F64.one, F64.zero⟩ ∧
    axisMap 2 5 2 = ⟨0, 1, F64.div F64.one F64.two, F64.div F64.one F64.two⟩ ∧
    axisMap 3 5 2 = ⟨1, 1, F64.div F64.one F64.two, F64.div F64.one F64.two⟩ ∧
    axisMap 4 5 2 = ⟨1, 1, F64.one, F64.zero⟩ := by decide +kernel

/-- Section 2.3, N = 7, bits = 16: rows 1 and 6. -/
theorem test_axisMap_small :
    axisMap 1 7 16 = ⟨2, 3, F64.div F64.three (F64.ofNat 4), F64.div F64.one (F64.ofNat 4)⟩ ∧
    axisMap 6 7 16 = ⟨13, 13, F64.one, F64.zero⟩ := by decide +kernel

/-- V6.2 and V6.3: the near-ties go to 1 when the median is above half, to 0 when it is not. -/
theorem test_quantize_nearTie :
    bandBits (halfBlock 256 F64.one)
      [F64.ofNat 1000, F64.div (F64.ofNat 2001) F64.two, F64.div (F64.ofNat 1999) F64.two, F64.ofNat 2000]
      = [true, true, true, true] ∧
    bandBits (halfBlock 256 (F64.ofNat 10))
      [F64.ofNat 1000, F64.div (F64.ofNat 2001) F64.two, F64.div (F64.ofNat 1999) F64.two, F64.ofNat 2000]
      = [false, true, false, true] := by decide +kernel

/-- Section 2.6, odd band: bits = 6, n = 9. -/
theorem test_quantize_oddBand :
    pack (quantize 256 6 ((List.replicate 4 [5, 1, 9, 3, 7, 2, 8, 4, 6]).flatten.map F64.ofNat) F64.one)
      = [0x2, 0xa, 0x9, 0x5, 0x4, 0xa, 0xa, 0x5, 0x5] := by decide +kernel

/-- V8.3: a white 5×7 image, bits = 16, by its first eight bytes. -/
theorem test_fingerprint_smallImage :
    (fingerprintOf 256 .weighted 5 7 16 (fun _ _ => 765)).take 8 =
      [0x9, 0xb, 0x6, 0x8, 0x0, 0x0, 0x0, 0x0] := by decide +kernel

/-! ## Witnesses: for each statement with hypotheses, a state and operands that meet them together -/

/-- The busy engine with a host read due before completion. -/
def interrupted : State := running.withInputs [⟨true, (rd .status).op⟩]

/-- The idle engine with a HASH submitted and a host operation due before it completes. -/
def overlapped : State := halfWhite.withInputs [⟨true, (rd .status).op⟩]

/-- A state after HDIST was accepted. -/
def comparing : State := twoPrints.accept .hdist

/-- An idle engine whose next host operation is `op`. -/
def about (op : HostOp) (s : State) : State := s.withInputs [⟨true, op⟩]

/-- A step that answers, from a state in which the statements about every step say something. -/
theorem step_answers {s : State} (h : nextIs (fun _ => true) (step s) = true) : ∃ t, step s = .next t :=
  let ⟨t, ht, _⟩ := exists_of_nextIs h
  ⟨t, ht⟩

theorem witness_DecodeFollowsTheOpcodeMap :
    ((0x00000010 : Word) >>> 4 ≠ 0 ∧ (0xFFFFFFFF : Word) >>> 4 ≠ 0) ∧
    ((0x00000006 : Word) >>> 4 = 0 ∧ 6 ≤ ((0x00000006 : Word) &&& 0xF).toNat) ∧
    ((0x0000000F : Word) >>> 4 = 0 ∧ 6 ≤ ((0x0000000F : Word) &&& 0xF).toNat) ∧
    ((0x00000005 : Word) >>> 4 = 0 ∧ ((0x00000005 : Word) &&& 0xF).toNat < 6) := by decide

theorem witness_StepRunsTheDecodedCommand :
    (about (.regWrite 0x0C 4 0x00000001) halfWhite).inputs = ⟨true, .regWrite 0x0C 4 0x00000001⟩ :: [] ∧
    (about (.regWrite 0x0C 4 0x00000001) halfWhite).busy = false ∧ decode 0x00000001 = .ok .hash := ⟨rfl, rfl, rfl⟩

theorem witness_StepRunsThePlacedWord : decode 0x00000004 = .ok .hdist := rfl

theorem witness_ControlCommandsTakeEffectAtOnce : State.reset.busy = false ∧ running.busy = true := ⟨rfl, rfl⟩

theorem witness_RejectedWordsRecordIllegalCommand :
    State.reset.busy = false ∧ ((0x00000010 : Word) >>> 4 ≠ 0 ∨ 6 ≤ ((0x00000010 : Word) &&& 0xF).toNat) ∧
    ((0x00000006 : Word) >>> 4 ≠ 0 ∨ 6 ≤ ((0x00000006 : Word) &&& 0xF).toNat) := by decide

theorem witness_CommandWordsAreSubmittedOrDropped :
    running.busy = true ∧ halfWhite.busy = false ∧ decode 0x00000001 = .ok .hash ∧
    decode 0x00000006 = .error .reservedOpcode := ⟨rfl, rfl, rfl, rfl⟩

theorem witness_ConfigurationWritesKeepTheField :
    State.reset.busy = false ∧ Reg.bits ∈ configRegs ∧ Reg.aLen ∈ configRegs := by decide

theorem witness_OperandsAreFrozenWhileBusy :
    running.busy = true ∧ Reg.width ∈ configRegs ∧
    ∃ t, interrupted.busy = true ∧ t.busy = true ∧ step interrupted = .next t := by
  obtain ⟨t, h1, h2⟩ := exists_of_nextIs (P := State.busy) (o := step interrupted) (by decide +kernel)
  exact ⟨rfl, by decide, t, rfl, h2, h1⟩

theorem witness_ReservedOffsetsReadZeroAndIgnoreWrites :
    0x44 ≤ (0x44 : BitVec 8).toNat ∧ (0x44 : BitVec 8).toNat % 4 = 0 ∧
    0x44 ≤ (0xFC : BitVec 8).toNat ∧ (0xFC : BitVec 8).toNat % 4 = 0 := by decide

theorem witness_ReadOnlyRegistersIgnoreWrites : Reg.dist ∈ [Reg.id, .err, .errAddr, .dist, .info] := by decide

/-- A register that holds no result, a settled result, and results that are open: in a running command, and after one
the host has not observed. -/
theorem witness_ReadsAnswerTheRegister :
    (Reg.bits ≠ .status ∧ Reg.bits ∉ resultRegs) ∧
    (Reg.info ≠ .status ∧ Reg.info ∈ resultRegs ∧ halfWhite.busy = false ∧ halfWhite.unseen = .empty) ∧
    (running.busy = true ∧ ∃ t, step (running.withInputs []) = .next t ∧ t.readReg .info = 0x2) ∧
    ∃ t, exec .hash halfWhite = .next t ∧ unseenWords t .info = [0] ∧ t.readReg .info = 0x2 := by
  obtain ⟨t, h1, h2⟩ := exists_of_nextIs (P := fun t => t.readReg .info == 0x2) (o := step (running.withInputs []))
    (by decide +kernel)
  obtain ⟨u, h3, h4⟩ := exists_of_nextIs (P := fun t => unseenWords t .info == [0] && t.readReg .info == 0x2)
    (o := exec .hash halfWhite) (by decide +kernel)
  exact ⟨by decide, by decide +kernel, ⟨rfl, t, h1, by simpa using h2⟩, u, h3, by simpa using h4⟩

theorem witness_UnalignedRegisterAccessIsRefused :
    ((2 : Nat) ≠ 4 ∨ (0x0C : BitVec 8).toNat % 4 ≠ 0) ∧ ((4 : Nat) ≠ 4 ∨ (0x0D : BitVec 8).toNat % 4 ≠ 0) := by
  decide

theorem witness_InterruptLineIsEnableAndDone :
    (State.reset.busy = false ∧ decode 0x00000010 = .error .reservedField) ∧
    ∃ t, comparing.busy = true ∧ t.busy = false ∧ step comparing = .next t ∧ hostMove comparing ≠ some .reset := by
  refine ⟨⟨rfl, rfl⟩, ?_⟩
  obtain ⟨t, h1, h2⟩ := exists_of_nextIs (P := fun t => !t.busy) (o := step comparing) (by decide +kernel)
  exact ⟨t, rfl, by simpa using h2, h1, by decide +kernel⟩

theorem witness_ResetDuringACommandLeavesOldOrNewBytes :
    running.busy = true ∧ running.mem.wf = true := ⟨rfl, by decide +kernel⟩

theorem witness_HdistWritesTheDistance :
    twoPrints.busy = false ∧ twoPrints.quiet = true ∧ twoPrints.aBase ≠ 0 ∧ twoPrints.bBase ≠ 0 ∧
    twoPrints.aLen = twoPrints.bLen ∧
    ∀ i, i < twoPrints.aLen.toNat → busAnswer twoPrints.cfg .read (leftAddr twoPrints.distArgs i) = .ok ∧
      busAnswer twoPrints.cfg .read (rightAddr twoPrints.distArgs i) = .ok :=
  ⟨rfl, rfl, by decide +kernel, by decide +kernel, by decide +kernel, fun _ _ => ⟨rfl, rfl⟩⟩

/-- Both clauses: no fingerprint at all, and lengths 8 and 9. -/
theorem witness_HdistRejectsBadArguments :
    (State.reset.busy = false ∧ State.reset.quiet = true ∧ (State.reset.aBase = 0 ∨ State.reset.bBase = 0)) ∧
    ({ twoPrints with bLen := 9 } : State).busy = false ∧ ({ twoPrints with bLen := 9 } : State).quiet = true ∧
    ({ twoPrints with bLen := 9 } : State).aBase ≠ 0 ∧ ({ twoPrints with bLen := 9 } : State).bBase ≠ 0 ∧
    ({ twoPrints with bLen := 9 } : State).aLen ≠ ({ twoPrints with bLen := 9 } : State).bLen := by
  decide +kernel

/-- V9.11 with the error at the first byte of the left, and at the first of the right fingerprint. -/
theorem witness_HdistReportsTheFirstFailingRead :
    let l := withRegion 0x3000 .read .error twoPrints
    let r := withRegion 0x3100 .read .error twoPrints
    (l.busy = false ∧ l.quiet = true ∧ l.aBase ≠ 0 ∧ l.bBase ≠ 0 ∧ l.aLen = l.bLen ∧ 0 < l.aLen.toNat ∧
      busAnswer l.cfg .read (leftAddr l.distArgs 0) = .error) ∧
    (r.busy = false ∧ r.quiet = true ∧ r.aBase ≠ 0 ∧ r.bBase ≠ 0 ∧ r.aLen = r.bLen ∧ 0 < r.aLen.toNat ∧
      busAnswer r.cfg .read (leftAddr r.distArgs 0) = .ok ∧
      busAnswer r.cfg .read (rightAddr r.distArgs 0) = .error) ∧
    ∀ k, k < 0 → busAnswer l.cfg .read (leftAddr l.distArgs k) = .ok ∧
      busAnswer l.cfg .read (rightAddr l.distArgs k) = .ok :=
  ⟨by decide +kernel, by decide +kernel, fun _ h => absurd h (Nat.not_lt_zero _)⟩

theorem witness_DistanceIsAtMostFourPerByte :
    twoPrints.busy = false ∧ twoPrints.quiet = true ∧ ∃ t, exec .hdist twoPrints = .next t ∧ t.errCode = .none := by
  obtain ⟨t, h1, h2⟩ := exists_of_nextIs (P := fun t => t.errCode == .none) (o := exec .hdist twoPrints)
    (by decide +kernel)
  exact ⟨rfl, rfl, t, h1, by simpa using h2⟩

theorem witness_DistanceIsAPseudometric :
    ([0x0D, 0xF1] : List Byte).length = ([0x0E, 0x01] : List Byte).length ∧
    ([0x0E, 0x01] : List Byte).length = ([0x00, 0x03] : List Byte).length := ⟨rfl, rfl⟩

/-- Two states that differ in a configuration register and INFO. -/
theorem witness_HdistSeesOnlyItsOperands :
    twoPrints.busy = false ∧ twoPrints.quiet = true ∧
    twoPrints.distArgs = ({ twoPrints with width := 7, infoValid := true } : State).distArgs ∧
    twoPrints.cfg.bus = ({ twoPrints with width := 7, infoValid := true } : State).cfg.bus ∧
    (∀ i, i < twoPrints.aLen.toNat →
      byteAt twoPrints (leftAddr twoPrints.distArgs i) =
        byteAt { twoPrints with width := 7, infoValid := true } (leftAddr twoPrints.distArgs i) ∧
      byteAt twoPrints (rightAddr twoPrints.distArgs i) =
        byteAt { twoPrints with width := 7, infoValid := true } (rightAddr twoPrints.distArgs i)) ∧
    (∃ t, exec .hdist twoPrints = .next t) ∧
    ∃ t, exec .hdist { twoPrints with width := 7, infoValid := true } = .next t := by
  refine ⟨rfl, rfl, rfl, rfl, fun _ _ => ⟨rfl, rfl⟩, ?_, ?_⟩
  · obtain ⟨t, h, -⟩ := exists_of_nextIs (P := fun _ => true) (o := exec .hdist twoPrints) (by decide +kernel)
    exact ⟨t, h⟩
  · obtain ⟨t, h, -⟩ := exists_of_nextIs (P := fun _ => true)
      (o := exec .hdist { twoPrints with width := 7, infoValid := true }) (by decide +kernel)
    exact ⟨t, h⟩

/-- V11.1 to V11.8, each failing check. -/
theorem witness_HashChecksItsOperandsInOrder :
    halfWhite.busy = false ∧ halfWhite.quiet = true ∧
    failingDetail .hash { halfWhite with srcBase := 0 } = some 1 ∧
    failingDetail .hash { halfWhite with width := 0 } = some 2 ∧
    failingDetail .hash { halfWhite with height := 0 } = some 3 ∧
    failingDetail .hash { halfWhite with bits := 0 } = some 4 ∧
    failingDetail .hash { halfWhite with bits := 3 } = some 5 ∧
    failingDetail .hash { halfWhite with bits := 34 } = some 6 ∧
    failingDetail .hash { halfWhite with dstBase := 0 } = some 7 ∧
    failingDetail .hashq { halfWhite with width := 1 } = some 8 := by decide +kernel

theorem witness_HashCommandsWriteTheFingerprint :
    fiveColumns.busy = false ∧ fiveColumns.quiet = true ∧ fiveColumns.mem.wf = true ∧
    failingDetail .hash fiveColumns = none ∧ failingDetail .hashq fiveColumns = none ∧
    failingDetail .hashw fiveColumns = none ∧ readsAnswered .hash fiveColumns ∧ readsAnswered .hashq fiveColumns ∧
    readsAnswered .hashw fiveColumns ∧ writesAnswered fiveColumns :=
  ⟨rfl, rfl, by decide +kernel, by decide +kernel, by decide +kernel, by decide +kernel,
    fun _ _ _ _ _ => rfl, fun _ _ _ _ _ => rfl, fun _ _ _ _ _ => rfl, fun _ _ => rfl⟩

theorem witness_PathIsChosenByTheCommand :
    (withImage 1 1 2 [white]).busy = false ∧ (withImage 1 1 2 [white]).quiet = true ∧
    ∃ t, exec (hashInstr .hash) (withImage 1 1 2 [white]) = .next t ∧ t.errCode = .none := by
  obtain ⟨t, h1, h2⟩ := exists_of_nextIs (P := fun t => t.errCode == .none)
    (o := exec .hash (withImage 1 1 2 [white])) (by decide +kernel)
  exact ⟨rfl, rfl, t, h1, by simpa using h2⟩

/-- The error on the second byte of the first pixel; the byte before it reads. -/
theorem witness_HashReportsTheFirstFailingRead :
    let s := withRegion 0x1001 .read .error halfWhite
    s.busy = false ∧ s.quiet = true ∧ failingDetail .hash s = none ∧ covered .hash s 0 0 ∧ 1 < 4 ∧
    (∀ x' y' ch', covered .hash s x' y' → ch' < 4 →
      (y' < 0 ∨ (y' = 0 ∧ (x' < 0 ∨ (x' = 0 ∧ ch' < 1)))) →
      busAnswer s.cfg .read (pixAddr s.hashArgs x' y' ch') = .ok) ∧
    busAnswer s.cfg .read (pixAddr s.hashArgs 0 0 1) = .error := by
  refine ⟨rfl, rfl, by decide +kernel, ?_, by decide, ?_, by decide +kernel⟩
  · have h : ((withRegion 0x1001 .read .error halfWhite).hashPath .hash) = .exact := by decide +kernel
    simp only [covered, h]
    decide +kernel
  · rintro x' y' ch' - - h
    obtain ⟨rfl, rfl, rfl⟩ : x' = 0 ∧ y' = 0 ∧ ch' = 0 := by omega
    decide +kernel

/-- `bits` 4: the error on the second of the four bytes. -/
theorem witness_WriteErrorKeepsTheEarlierBytes :
    let s := withRegion 0x2001 .write .error { halfWhite with bits := 4 }
    s.busy = false ∧ s.quiet = true ∧ s.mem.wf = true ∧ failingDetail .hash s = none ∧ readsAnswered .hash s ∧
    1 < fpLength s ∧ (∀ k, k < 1 → busAnswer s.cfg .write (fingerprintAddr s.hashArgs k) = .ok) ∧
    busAnswer s.cfg .write (fingerprintAddr s.hashArgs 1) = .error := by
  refine ⟨rfl, rfl, by decide +kernel, by decide +kernel, ?_, by decide +kernel, ?_, by decide +kernel⟩
  · intro x y ch _ _
    simp [busAnswer, withRegion, covers]
  · intro k hk
    obtain rfl : k = 0 := by omega
    decide +kernel

theorem witness_HashCommandFrame :
    halfWhite.busy = false ∧ halfWhite.quiet = true ∧ halfWhite.mem.wf = true ∧
    ∃ t, exec (hashInstr .hash) halfWhite = .next t := by
  obtain ⟨t, h, -⟩ := exists_of_nextIs (P := fun _ => true) (o := exec .hash halfWhite) (by decide +kernel)
  exact ⟨rfl, rfl, by decide +kernel, t, h⟩

theorem witness_FingerprintLengthAndNibbles : 16 % 2 = 0 := by decide

theorem witness_PathEquivalence :
    (0 < 4 ∧ 4 ≤ 65535 ∧ 2 ∣ 4 ∧ ∀ x y : Nat, (fun _ _ => 765 : Nat → Nat → Nat) x y ≤ 765) ∧
    halfWhite.busy = false ∧ halfWhite.quiet = true ∧ halfWhite.bits.toNat ∣ halfWhite.width.toNat ∧
    halfWhite.bits.toNat ∣ halfWhite.height.toNat ∧ ∃ t, exec .hash halfWhite = .next t := by
  refine ⟨⟨by decide, by decide, by decide, fun _ _ => le_rfl⟩, ?_⟩
  obtain ⟨t, h, -⟩ := exists_of_nextIs (P := fun _ => true) (o := exec .hash halfWhite) (by decide +kernel)
  exact ⟨rfl, rfl, by decide +kernel, by decide +kernel, t, h⟩

/-- A 2×2 transparent image (memory lists nothing: alpha 0 everywhere), and the white one. -/
theorem witness_TransparentHashesAsWhite :
    let s := withImage 2 2 2 []
    let m := (withImage 2 2 2 [white, white, white, white]).mem
    s.busy = false ∧ s.quiet = true ∧ s.mem.wf = true ∧ m.wf = true ∧
    (∀ x y, x < s.width.toNat → y < s.height.toNat → byteAt s (pixAddr s.hashArgs x y 3) = 0) ∧
    (∀ x y ch, x < s.width.toNat → y < s.height.toNat → ch < 4 →
      m.read (pixAddr s.hashArgs x y ch).toNat = 255) ∧
    (∃ t, exec (hashInstr .hash) s = .next t ∧ t.errCode = .none) ∧
    ∃ t, exec (hashInstr .hash) { s with mem := m } = .next t := by
  refine ⟨rfl, rfl, rfl, by decide +kernel, fun _ _ _ _ => rfl, ?_, ?_, ?_⟩
  · have h : ∀ x, x < 2 → ∀ y, y < 2 → ∀ ch, ch < 4 →
        (withImage 2 2 2 [white, white, white, white]).mem.read
          (pixAddr (withImage 2 2 2 []).hashArgs x y ch).toNat = 255 := by decide +kernel
    intro x y ch hx hy hch
    exact h x hx y hy ch hch
  · obtain ⟨t, h, he⟩ := exists_of_nextIs (P := fun t => t.errCode == .none) (o := exec .hash (withImage 2 2 2 []))
      (by decide +kernel)
    exact ⟨t, h, by simpa using he⟩
  · obtain ⟨t, h, -⟩ := exists_of_nextIs (P := fun _ => true)
      (o := exec .hash { withImage 2 2 2 [] with mem := (withImage 2 2 2 [white, white, white, white]).mem })
      (by decide +kernel)
    exact ⟨t, h⟩

/-- Two states that differ in the uncovered column x = 4, under HASHQ, and in DIST. -/
theorem witness_HashIsAFunctionOfTheCoveredPixels :
    let s₂ : State := { fiveColumns with mem := fiveColumns.mem.write 0x1010 0x55, dist := 9 }
    fiveColumns.busy = false ∧ s₂.busy = false ∧ fiveColumns.quiet = true ∧ s₂.quiet = true ∧
    fiveColumns.mem.wf = true ∧ s₂.mem.wf = true ∧ fiveColumns.hashArgs = s₂.hashArgs ∧ fiveColumns.cfg = s₂.cfg ∧
    (∀ x y ch, covered .hashq fiveColumns x y → ch < 4 →
      byteAt fiveColumns (pixAddr fiveColumns.hashArgs x y ch) = byteAt s₂ (pixAddr fiveColumns.hashArgs x y ch)) ∧
    (∃ t, exec (hashInstr .hashq) fiveColumns = .next t) ∧ ∃ t, exec (hashInstr .hashq) s₂ = .next t := by
  refine ⟨rfl, rfl, rfl, rfl, by decide +kernel, by decide +kernel, rfl, rfl, ?_, ?_, ?_⟩
  · have hp : fiveColumns.hashPath .hashq = .exact := rfl
    have h : ∀ x, x < 4 → ∀ y, y < 4 → ∀ ch, ch < 4 → (pixAddr fiveColumns.hashArgs x y ch).toNat ≠ 0x1010 := by
      decide +kernel
    intro x y ch hc hch
    simp only [covered, hp] at hc
    have h4 : fiveColumns.bits.toNat * (fiveColumns.width.toNat / fiveColumns.bits.toNat) = 4 ∧
        fiveColumns.bits.toNat * (fiveColumns.height.toNat / fiveColumns.bits.toNat) = 4 := by decide +kernel
    rw [h4.1, h4.2] at hc
    exact (Memory.read_write_other _ (h x hc.1 y hc.2 ch hch)).symm
  · obtain ⟨t, h, -⟩ := exists_of_nextIs (P := fun _ => true) (o := exec .hashq fiveColumns) (by decide +kernel)
    exact ⟨t, h⟩
  · obtain ⟨t, h, -⟩ := exists_of_nextIs (P := fun _ => true)
      (o := exec .hashq { fiveColumns with mem := fiveColumns.mem.write 0x1010 0x55, dist := 9 }) (by decide +kernel)
    exact ⟨t, h⟩

theorem witness_IndexRangeIsNeverRaised : running.errCode ≠ .indexRange ∧ ∃ t, step running = .next t :=
  ⟨by decide +kernel, step_answers (by decide +kernel)⟩

theorem witness_IntensityOfAPixel : (0 : Byte) = 0 ∧ (1 : Byte) ≠ 0 ∧ (255 : Byte) ≠ 0 := by decide

theorem witness_ExactPathSumsEachBlock :
    5 ≤ 65535 ∧ 4 ≤ 65535 ∧ 0 < 2 ∧ 1 < 2 ∧ ∀ x y : Nat, (fun _ _ => 765 : Nat → Nat → Nat) x y ≤ 765 :=
  ⟨by decide, by decide, by decide, by decide, fun _ _ => le_rfl⟩

/-- An uneven axis at its last coordinate, and an even one; on the uneven one a coordinate that is split (2), one
whose edge lies past its block's first pixel (1), and the last. -/
theorem witness_AxisWeightsAndSplits :
    (4 < 5 ∧ 5 ≤ 65535 ∧ 2 ≤ 2 ∧ 2 ≤ 254 ∧ 2 % 2 = 0 ∧ (2 ∣ 5 ∨ 4 + 1 = 5)) ∧
    (3 < 4 ∧ 4 ≤ 65535 ∧ 2 ∣ 4) ∧ (¬ 2 ∣ 5) ∧
    (¬ (F64.scale ≤ edgeUnits 2 5 2 ∨ 2 + 1 = 5 ∨ edgeUnits 2 5 2 = 0)) ∧
    F64.scale ≤ edgeUnits 1 5 2 ∧ edgeUnits 4 5 2 = 0 ∧ 3 < 2 * 2 := by decide +kernel

/-- The tie between 2^53 and 2^53 + 2 units. -/
theorem witness_RoundingIsToNearestTiesToEven :
    0 < 1 ∧ F64.Representable (2 ^ 53) ∧ F64.Representable (2 ^ 53 + 2) ∧
    (2 ^ 53 + 2 ≠ F64.roundUnits (2 ^ 53 + 1) 1 ∧
      |((F64.roundUnits (2 ^ 53 + 1) 1 : Int) * (1 : Nat) - (2 ^ 53 + 1 : Nat))| =
        |(((2 ^ 53 + 2 : Nat) : Int) * (1 : Nat) - (2 ^ 53 + 1 : Nat))|) :=
  ⟨by decide, ⟨2 ^ 52, 1, by decide, by decide⟩, ⟨2 ^ 52 + 1, 1, by decide, by decide⟩, by decide +kernel⟩

theorem witness_PrimitivesRoundTheExactResult : 3 < 2 ^ 53 ∧ 2 ≤ 3 ∧ 0 < 2 := by decide

theorem witness_MedianIsOrderFree :
    [F64.one, F64.two].Perm [F64.two, F64.one] ∧ [F64.one, F64.two, F64.three].length % 2 = 1 ∧
    0 < [F64.one, F64.two].length ∧ [F64.one, F64.two].length % 2 = 0 := ⟨List.Perm.swap _ _ _, rfl, by decide, rfl⟩

theorem witness_BitDecisionIsAsymmetric :
    F64.lt F64.one F64.two = true ∧ (F64.zero.units + F64.scale ≤ F64.one.units) ∧
    F64.lt F64.one F64.zero = false ∧ F64.lt F64.two F64.one = false := by decide +kernel

/-- m = 2.0 with v = 1.5, and m = 0.5 with the smallest positive v. -/
theorem witness_BitDecisionIsAsymmetric_nearTies :
    (∃ a b, F64.Representable a ∧ F64.Representable b ∧ b < a ∧ a < b + F64.scale ∧ a ≤ 2 * b ∧
      2 * b + F64.scale = 2 * a) ∧
    ∃ a b, F64.Representable a ∧ F64.Representable b ∧ b < a ∧ a < b + F64.scale ∧ a < F64.scale := by
  obtain ⟨e, he, hs⟩ := F64.scale_eq
  obtain ⟨k, rfl⟩ : ∃ k, e = k + 1 := ⟨e - 1, by omega⟩
  have h1 : 2 ^ 59 ≤ 2 ^ k := Nat.pow_le_pow_right (by norm_num) (by omega)
  rw [hs, pow_succ]
  refine ⟨⟨4 * 2 ^ k, 3 * 2 ^ k, F64.representable_of_lt (by norm_num), F64.representable_of_lt (by norm_num), ?_⟩,
    1 * 2 ^ k, 1, F64.representable_of_lt (by norm_num), F64.representable_unit, ?_⟩ <;> omega

theorem witness_EachBandHasItsOwnMedian :
    2 % 2 = 0 ∧ [F64.one, F64.two, F64.zero, F64.three].length = 2 * 2 ∧
    [F64.one, F64.two, F64.zero, F64.three][3]? = some F64.three := ⟨rfl, rfl, rfl⟩

theorem witness_PackerPutsFourBitsInEachByte :
    [true, false, true, true][4 * 0]? = some true ∧ [true, false, true, true][4 * 0 + 1]? = some false ∧
    [true, false, true, true][4 * 0 + 2]? = some true ∧ [true, false, true, true][4 * 0 + 3]? = some true :=
  ⟨rfl, rfl, rfl, rfl⟩

theorem witness_UniformImagesOnTheExactPath :
    F64.Representable 3 ∧ 0 < 9 ∧ 65535 * 65535 ≤ 65535 * 65535 ∧
    32 ≤ 65535 ∧ 48 ≤ 65535 ∧ 16 % 2 = 0 ∧ 2 ≤ 16 ∧ 16 ≤ 32 ∧ 16 ≤ 48 :=
  ⟨⟨3, 0, by decide, by decide⟩, by decide⟩

theorem witness_AcceptedCommandsAreBusy :
    overlapped.busy = false ∧ overlapped.quiet = false ∧ Instr.hash ∈ [Instr.hash, .hashq, .hashw, .hdist] ∧
    exec .hash overlapped = .next (overlapped.accept (.hash .hash)) ∧ overlapped.cmdOvr = false :=
  ⟨rfl, rfl, by decide, rfl, rfl⟩

theorem witness_CompletionLaterIsTheSameCommand :
    overlapped.busy = false ∧ overlapped.quiet = false ∧
    exec .hash overlapped = .next (overlapped.accept (.hash .hash)) ∧
    (overlapped.accept (.hash .hash)).busy = true ∧
    ((overlapped.accept (.hash .hash)).withInputs [cmd .nop]).quiet = true := ⟨rfl, rfl, rfl, rfl, rfl⟩

theorem witness_BusyEngineCompletes :
    running.busy = true ∧ running.quiet = true ∧ neverSilent running ∧ running.runsHash = true ∧
    running.errCode = .none := ⟨rfl, rfl, by rintro r ⟨⟩, rfl, rfl⟩

/-- The fingerprint's byte is one the host has stored to since acceptance, and the command ends without error. -/
theorem witness_BusyEngineCompletes_race :
    let s := hostStore 0x2000 7 running
    s.busy = true ∧ s.quiet = true ∧ s.phase = .run (.hash .hash) [(0x2000, 0)] ∧ s.mem.wf = true ∧
    (s.fingerprint .hash)[0]? = some 0x05 ∧ (fpKey s 0, 0) ∈ s.replaced ∧
    ∃ t, step s = .next t ∧ t.errCode = .none := by
  refine ⟨rfl, rfl, by decide +kernel, by decide +kernel, by decide +kernel, by decide +kernel, ?_⟩
  have hs : (hostStore 0x2000 7 running).hashStop .hash = none := by decide +kernel
  have hstep : step (hostStore 0x2000 7 running) = (hostStore 0x2000 7 running).finishHash .hash := rfl
  rw [hstep, State.finishHash, hs]
  exact ⟨_, rfl, rfl⟩

/-- HDIST in its running phase after a host store to a byte it reads ends without error. -/
theorem witness_BusyEngineCompletes_hdist :
    let s := hostStore 0x3000 7 comparing
    s.busy = true ∧ s.quiet = true ∧ neverSilent s ∧ s.phase = .run .hdist [(0x3000, 0x0d)] ∧
    ∃ t, step s = .next t ∧ t.errCode = .none := by
  refine ⟨rfl, rfl, by rintro r ⟨⟩, by decide +kernel, ?_⟩
  have hs : distStop (hostStore 0x3000 7 comparing).cfg (hostStore 0x3000 7 comparing).distArgs = none := by
    decide +kernel
  have hstep : step (hostStore 0x3000 7 comparing) = (hostStore 0x3000 7 comparing).finishDistance := rfl
  rw [hstep, State.finishDistance, hs]
  exact ⟨_, rfl, rfl⟩

theorem witness_RacedReadsReturnAHeldByte :
    State.reset.busy = false ∧ running.phase = .run (.hash .hash) [] ∧ running.mem.wf = true :=
  ⟨rfl, rfl, by decide +kernel⟩

/-- A settled byte, and a byte of the fingerprint open after a HASH that the host has not observed. -/
theorem witness_HostLoadsSeeOldOrNewBytes :
    (comparing.runsHash = false ∧ comparing.unseen = .empty) ∧
    ∃ t, exec .hash halfWhite = .next t ∧ (0x2000, 0) ∈ t.unseen.bytes := by
  obtain ⟨t, h1, h2⟩ := exists_of_nextIs (P := fun t => t.unseen.bytes == [(0x2000, 0)]) (o := exec .hash halfWhite)
    (by decide +kernel)
  refine ⟨⟨rfl, rfl⟩, t, h1, ?_⟩
  rw [beq_iff_eq] at h2
  rw [h2]; exact List.mem_singleton.mpr rfl

theorem witness_DistChangesOnlyByHdist :
    (∃ t, step comparing = .next t) ∧ comparing.errCode = .none := ⟨step_answers (by decide +kernel), rfl⟩

theorem witness_InfoChangesOnlyByHashCompletion :
    (∃ t, step running = .next t) ∧ running.errCode = .none := ⟨step_answers (by decide +kernel), rfl⟩

theorem witness_CommandOverrunFollowsItsRule :
    ∃ t, step (about (.regWrite 0x0C 4 0x00000005) running) = .next t := ⟨_, rfl⟩

/-- DONE falls when a HASH is accepted while a host operation is due. -/
theorem witness_DoneIsClearedOnlyByTheHost :
    ∃ t, ({ overlapped with done := true, inputs := [cmd .hash, ⟨true, (rd .status).op⟩] } : State).done = true ∧
      step { overlapped with done := true, inputs := [cmd .hash, ⟨true, (rd .status).op⟩] } = .next t ∧
      t.done = false := by
  obtain ⟨t, h1, h2⟩ := exists_of_nextIs (P := fun t => !t.done)
    (o := step { overlapped with done := true, inputs := [cmd .hash, ⟨true, (rd .status).op⟩] }) (by decide +kernel)
  exact ⟨t, rfl, h1, by simpa using h2⟩

theorem witness_ConfigurationChangesOnlyByHostWrites :
    (∃ t, step (about (wr .width 5).op State.reset) = .next t) ∧ Reg.width ∈ configRegs := ⟨⟨_, rfl⟩, by decide⟩

theorem witness_MemoryChangesOnlyByStoresAndFingerprints :
    running.mem.wf = true ∧ ∃ t, step running = .next t := ⟨by decide +kernel, step_answers (by decide +kernel)⟩

/-- A platform with no silent region, and a refused access. -/
theorem witness_StepsStopOnlyWhereTheSpecSaysSo :
    neverSilent State.reset ∧
    step (about (.regRead 0x06 4) State.reset) = .refused (.registerAccess 0x06 4) := ⟨by rintro r ⟨⟩, rfl⟩

/-- The clauses that say where a command stops: the first access not performed is a left or a right byte of HDIST, a
pixel's byte, or a fingerprint byte, at the first place of each. -/
theorem witness_StepsStopOnlyWhereTheSpecSaysSo_hdist :
    twoPrints.busy = false ∧ twoPrints.quiet = true ∧ twoPrints.aBase ≠ 0 ∧ twoPrints.bBase ≠ 0 ∧
    twoPrints.aLen = twoPrints.bLen ∧ 0 < twoPrints.aLen.toNat ∧
    busAnswer (withRegion 0x3000 .read .silent twoPrints).cfg .read (leftAddr twoPrints.distArgs 0) = .silent ∧
    busAnswer (withRegion 0x3100 .read .silent twoPrints).cfg .read (leftAddr twoPrints.distArgs 0) = .ok ∧
    busAnswer (withRegion 0x3100 .read .silent twoPrints).cfg .read (rightAddr twoPrints.distArgs 0) = .silent := by
  decide +kernel

theorem witness_StepsStopOnlyWhereTheSpecSaysSo_hash :
    halfWhite.busy = false ∧ halfWhite.quiet = true ∧
    failingDetail .hash (withRegion 0x1000 .read .silent halfWhite) = none ∧
    covered .hash (withRegion 0x1000 .read .silent halfWhite) 0 0 ∧
    busAnswer (withRegion 0x1000 .read .silent halfWhite).cfg .read (pixAddr halfWhite.hashArgs 0 0 0) = .silent ∧
    failingDetail .hash (withRegion 0x2000 .write .silent halfWhite) = none ∧
    readsAnswered .hash (withRegion 0x2000 .write .silent halfWhite) ∧ 0 < fpLength halfWhite ∧
    busAnswer (withRegion 0x2000 .write .silent halfWhite).cfg .write (fingerprintAddr halfWhite.hashArgs 0) =
      .silent := by
  refine ⟨rfl, rfl, by decide +kernel, ?_, by decide +kernel, by decide +kernel, ?_, by decide +kernel,
    by decide +kernel⟩
  · have h : ((withRegion 0x1000 .read .silent halfWhite).hashPath .hash) = .exact := by decide +kernel
    simp only [covered, h]
    decide +kernel
  · intro x y ch _ _
    simp [busAnswer, withRegion, covers]

/-- A step that faults, and what it faults on. -/
theorem witness_StepsStopOnlyWhereTheSpecSaysSo_fault :
    step (withRegion 0x3000 .read .silent comparing) = .fault (.portSilent 0x3000) := by
  have hs : distStop (withRegion 0x3000 .read .silent comparing).cfg
      (withRegion 0x3000 .read .silent comparing).distArgs = some (.silent 0x3000) := by decide +kernel
  have hstep : step (withRegion 0x3000 .read .silent comparing) =
      (withRegion 0x3000 .read .silent comparing).finishDistance := rfl
  rw [hstep, State.finishDistance, hs]
  rfl

theorem witness_EveryStepKeepsTheInvariant : running.Inv ∧ ∃ t, step running = .next t :=
  ⟨by decide +kernel, step_answers (by decide +kernel)⟩

/-- An access the platform never answers faults (93_implementation_defined.md row 24). -/
theorem test_silent_access :
    (match step ((withRegion 0x1000 .read .silent halfWhite).withCommand 0x00000001) with
      | .fault f => f == .portSilent 0x1000
      | _ => false) = true := by decide +kernel

end Sys2Proof.Tests
end

section
/-! PROOFS. The register block's control side (10_state.md R39 to R42, R56, R57): what one host operation does to
STATUS, CMD, the reserved offsets and the configuration registers, and what every step does to CMD_OVR and, while
BUSY, to the operands. -/

namespace Sys2Proof.Machine

open Sys2Proof.Claims

/-! ## A host operation made now -/

/-- The operation `hostStep` makes is the host's turn itself. -/
@[simp] theorem hostStep_eq_hostTurn (op : HostOp) (s : State) : hostStep op s = hostTurn op s := step_of_op op s

theorem hostTurn_write_cmd (w : Word) (s : State) : hostTurn (.regWrite 0x0C 4 w) s = submitWord w s :=
  hostTurn_write .cmd w s

theorem hostTurn_write_status (v : Word) (s : State) :
    hostTurn (.regWrite 0x08 4 v) s = .next (s.writeStatus v) := hostTurn_write .status v s

theorem hostTurn_write_of_ne_cmd {r : Reg} (hr : r ≠ .cmd) (v : Word) (s : State) :
    hostTurn (.regWrite r.offset 4 v) s = .next (s.writeReg r v) := by rw [hostTurn_write, if_neg hr]

theorem ne_cmd_of_mem_configRegs {r : Reg} (hr : r ∈ configRegs) : r ≠ .cmd := by rintro rfl; simp [configRegs] at hr

/-! ## Words written to CMD -/

theorem submitWord_of_busy {s : State} (hb : s.busy = true) (w : Word) : submitWord w s = .next s.overrun := by
  simp [submitWord, hb]

theorem submitWord_of_ok {s : State} (hb : s.busy = false) {w : Word} {i : Instr} (hd : decode w = .ok i) :
    submitWord w s = exec i s := by simp [submitWord, hb, hd]

theorem submitWord_of_error {s : State} (hb : s.busy = false) {w : Word} {r : Reject} (hd : decode w = .error r) :
    submitWord w s = .next (s.rejectWord r) := by simp [submitWord, hb, hd]

/-- A word that decodes to a command is that command's encoding (30_encoding.md R102 to R104). -/
theorem eq_encode_of_decode {w : Word} {i : Instr} (hd : decode w = .ok i) : w = encode i := by
  have hlt : w.toNat < 16 := by
    by_contra hge
    rw [decode_reservedField (by omega)] at hd
    cases hd
  rw [decode_of_lt hlt] at hd
  apply BitVec.eq_of_toNat_eq
  split at hd <;> cases hd <;> simpa [encode]

/-- CLEAR is the word 5 alone. -/
theorem decode_eq_ok_clear_iff (w : Word) : decode w = .ok .clear ↔ w = 0x00000005 :=
  ⟨eq_encode_of_decode, by rintro rfl; rfl⟩

/-- Settles O8: by the three branches of a word submitted to CMD. -/
theorem commandWordsAreSubmittedOrDropped : Obligations.CommandWordsAreSubmittedOrDropped := by
  intro s
  refine ⟨fun hb => ⟨fun w => ?_, fun i => exec_of_busy i hb⟩, fun hb w => ⟨fun i hd => ?_, fun r hd => ?_⟩, ?_⟩
  · rw [hostStep_eq_hostTurn, hostTurn_write_cmd, submitWord_of_busy hb, State.overrun]
  · rw [hostStep_eq_hostTurn, hostTurn_write_cmd, submitWord_of_ok hb hd]
  · rw [hostStep_eq_hostTurn, hostTurn_write_cmd, submitWord_of_error hb hd]
    exact ⟨_, rfl, rfl⟩
  · rw [hostStep_eq_hostTurn]
    exact (hostTurn_read .cmd s).trans (congrArg _ (hostRead_settled (r := .cmd) (by decide) nofun))

/-! ## STATUS -/

/-- Settles O11: a bit written as 1 clears its flag, one written as 0 leaves it. -/
theorem statusWriteClearsByOnes : Obligations.StatusWriteClearsByOnes := by
  intro s v
  rw [hostStep_eq_hostTurn, hostTurn_write_status, State.writeStatus]
  cases v.getLsbD 1 <;> cases v.getLsbD 3 <;> simp

theorem statusWord_getLsbD_two (s : State) : s.statusWord.getLsbD 2 = s.errFlag := by
  simp only [State.statusWord, bit, BitVec.getLsbD_append]
  simp

/-- The low byte of ERR is CODE (10_state.md R43). -/
theorem errWord_and_low_byte (s : State) : s.errWord &&& 0xFF = s.errCode.toByte.setWidth 32 := by
  have hcode := s.errCode.toByte.isLt
  apply BitVec.eq_of_toNat_eq
  rw [BitVec.toNat_and, show (0xFF : Word).toNat = 2 ^ 8 - 1 from rfl, Nat.and_two_pow_sub_one_eq_mod,
    BitVec.toNat_setWidth, State.errWord, State.record, CmdError.word, BitVec.toNat_append,
    ← Nat.shiftLeft_add_eq_or_of_lt hcode, Nat.shiftLeft_eq]
  omega

theorem writeStatus_four (s : State) : s.writeStatus 0x00000004 = s := by
  simp [State.writeStatus]

/-- Settles O15: STATUS.ERR and the low byte of ERR are read from the same code. -/
theorem statusErrShowsTheErrorCode : Obligations.StatusErrShowsTheErrorCode := by
  refine ⟨fun s => ?_, fun s => ?_⟩
  · change s.statusWord.getLsbD 2 = true ↔ s.errWord &&& 0xFF ≠ 0
    rw [statusWord_getLsbD_two, errWord_and_low_byte, State.errFlag]
    cases s.errCode <;> decide
  · rw [hostStep_eq_hostTurn, hostTurn_write_status, writeStatus_four]

/-! ## Reserved offsets -/

/-- Settles O12: no register stands at an offset from 0x44 on. -/
theorem reservedOffsetsReadZeroAndIgnoreWrites : Obligations.ReservedOffsetsReadZeroAndIgnoreWrites := by
  intro s off v hoff hal
  have ha : alignedAccess off 4 = true := by simp [alignedAccess, hal]
  have hr : regAt off = none := regAt_reserved hoff
  constructor
  · simp [hostTurn, ha, hostWrite, hr]
  · simp [hostTurn, ha, hostRead, hostReadWord, hr]

/-! ## Operands while BUSY -/

/-- The operands of the hash commands and of HDIST, and the parameters, are the same in both states. -/
def SameOperands (s t : State) : Prop := t.hashArgs = s.hashArgs ∧ t.distArgs = s.distArgs ∧ t.cfg = s.cfg

/-- 10_state.md R57: while BUSY a configuration register ignores writes. -/
theorem writeReg_of_busy_config {s : State} (hb : s.busy = true) {r : Reg} (hr : r ∈ configRegs) (v : Word) :
    s.writeReg r v = s := by
  cases r <;> simp [configRegs] at hr <;> simp [State.writeReg, State.writeConfig, hb]

/-- While BUSY no register write reaches an operand: CTRL and STATUS hold none, the configuration registers ignore it. -/
theorem writeReg_sameOperands_of_busy {s : State} (hb : s.busy = true) (r : Reg) (v : Word) :
    SameOperands s (s.writeReg r v) := by
  by_cases hr : r ∈ configRegs
  · rw [writeReg_of_busy_config hb hr]; exact ⟨rfl, rfl, rfl⟩
  · cases r <;> simp [configRegs] at hr <;> exact ⟨rfl, rfl, rfl⟩

/-- The engine's own move ends the command. -/
theorem finish_next_busy {s t : State} (hb : s.busy = true) (h : s.finish = .next t) : t.busy = false := by
  rcases finish_next hb h with ⟨op, r, -, -, rfl⟩ | ⟨op, r, e, -, -, rfl⟩ | ⟨r, -, -, rfl⟩ | ⟨r, e, -, -, rfl⟩ <;> simp

theorem hostWrite_sameOperands_of_busy {s t : State} {off : BitVec 8} {v : Word} (hb : s.busy = true)
    (h : hostWrite off v s = .next t) : SameOperands s t := by
  rcases hostWrite_next h with ⟨-, hw⟩ | ⟨r, -, -, rfl⟩ | ⟨-, rfl⟩
  · rw [submitWord_of_busy hb] at hw
    cases hw
    exact ⟨rfl, rfl, rfl⟩
  · exact writeReg_sameOperands_of_busy hb r v
  · exact ⟨rfl, rfl, rfl⟩

/-- A host operation on a busy engine keeps the operands unless it is a reset, which leaves the engine idle. -/
theorem hostTurn_sameOperands_of_busy {s t : State} {op : HostOp} (hb : s.busy = true) (ht : t.busy = true)
    (h : hostTurn op s = .next t) : SameOperands s t := by
  rcases hostTurn_next h with ⟨off, v, rfl, -, hw⟩ | ⟨off, rfl, -, rfl⟩ | ⟨a, v, rfl, rfl⟩ | ⟨a, rfl, rfl⟩ |
    ⟨rfl, rfl⟩ | ⟨rfl, rfl⟩
  case inl => exact hostWrite_sameOperands_of_busy hb hw
  case inr.inr.inr.inr.inr => simp at ht
  all_goals exact ⟨rfl, rfl, rfl⟩

/-- 10_state.md R57: a step that stays busy keeps the operands. -/
theorem step_sameOperands_of_busy {s t : State} (hb : s.busy = true) (ht : t.busy = true) (h : step s = .next t) :
    SameOperands s t := by
  rcases step_cases s with ⟨-, -, he⟩ | ⟨hidle, -, -⟩ | ⟨p, rest, -, -, he⟩
  · rw [finish_next_busy hb (he ▸ h)] at ht
    cases ht
  · rw [hb] at hidle
    cases hidle
  · exact hostTurn_sameOperands_of_busy (s := s.withInputs rest) hb ht (he ▸ h)

/-- Settles O10: by the register written, and for the last part by what a step from BUSY to BUSY can be. -/
theorem operandsAreFrozenWhileBusy : Obligations.OperandsAreFrozenWhileBusy := by
  refine ⟨fun s r v hb hr => ?_, fun s v hb => ⟨?_, ?_, ?_⟩, fun s t hb ht h => step_sameOperands_of_busy hb ht h⟩
  · rw [hostStep_eq_hostTurn, hostTurn_write_of_ne_cmd (ne_cmd_of_mem_configRegs hr), writeReg_of_busy_config hb hr]
  · exact (hostStep_eq_hostTurn _ s).trans (hostTurn_write_of_ne_cmd (r := .ctrl) (by decide) v s)
  · rw [hostStep_eq_hostTurn, hostTurn_write_status, State.writeStatus]
  · rw [hostStep_eq_hostTurn, hostTurn_write_cmd, submitWord_of_busy hb, State.overrun]

/-! ## CMD_OVR after each step -/

/-- The engine's own move leaves CMD_OVR. -/
theorem finish_next_cmdOvr {s t : State} (hb : s.busy = true) (h : s.finish = .next t) : t.cmdOvr = s.cmdOvr := by
  rcases finish_next hb h with ⟨op, r, -, -, rfl⟩ | ⟨op, r, e, -, -, rfl⟩ | ⟨r, -, -, rfl⟩ | ⟨r, e, -, -, rfl⟩ <;> simp

/-- In an idle engine CLEAR clears CMD_OVR and every other command leaves it. -/
theorem exec_next_cmdOvr {s t : State} {i : Instr} (hb : s.busy = false) (h : exec i s = .next t) :
    t.cmdOvr = if i = .clear then false else s.cmdOvr := by
  rcases exec_next hb h with ⟨rfl, rfl⟩ | ⟨rfl, rfl⟩ | ⟨op, hi, hrun⟩
  · rfl
  · rfl
  · have hne : i ≠ .clear := by rintro rfl; cases hi
    rw [if_neg hne]
    rcases hrun with ⟨-, rfl⟩ | ⟨-, hf⟩
    · rfl
    · exact finish_next_cmdOvr (s := s.accept op) rfl hf

theorem submitWord_next_cmdOvr {s t : State} {w : Word} (h : submitWord w s = .next t) :
    t.cmdOvr = if s.busy then true else if w = 0x00000005 then false else s.cmdOvr := by
  rcases submitWord_next h with ⟨hb, rfl⟩ | ⟨hb, i, hd, he⟩ | ⟨hb, r, hd, rfl⟩
  · simp [hb]
  · have hw : i = .clear ↔ w = 0x00000005 := by rw [← decode_eq_ok_clear_iff, hd, Except.ok.injEq]
    simp only [hb, exec_next_cmdOvr hb he, hw, Bool.false_eq_true, if_false]
  · have hw : w ≠ 0x00000005 := by rw [Ne, ← decode_eq_ok_clear_iff, hd]; nofun
    simp only [hb, if_neg hw, State.rejectWord, State.raise_cmdOvr, Bool.false_eq_true, if_false]

theorem hostWrite_next_cmdOvr {s t : State} {off : BitVec 8} {v : Word} (h : hostWrite off v s = .next t) :
    t.cmdOvr =
      if off = 0x0C then (if s.busy then true else if v = 0x00000005 then false else s.cmdOvr)
      else if off = 0x08 then s.cmdOvr && !v.getLsbD 3
      else s.cmdOvr := by
  rcases hostWrite_next h with ⟨rfl, hw⟩ | ⟨r, hr, rfl, rfl⟩ | ⟨hnone, rfl⟩
  · exact submitWord_next_cmdOvr hw
  · rw [State.writeReg_cmdOvr]
    cases r <;> simp [Reg.offset] at hr ⊢
  · have h1 : off ≠ 0x0C := by rintro rfl; cases hnone
    have h2 : off ≠ 0x08 := by rintro rfl; cases hnone
    rw [if_neg h1, if_neg h2]

theorem hostMove_of_cons {s : State} {p : Pending} {rest : List Pending} (hi : s.inputs = p :: rest)
    (hm : (s.busy && s.quiet) = false) : hostMove s = some p.op := by simp [hostMove, headOp, hm, hi]

theorem hostMove_of_busy_quiet {s : State} (hb : s.busy = true) (hq : s.quiet = true) : hostMove s = none := by
  simp [hostMove, hb, hq]

theorem hostMove_of_nil {s : State} (hi : s.inputs = []) : hostMove s = none := by simp [hostMove, headOp, hi]

/-- Settles O54: by what the step is, the engine's move, a wait, or the host's operation, and for that by its kind. -/
theorem commandOverrunFollowsItsRule : Obligations.CommandOverrunFollowsItsRule := by
  intro s t h
  rcases step_cases s with ⟨hb, hq, he⟩ | ⟨-, hi, he⟩ | ⟨p, rest, hi, hm, he⟩
  · simp only [cmdOvrAfter, hostMove_of_busy_quiet hb hq]
    exact finish_next_cmdOvr hb (he ▸ h)
  · simp only [cmdOvrAfter, hostMove_of_nil hi]
    cases he ▸ h
    rfl
  · simp only [cmdOvrAfter, hostMove_of_cons hi hm]
    rcases hostTurn_next (he ▸ h) with ⟨off, v, hop, -, hw⟩ | ⟨off, hop, -, rfl⟩ | ⟨a, v, hop, rfl⟩ | ⟨a, hop, rfl⟩ |
      ⟨hop, rfl⟩ | ⟨hop, rfl⟩ <;> rw [hop]
    case inl => exact hostWrite_next_cmdOvr (s := s.withInputs rest) hw
    all_goals rfl

end Sys2Proof.Machine
end

section
/-! PROOFS. The opcode map over every word (30_encoding.md R103, R104). The statement gives a word's fields as a
shift and a mask; both are read as facts about the word's number, of which the laws of the decoder speak. -/

namespace Sys2Proof.Machine

theorem shiftRight_four_eq_zero_iff (w : Word) : w >>> 4 = 0 ↔ w.toNat < 16 := by
  rw [← BitVec.toNat_inj, BitVec.toNat_ushiftRight, Nat.shiftRight_eq_div_pow]
  simp

theorem and_fifteen_toNat (w : Word) : (w &&& 0xF).toNat = w.toNat % 16 := by
  rw [BitVec.toNat_and]
  exact Nat.and_two_pow_sub_one_eq_mod w.toNat 4

theorem decode_reservedOpcode {w : Word} (hge : 6 ≤ w.toNat) (hlt : w.toNat < 16) :
    decode w = .error .reservedOpcode := by
  rw [decode_of_lt hlt]
  generalize w.toNat = n at hge hlt ⊢
  interval_cases n <;> rfl

/-- The words 0 to 5 are the encodings of the commands, in the order of the opcode map (30_encoding.md R103). -/
theorem decode_of_lt_six {w : Word} (h : w.toNat < 6) :
    ∃ i, [Instr.nop, .hash, .hashq, .hashw, .hdist, .clear][w.toNat]? = some i ∧ decode w = .ok i := by
  rw [decode_of_lt (by omega)]
  generalize w.toNat = n at h ⊢
  interval_cases n <;> exact ⟨_, rfl, rfl⟩

/-- Settles O1: RSVD is 0 exactly below 16, and there the opcode is the word itself. -/
theorem decodeFollowsTheOpcodeMap : Obligations.DecodeFollowsTheOpcodeMap := by
  intro w
  rw [ne_eq, shiftRight_four_eq_zero_iff, and_fifteen_toNat]
  refine ⟨fun hr => ⟨.reservedField, decode_reservedField (by omega), rfl⟩, fun hr ho => ?_, fun hr ho => ?_⟩
  · rw [Nat.mod_eq_of_lt hr] at ho
    exact ⟨.reservedOpcode, decode_reservedOpcode ho hr, rfl⟩
  · rw [Nat.mod_eq_of_lt hr] at ho ⊢
    exact decode_of_lt_six ho

end Sys2Proof.Machine
end

section
/-! PROOFS. The BlockAggregator's two paths (40_block_aggregator.md R121 to R124, R135): which path a command takes,
what a cell of the exact path holds, and that the paths agree where bits divides the image. -/

namespace Sys2Proof.Machine

open Sys2Proof.Claims F64

/-! ## The path of a command -/

theorem hashPath_hash_eq_exact_iff (s : State) :
    s.hashPath .hash = .exact ↔ s.bits.toNat ∣ s.width.toNat ∧ s.bits.toNat ∣ s.height.toNat := by
  simp [State.hashPath, pathOf, Nat.dvd_iff_mod_eq_zero]

theorem runOpOf_hashInstr (op : HashOp) : runOpOf (hashInstr op) = some (.hash op) := by cases op <;> rfl

/-- Settles O28: by the command, and for INFO.PATH by the two ways a hash command ends. -/
theorem pathIsChosenByTheCommand : Obligations.PathIsChosenByTheCommand := by
  intro s
  refine ⟨rfl, rfl, hashPath_hash_eq_exact_iff s, fun op t hb hq h herr => ?_⟩
  obtain ⟨-, -, ⟨-, ht⟩ | ⟨e, -, he, ht⟩⟩ := exec_hash_next (runOpOf_hashInstr op) hb hq h
  · rw [ht]
    exact beq_iff_eq
  · rw [ht] at herr
    exact absurd herr he

/-! ## Block sums -/

theorem sum_map_range (n : Nat) (f : Nat → Nat) : ((List.range n).map f).sum = ∑ i ∈ Finset.range n, f i := rfl

/-- The sum of a block as a sum over its rows and columns (40_block_aggregator.md R123). -/
theorem blockSum_eq_sum (bw bh r c : Nat) (pix : Nat → Nat → Nat) :
    blockSum bw bh r c pix =
      ∑ iy ∈ Finset.range bh, ∑ ix ∈ Finset.range bw, pix (c * bw + ix) (r * bh + iy) := rfl

theorem blockSum_le {pix : Nat → Nat → Nat} (hv : ∀ x y, pix x y ≤ 765) (bw bh r c : Nat) :
    blockSum bw bh r c pix ≤ bh * (bw * 765) := by
  rw [blockSum_eq_sum]
  have hrow (iy : Nat) : ∑ ix ∈ Finset.range bw, pix (c * bw + ix) (r * bh + iy) ≤ bw * 765 := by
    simpa using Finset.sum_le_card_nsmul (Finset.range bw) _ 765 fun ix _ => hv (c * bw + ix) (r * bh + iy)
  simpa using Finset.sum_le_card_nsmul (Finset.range bh) _ (bw * 765) fun iy _ => hrow iy

/-- 00_scope.md R21: no block sum reaches 2^53. -/
theorem blockSum_lt {pix : Nat → Nat → Nat} (hv : ∀ x y, pix x y ≤ 765) {bw bh : Nat} (hw : bw ≤ 65535)
    (hh : bh ≤ 65535) (r c : Nat) : blockSum bw bh r c pix < 2 ^ 53 :=
  calc blockSum bw bh r c pix ≤ bh * (bw * 765) := blockSum_le hv bw bh r c
    _ ≤ 65535 * (65535 * 765) := Nat.mul_le_mul hh (Nat.mul_le_mul_right 765 hw)
    _ < 2 ^ 53 := by norm_num

theorem blockPixels_lt {bw bh : Nat} (hw : bw ≤ 65535) (hh : bh ≤ 65535) : bw * bh < 2 ^ 53 :=
  (Nat.mul_le_mul hw hh).trans_lt (by norm_num)

/-! ## Cells of the exact path -/

theorem raster_length (w h : Nat) : (raster w h).length = h * w := by simp [raster]

/-- Where a pixel stands in raster order (20_memory.md R72). -/
theorem getElem?_raster {w h x y : Nat} (hx : x < w) (hy : y < h) : (raster w h)[y * w + x]? = some (x, y) := by
  obtain ⟨rows, hrows⟩ := range_split hy
  have hcat : raster w h = raster w y ++ ((List.range w).map (fun x => (x, y)) ++
      rows.flatMap fun y => (List.range w).map fun x => (x, y)) := by
    simp only [raster, hrows, List.flatMap_append, List.flatMap_cons]
  rw [hcat, List.getElem?_append_right (by rw [raster_length]; omega), raster_length, Nat.add_sub_cancel_left,
    List.getElem?_append_left (by simpa using hx)]
  simp [hx]

theorem exactAggregate_grid (w h bits : Nat) (pix : Nat → Nat → Nat) :
    (exactAggregate w h bits pix).grid =
      (raster bits bits).map fun p => F64.ofNat (blockSum (w / bits) (h / bits) p.2 p.1 pix) := by
  simp [exactAggregate, raster, List.map_flatMap, Function.comp_def]

/-- Cell (r, c) of the exact path (40_block_aggregator.md R123). -/
theorem getElem?_exactAggregate_grid {w h bits r c : Nat} (hr : r < bits) (hc : c < bits) (pix : Nat → Nat → Nat) :
    (exactAggregate w h bits pix).grid[r * bits + c]? = some (F64.ofNat (blockSum (w / bits) (h / bits) r c pix)) := by
  rw [exactAggregate_grid, List.getElem?_map, getElem?_raster hc hr, Option.map_some]

/-- Settles O38: a block sum and the number of pixels of a block are integers below 2^53. -/
theorem exactPathSumsEachBlock : Obligations.ExactPathSumsEachBlock := by
  intro w h bits r c pix hw hh _ hr hc hv
  have hbw : w / bits ≤ 65535 := (Nat.div_le_self w bits).trans hw
  have hbh : h / bits ≤ 65535 := (Nat.div_le_self h bits).trans hh
  refine ⟨_, getElem?_exactAggregate_grid hr hc pix, ?_, ?_⟩
  · rw [ofNat_eq (blockSum_lt hv hbw hbh r c), ofUnits_units, ← blockSum_eq_sum, Nat.mul_comm, Nat.cast_mul]
  · rw [exactAggregate, ofNat_eq (blockPixels_lt hbw hbh), ofUnits_units, Nat.mul_comm, Nat.cast_mul]

/-! ## The weighted path on even axes -/

/-- The cell of a pixel, `bw` by `bh` pixels to a block. -/
def cellOf (bits bw bh : Nat) (p : Nat × Nat) : Nat := p.2 / bh * bits + p.1 / bw

/-- The grid of integer intensity sums once the pixels `ps` are added to `g`. -/
def addPixels (bits bw bh : Nat) (pix : Nat → Nat → Nat) (ps : List (Nat × Nat)) (g : List Nat) : List Nat :=
  ps.foldl (fun g p => g.modify (cellOf bits bw bh p) (· + pix p.1 p.2)) g

theorem getElem?_addPixels (bits bw bh : Nat) (pix : Nat → Nat → Nat) (ps : List (Nat × Nat)) (g : List Nat)
    (j : Nat) :
    (addPixels bits bw bh pix ps g)[j]? =
      g[j]?.map (· + (ps.map fun p => if cellOf bits bw bh p = j then pix p.1 p.2 else 0).sum) := by
  induction ps generalizing g with
  | nil => simp [addPixels]
  | cons p ps ih =>
    have hcons : addPixels bits bw bh pix (p :: ps) g =
      addPixels bits bw bh pix ps (g.modify (cellOf bits bw bh p) (· + pix p.1 p.2)) := rfl
    rw [hcons, ih, List.getElem?_modify, List.map_cons, List.sum_cons]
    by_cases hp : cellOf bits bw bh p = j <;> simp [hp, Function.comp_def, Nat.add_assoc]

/-- While no cell can reach 2^53, the weighted path on two even axes adds integers exactly
(40_block_aggregator.md R135). -/
theorem foldl_contribute_even {w h bits : Nat} {pix : Nat → Nat → Nat} (hw : bits ∣ w) (hh : bits ∣ h)
    (hv : ∀ x y, pix x y ≤ 765) (ps : List (Nat × Nat)) (g : List Nat)
    (hg : ∀ n ∈ g, n + 765 * ps.length < 2 ^ 53) :
    ps.foldl (fun grid p => contribute bits (pix p.1 p.2) (axisMap p.2 h bits) (axisMap p.1 w bits) grid)
      (g.map F64.ofNat) = (addPixels bits (w / bits) (h / bits) pix ps g).map F64.ofNat := by
  induction ps generalizing g with
  | nil => rfl
  | cons p ps ih =>
    have hp := hv p.1 p.2
    simp only [List.length_cons] at hg
    have hstep : contribute bits (pix p.1 p.2) (axisMap p.2 h bits) (axisMap p.1 w bits) (g.map F64.ofNat) =
        (g.modify (cellOf bits (w / bits) (h / bits) p) (· + pix p.1 p.2)).map F64.ofNat := by
      simp only [axisMap, Nat.mod_eq_zero_of_dvd hw, Nat.mod_eq_zero_of_dvd hh, if_true, evenAxis]
      exact contribute_even bits _ _ _ g (fun n hn => by have := hg n hn; omega) (by omega)
    rw [List.foldl_cons, hstep]
    refine ih _ fun n hn => ?_
    obtain ⟨i, hi, rfl⟩ := List.getElem_of_mem hn
    have := hg _ (List.getElem_mem (l := g) (by simpa using hi))
    rw [List.getElem_modify]
    split_ifs <;> omega

theorem sum_map_raster (w h : Nat) (f : Nat × Nat → Nat) :
    ((raster w h).map f).sum = ∑ y ∈ Finset.range h, ∑ x ∈ Finset.range w, f (x, y) := by
  simp [raster, List.flatMap, List.sum_flatten, Function.comp_def, sum_map_range]

/-- The coordinates of block `c` of an axis. -/
theorem sum_range_block {n k c : Nat} (hk : 0 < k) (h : (c + 1) * k ≤ n) (f : Nat → Nat) :
    (∑ x ∈ Finset.range n, if x / k = c then f x else 0) = ∑ i ∈ Finset.range k, f (c * k + i) := by
  have hblock : (Finset.range n).filter (fun x => x / k = c) = Finset.Ico (c * k) ((c + 1) * k) := by
    ext x
    rw [Finset.mem_filter, Finset.mem_range, Finset.mem_Ico, Nat.div_eq_iff hk]
    rw [Nat.succ_mul] at h ⊢
    omega
  rw [← Finset.sum_filter, hblock, Finset.sum_Ico_eq_sum_range, ← Nat.sub_mul, Nat.add_sub_cancel_left, Nat.one_mul]

theorem cell_index_inj {bits r c r' c' : Nat} (hc : c < bits) (hc' : c' < bits) :
    r' * bits + c' = r * bits + c ↔ r' = r ∧ c' = c := by
  refine ⟨fun h => ?_, fun ⟨hr, hc⟩ => by rw [hr, hc]⟩
  have hdiv := congrArg (· / bits) h
  have hmod := congrArg (· % bits) h
  have hb : 0 < bits := by omega
  simp only [Nat.mul_comm _ bits, Nat.mul_add_div hb, Nat.mul_add_mod, Nat.div_eq_of_lt, Nat.mod_eq_of_lt, hc, hc',
    Nat.add_zero] at hdiv hmod
  exact ⟨hdiv, hmod⟩

/-- The pixels of a whole image that fall into cell (r, c) are those of its block (40_block_aggregator.md R135). -/
theorem sum_pixels_of_cell {bits bw bh r c : Nat} (hbw : 0 < bw) (hbh : 0 < bh) (hr : r < bits) (hc : c < bits)
    (pix : Nat → Nat → Nat) :
    ((raster (bits * bw) (bits * bh)).map fun p =>
      if cellOf bits bw bh p = r * bits + c then pix p.1 p.2 else 0).sum = blockSum bw bh r c pix := by
  have hcol {x : Nat} (hx : x ∈ Finset.range (bits * bw)) : x / bw < bits := by
    rwa [Nat.div_lt_iff_lt_mul hbw, ← Finset.mem_range]
  have hrow (y : Nat) :
      (∑ x ∈ Finset.range (bits * bw), if cellOf bits bw bh (x, y) = r * bits + c then pix x y else 0) =
        if y / bh = r then ∑ ix ∈ Finset.range bw, pix (c * bw + ix) y else 0 := by
    rw [← sum_range_block hbw (Nat.mul_le_mul_right bw hc) (fun x => pix x y)]
    split_ifs with hy
    · refine Finset.sum_congr rfl fun x hx => ?_
      simp only [cellOf, cell_index_inj hc (hcol hx), hy, true_and]
    · refine Finset.sum_eq_zero fun x hx => ?_
      simp only [cellOf, cell_index_inj hc (hcol hx), hy, false_and, if_false]
  rw [sum_map_raster, blockSum_eq_sum, Finset.sum_congr rfl fun y _ => hrow y]
  exact sum_range_block hbh (Nat.mul_le_mul_right bh hr) fun y => ∑ ix ∈ Finset.range bw, pix (c * bw + ix) y

/-- The grid of the weighted path on two even axes: the integer intensity sums (40_block_aggregator.md R135). -/
theorem weightedAggregate_grid_even {w h bits : Nat} {pix : Nat → Nat → Nat} (hw' : w ≤ 65535) (hh' : h ≤ 65535)
    (hw : bits ∣ w) (hh : bits ∣ h) (hv : ∀ x y, pix x y ≤ 765) :
    (weightedAggregate w h bits pix).grid =
      (addPixels bits (w / bits) (h / bits) pix (raster w h) (List.replicate (bits * bits) 0)).map F64.ofNat := by
  have hlen : (raster w h).length ≤ 65535 * 65535 := raster_length w h ▸ Nat.mul_le_mul hh' hw'
  rw [← foldl_contribute_even hw hh hv, List.map_replicate]
  · rfl
  · intro n hn
    rw [List.eq_of_mem_replicate hn]
    omega

/-- Cell (r, c) of the weighted path on two even axes. -/
theorem getElem?_weightedAggregate_grid_even {bits bw bh r c : Nat} {pix : Nat → Nat → Nat} (hbw : 0 < bw)
    (hbh : 0 < bh) (hw : bits * bw ≤ 65535) (hh : bits * bh ≤ 65535) (hv : ∀ x y, pix x y ≤ 765) (hr : r < bits)
    (hc : c < bits) :
    (weightedAggregate (bits * bw) (bits * bh) bits pix).grid[r * bits + c]? =
      some (F64.ofNat (blockSum bw bh r c pix)) := by
  have hb : 0 < bits := by omega
  have hj : r * bits + c < bits * bits :=
    calc r * bits + c < (r + 1) * bits := by rw [Nat.succ_mul]; omega
      _ ≤ bits * bits := Nat.mul_le_mul_right bits hr
  rw [weightedAggregate_grid_even hw hh (Nat.dvd_mul_right ..) (Nat.dvd_mul_right ..) hv, List.getElem?_map,
    getElem?_addPixels, Nat.mul_div_cancel_left _ hb, Nat.mul_div_cancel_left _ hb,
    sum_pixels_of_cell hbw hbh hr hc, List.getElem?_replicate_of_lt hj]
  simp

/-- 40_block_aggregator.md R135 for the aggregation itself. -/
theorem weightedAggregate_eq_exactAggregate {w h bits : Nat} {pix : Nat → Nat → Nat} (hw0 : 0 < w) (hw' : w ≤ 65535)
    (hh0 : 0 < h) (hh' : h ≤ 65535) (hw : bits ∣ w) (hh : bits ∣ h) (hv : ∀ x y, pix x y ≤ 765) :
    weightedAggregate w h bits pix = exactAggregate w h bits pix := by
  have hgrid : (weightedAggregate w h bits pix).grid = (exactAggregate w h bits pix).grid := by
    have hb : 0 < bits := Nat.pos_of_dvd_of_pos hw hw0
    refine List.ext_getElem? fun j => ?_
    rcases Nat.lt_or_ge j (bits * bits) with hj | hj
    · have hr : j / bits < bits := by rwa [Nat.div_lt_iff_lt_mul hb]
      have hc : j % bits < bits := Nat.mod_lt j hb
      rw [← Nat.div_add_mod' j bits, getElem?_exactAggregate_grid hr hc]
      obtain ⟨bw, rfl⟩ := hw
      obtain ⟨bh, rfl⟩ := hh
      rw [getElem?_weightedAggregate_grid_even (Nat.pos_of_mul_pos_left hw0) (Nat.pos_of_mul_pos_left hh0) hw' hh' hv
        hr hc, Nat.mul_div_cancel_left _ hb, Nat.mul_div_cancel_left _ hb]
    · have h1 := aggregate_grid_length .weighted w h bits pix
      have h2 := aggregate_grid_length .exact w h bits pix
      exact (List.getElem?_eq_none (h1.trans_le hj)).trans (List.getElem?_eq_none (h2.trans_le hj)).symm
  have hppb : (weightedAggregate w h bits pix).ppb = (exactAggregate w h bits pix).ppb := by
    have hbw : w / bits ≤ 65535 := (Nat.div_le_self w bits).trans hw'
    have hbh : h / bits ≤ 65535 := (Nat.div_le_self h bits).trans hh'
    rw [weightedAggregate, blockSize_even hw0 hw' hw, blockSize_even hh0 hh' hh, exactAggregate]
    exact mul_ofNat (by omega) (by omega) (blockPixels_lt hbw hbh)
  exact Aggregate.mk.injEq .. |>.mpr ⟨hgrid, hppb⟩

/-! ## Two hash commands on one image -/

theorem intensity_le (r g b a : Byte) : intensity r g b a ≤ 765 := by
  have hr := r.isLt
  have hg := g.isLt
  have hb := b.isLt
  unfold intensity
  split_ifs <;> omega

/-- A command that is accepted and runs at once reads the image in memory. -/
theorem accept_fingerprint (op : HashOp) (s : State) :
    (s.accept (.hash op)).fingerprint op = memFingerprint op s := by
  have hpix : (s.accept (.hash op)).pixel = memPixel s := by
    funext x y
    simp [State.pixel, State.channel, memPixel, byteAt]
  rw [State.fingerprint, hpix]
  rfl

/-- Two hash commands that stop at the same place before their writes, or at none and then with one fingerprint, set
out to make the same writes. -/
theorem accept_plannedWrites_congr {op op' : HashOp} {s : State}
    (hr : hashReadStop s.cfg op' s.hashArgs = hashReadStop s.cfg op s.hashArgs)
    (hf : hashReadStop s.cfg op s.hashArgs = none → memFingerprint op' s = memFingerprint op s) :
    (s.accept (.hash op')).plannedWrites op' = (s.accept (.hash op)).plannedWrites op := by
  simp only [State.plannedWrites, State.accept_cfg, State.accept_hashArgs, accept_fingerprint, hr]
  split
  · rfl
  · next hn => rw [hf hn]

/-- What a hash command answers, with INFO.PATH telling `weighted` unless it ended with an error. -/
def reportPath (weighted : Bool) : Host.Outcome State Fault Refusal → Host.Outcome State Fault Refusal
  | .next t => .next { t with infoPath := t.infoValid && weighted }
  | .fault f => .fault f
  | .refused r => .refused r

/-- Two such commands end alike but for INFO.PATH. -/
theorem exec_hash_eq_reportPath {op op' : HashOp} {s : State} (hb : s.busy = false) (hq : s.quiet = true)
    (hr : hashReadStop s.cfg op' s.hashArgs = hashReadStop s.cfg op s.hashArgs)
    (hf : hashReadStop s.cfg op s.hashArgs = none → memFingerprint op' s = memFingerprint op s) :
    exec (hashInstr op') s = reportPath (s.hashPath op' == .weighted) (exec (hashInstr op) s) := by
  have hplan := accept_plannedWrites_congr hr hf
  have hstop : (s.accept (.hash op')).hashStop op' = (s.accept (.hash op)).hashStop op := by
    simp only [State.hashStop, State.accept_cfg, State.accept_hashArgs, hr, hplan]
  have hperf : (s.accept (.hash op')).performedWrites op' = (s.accept (.hash op)).performedWrites op := by
    simp only [State.performedWrites, State.accept_cfg, hplan]
  have hpath (o : HashOp) : (s.accept (.hash o)).hashPath o = s.hashPath o := rfl
  simp only [exec_of_quiet (runOpOf_hashInstr _) hb hq, finish_accept_hash, State.finishHash, hstop, hperf, hpath]
  cases (s.accept (.hash op)).hashStop op with
  | none => simp only [completeHash_accept _ _ _ hb, reportPath, Bool.true_and]; rfl
  | some st =>
    cases st with
    | error e => simp only [State.endWith, raise_accept_hash _ _ _ hb, reportPath, Bool.false_and]; rfl
    | silent a => rfl

/-- A command's reads stop where its path says. -/
theorem hashReadStop_congr_path {op op' : HashOp} {o : HashArgs} (c : Config)
    (h : pathOf op' o.w o.h o.bits = pathOf op o.w o.h o.bits) : hashReadStop c op' o = hashReadStop c op o := by
  simp only [hashReadStop, checkHashArgs, hashChecks, h]

theorem memFingerprint_congr_path {op op' : HashOp} {s : State} (h : s.hashPath op' = s.hashPath op) :
    memFingerprint op' s = memFingerprint op s := by
  simp only [memFingerprint, h]

theorem checkHashArgs_hashw (c : Config) (s : State) :
    checkHashArgs c .hashw s.hashArgs = checkHashArgs c .hash s.hashArgs := by
  simp only [State.checkHashArgs_eq, reduceCtorEq, false_and, if_false]

/-- Where bits divides both sides, the exact path covers the whole image. -/
theorem pixelsOf_exact_of_dvd {w h bits : Nat} (hw : bits ∣ w) (hh : bits ∣ h) :
    pixelsOf .exact w h bits = pixelsOf .weighted w h bits := by
  simp only [pixelsOf, Nat.mul_div_cancel' hw, Nat.mul_div_cancel' hh]

/-- A command the reads of which all go through has legal operands. -/
theorem checkHashArgs_of_hashReadStop_none {c : Config} {op : HashOp} {o : HashArgs}
    (h : hashReadStop c op o = none) : checkHashArgs c op o = none := by
  by_contra hne
  obtain ⟨e, he⟩ := Option.ne_none_iff_exists'.mp hne
  rw [hashReadStop_of_check he] at h
  cases h

/-- Where bits divides both sides, HASHW reads what HASH reads, and its index checks hold
(40_block_aggregator.md R130). -/
theorem hashReadStop_hashw {s : State} (c : Config) (hw : s.bits.toNat ∣ s.width.toNat)
    (hh : s.bits.toNat ∣ s.height.toNat) :
    hashReadStop c .hashw s.hashArgs = hashReadStop c .hash s.hashArgs := by
  have hpath : pathOf .hash s.width.toNat s.height.toNat s.bits.toNat = .exact :=
    (hashPath_hash_eq_exact_iff s).mpr ⟨hw, hh⟩
  unfold hashReadStop
  rw [checkHashArgs_hashw]
  split
  · rfl
  · next hl =>
    simp only [State.hashArgs_w, State.hashArgs_h, State.hashArgs_bits, hpath, pixelsOf_exact_of_dvd hw hh]
    rw [← List.head?_filterMap, ← List.head?_filterMap]
    refine congrArg List.head? (List.filterMap_congr fun p hp => ?_)
    have hp' : p ∈ pixelsOf .exact s.width.toNat s.height.toNat s.bits.toNat := pixelsOf_exact_of_dvd hw hh ▸ hp
    rw [pixelStop_eq hl hp, pixelStop_eq hl hp']

/-- Where bits divides both sides of an image that is not empty, HASHW computes HASH's fingerprint. -/
theorem memFingerprint_hashw {s : State} (hw0 : s.width.toNat ≠ 0) (hh0 : s.height.toNat ≠ 0)
    (hw : s.bits.toNat ∣ s.width.toNat) (hh : s.bits.toNat ∣ s.height.toNat) :
    memFingerprint .hashw s = memFingerprint .hash s := by
  have hagg : weightedAggregate s.width.toNat s.height.toNat s.bits.toNat (memPixel s) =
      exactAggregate s.width.toNat s.height.toNat s.bits.toNat (memPixel s) :=
    weightedAggregate_eq_exactAggregate (Nat.pos_of_ne_zero hw0) (Nat.le_of_lt_succ s.width.isLt)
      (Nat.pos_of_ne_zero hh0) (Nat.le_of_lt_succ s.height.isLt) hw hh fun x y => intensity_le ..
  have hpathw : s.hashPath .hashw = .weighted := rfl
  simp only [memFingerprint, fingerprintOf, hpathw, (hashPath_hash_eq_exact_iff s).mpr ⟨hw, hh⟩, aggregate, hagg]

/-- Settles O33: the grids agree cell by cell, and HASHQ and HASHW stop and write as HASH does. -/
theorem pathEquivalence : Obligations.PathEquivalence := by
  refine ⟨fun w h bits pix hw0 hw' hh0 hh' hw hh hv => ?_, fun s hb hq hw hh => ?_⟩
  · exact weightedAggregate_eq_exactAggregate hw0 hw' hh0 hh' hw hh hv
  have hpath : s.hashPath .hash = .exact := (hashPath_hash_eq_exact_iff s).mpr ⟨hw, hh⟩
  have hpathq : s.hashPath .hashq = s.hashPath .hash := hpath.symm
  constructor
  · have hself := exec_hash_eq_reportPath (op := .hash) (op' := .hash) hb hq rfl fun _ => rfl
    have hq' := exec_hash_eq_reportPath (op := .hash) (op' := .hashq) hb hq (hashReadStop_congr_path s.cfg hpathq)
      fun _ => memFingerprint_congr_path hpathq
    rw [hpathq] at hq'
    exact hq'.trans hself.symm
  · intro t ht
    have hfp (hn : hashReadStop s.cfg .hash s.hashArgs = none) :
        memFingerprint .hashw s = memFingerprint .hash s := by
      obtain ⟨-, hw0, hh0, -⟩ := checkHashArgs_eq_none (checkHashArgs_of_hashReadStop_none hn)
      exact memFingerprint_hashw hw0 hh0 hw hh
    have hend := exec_hash_eq_reportPath (op := .hash) (op' := .hashw) hb hq (hashReadStop_hashw s.cfg hw hh) hfp
    calc exec .hashw s = reportPath true (exec .hash s) := hend
      _ = .next { t with infoPath := t.infoValid } := by rw [ht, reportPath, Bool.and_true]

end Sys2Proof.Machine
end

section
/-! PROOFS. The Quantizer's bands (41_quantizer.md R150, R152, R154, R156): which cells decide a bit, and what a band
of equal values, and so a uniform image on the exact path, gives. -/

namespace Sys2Proof.Machine

open F64

/-! ## Bands by position -/

/-- An even grid has four whole bands (41_quantizer.md R150). -/
theorem four_mul_bandSize {bits : Nat} (hb : bits % 2 = 0) : 4 * (bits * bits / 4) = bits * bits :=
  Nat.mul_div_cancel' (Nat.mul_dvd_mul (Nat.dvd_of_mod_eq_zero hb) (Nat.dvd_of_mod_eq_zero hb))

theorem bandOf_length {n b : Nat} {grid : List F64} (hg : grid.length = 4 * n) (hb : b < 4) :
    (bandOf n b grid).length = n := by
  have hfit : (b + 1) * n ≤ 4 * n := Nat.mul_le_mul_right n hb
  rw [Nat.succ_mul] at hfit
  rw [bandOf, List.length_take, List.length_drop, hg]
  omega

theorem getElem?_bandOf {n i : Nat} (b : Nat) (grid : List F64) (hi : i < n) :
    (bandOf n b grid)[i]? = grid[b * n + i]? := by
  rw [bandOf, List.getElem?_take_of_lt hi, List.getElem?_drop]

theorem take_eq_filterMap_range {α : Type} (n : Nat) (l : List α) :
    l.take n = (List.range n).filterMap fun k => l[k]? := by
  induction n with
  | zero => rfl
  | succ n ih => cases h : l[n]? <;> simp [List.range_succ, List.take_add_one, ih, h]

/-- A band lists the cells of its quarter in order. -/
theorem bandOf_eq_filterMap (n b : Nat) (grid : List F64) :
    bandOf n b grid = (List.range n).filterMap fun k => grid[b * n + k]? := by
  simp only [bandOf, take_eq_filterMap_range, List.getElem?_drop]

/-- Place `b·n + i` of a concatenation of lists of length `n` is place `i` of list `b`. -/
theorem getElem?_flatMap_range {α : Type} {f : Nat → List α} {m n b i : Nat} (hf : ∀ a < m, (f a).length = n)
    (hb : b < m) (hi : i < n) : ((List.range m).flatMap f)[b * n + i]? = (f b)[i]? := by
  obtain ⟨rest, hrest⟩ := range_split hb
  have hbefore : ((List.range b).flatMap f).length = b * n := by
    rw [List.length_flatMap, List.map_congr_left fun a ha => hf a ((List.mem_range.mp ha).trans hb)]
    simp
  rw [hrest, List.flatMap_append, List.flatMap_cons, List.getElem?_append_right (by omega), hbefore,
    Nat.add_sub_cancel_left, List.getElem?_append_left (by rwa [hf b hb])]

/-- Bit `i` of band `b` is the decision on the band's cell `i` by the band's median (41_quantizer.md R154). -/
theorem getElem?_quantize {scale bits b i : Nat} {grid : List F64} {ppb : F64} (hbits : bits % 2 = 0)
    (hg : grid.length = bits * bits) (hb : b < 4) (hi : i < bits * bits / 4) :
    (quantize scale bits grid ppb)[b * (bits * bits / 4) + i]? =
      grid[b * (bits * bits / 4) + i]?.map
        (decideBit (median (bandOf (bits * bits / 4) b grid)) (halfBlock scale ppb)) := by
  have hlen : ∀ a < 4, (bandBits (halfBlock scale ppb) (bandOf (bits * bits / 4) a grid)).length =
      bits * bits / 4 := fun a ha => by
    rw [bandBits_length, bandOf_length (hg.trans (four_mul_bandSize hbits).symm) ha]
  rw [quantize, getElem?_flatMap_range hlen hb hi, bandBits, List.getElem?_map, getElem?_bandOf b grid hi]

/-- Settles O44: place j is place j mod n of band j div n. -/
theorem eachBandHasItsOwnMedian : Obligations.EachBandHasItsOwnMedian := by
  intro scale bits j grid ppb v hbits hg hv
  obtain ⟨hj, -⟩ := List.getElem?_eq_some_iff.mp hv
  rw [hg, ← four_mul_bandSize hbits] at hj
  have hn : 0 < bits * bits / 4 := Nat.pos_of_mul_pos_left (Nat.zero_lt_of_lt hj)
  have hbit := getElem?_quantize (scale := scale) (ppb := ppb) hbits hg
    ((Nat.div_lt_iff_lt_mul hn).mpr hj) (Nat.mod_lt j hn)
  rw [Nat.div_add_mod', hv, Option.map_some, bandOf_eq_filterMap] at hbit
  exact ⟨quantize_length hg hbits, hbit⟩

/-! ## Bands of equal values -/

theorem sortAsc_replicate (k : Nat) (v : F64) : sortAsc (List.replicate k v) = List.replicate k v := by
  induction k with
  | zero => rfl
  | succ k ih =>
    rw [List.replicate_succ, sortAsc, ih]
    cases k with
    | zero => rfl
    | succ k => simp [List.replicate_succ, insertAsc, F64.lt]

/-- The mean of a representable value with itself is that value: its double is representable. -/
theorem div_add_self_two {u : Nat} (hu : Representable u) :
    F64.div (F64.add (ofUnits u) (ofUnits u)) F64.two = ofUnits u := by
  have hdouble : Representable (u + u) := by
    obtain ⟨m, e, hm, rfl⟩ := hu
    exact ⟨m, e + 1, hm, by rw [pow_succ]; ring⟩
  have hadd : roundUnits (u + u) 1 = u + u := by simpa using roundUnits_exact one_pos hdouble
  rw [add_ofUnits, hadd, F64.two, ofNat_eq (by norm_num), div_ofUnits,
    show (u + u) * F64.scale = u * (2 * F64.scale) by ring,
    roundUnits_exact (Nat.mul_pos two_pos scale_pos) hu]

/-- A band of equal values has that value as its median (41_quantizer.md R156). -/
theorem median_replicate {u k : Nat} (hu : Representable u) (hk : 0 < k) :
    median (List.replicate k (ofUnits u)) = ofUnits u := by
  have hget {i : Nat} (hi : i < k) : (List.replicate k (ofUnits u)).getD i F64.zero = ofUnits u := by
    simp [List.getD, hi]
  rw [median, sortAsc_replicate, List.length_replicate]
  split_ifs
  · exact hget (by omega)
  · rw [hget (by omega), hget (by omega), div_add_self_two hu]

/-- At the median the bit is half's alone (41_quantizer.md R155). -/
theorem decideBit_self (half m : F64) : decideBit m half m = F64.lt half m := by
  have hdist : F64.abs (F64.sub m m) = F64.zero := by
    simp [F64.abs, F64.sub, roundSigned, zero_eq, ofUnits]
  have hclose : F64.lt F64.zero F64.one = true := by
    simp [zero_eq, one_eq, scale_pos]
  rw [decideBit, hdist, hclose]
  simp [F64.lt]

theorem bandBits_replicate (half : F64) {u k : Nat} (hu : Representable u) (hk : 0 < k) :
    bandBits half (List.replicate k (ofUnits u)) = List.replicate k (F64.lt half (ofUnits u)) := by
  rw [bandBits, median_replicate hu hk, List.map_replicate, decideBit_self]

/-! ## Uniform images on the exact path -/

/-- Half on the exact path, with HALF_SCALE 256 (41_quantizer.md R152). -/
theorem halfBlock_256 {n : Nat} (hn : n ≤ 65535 * 65535) : halfBlock 256 (F64.ofNat n) = F64.ofNat (384 * n) := by
  rw [halfBlock, mul_ofNat (by omega) (by norm_num) (by omega), F64.three,
    mul_ofNat (by omega) (by norm_num) (by omega), F64.two, show n * 256 * 3 = 384 * n * 2 by ring,
    div_ofNat two_pos (by omega) (by norm_num) (by omega)]

theorem bandOf_replicate {c n b : Nat} (hc : 4 * n = c) (hb : b < 4) (v : F64) :
    bandOf n b (List.replicate c v) = List.replicate n v := by
  have hlen : (List.replicate c v).length = 4 * n := List.length_replicate.trans hc.symm
  refine List.eq_replicate_iff.mpr ⟨bandOf_length hlen hb, fun x hx => ?_⟩
  exact List.eq_of_mem_replicate (List.mem_of_mem_drop (List.mem_of_mem_take hx))

/-- A grid of equal values has equal bits. -/
theorem quantize_replicate {scale bits u : Nat} {ppb : F64} (hbits : bits % 2 = 0) (hb : 2 ≤ bits)
    (hu : Representable u) :
    quantize scale bits (List.replicate (bits * bits) (ofUnits u)) ppb =
      List.replicate (bits * bits) (F64.lt (halfBlock scale ppb) (ofUnits u)) := by
  have hn : 0 < bits * bits / 4 := Nat.div_pos (Nat.mul_le_mul hb hb) (by norm_num)
  refine List.eq_replicate_iff.mpr ⟨quantize_length (List.length_replicate ..) hbits, fun x hx => ?_⟩
  obtain ⟨b, hb4, hx⟩ := List.mem_flatMap.mp hx
  rw [bandOf_replicate (four_mul_bandSize hbits) (List.mem_range.mp hb4), bandBits_replicate _ hu hn] at hx
  exact List.eq_of_mem_replicate hx

theorem pack_replicate {c k : Nat} (hc : 4 * k = c) (b : Bool) :
    pack (List.replicate c b) = List.replicate k (packNibble b b b b) := by
  subst hc
  induction k with
  | zero => rfl
  | succ k ih => simp [Nat.mul_succ, List.replicate_succ, pack, ih]

theorem exactAggregate_grid_const (w h bits v : Nat) :
    (exactAggregate w h bits fun _ _ => v).grid =
      List.replicate (bits * bits) (F64.ofNat (v * (w / bits * (h / bits)))) := by
  have hsum (p : Nat × Nat) : blockSum (w / bits) (h / bits) p.2 p.1 (fun _ _ => v) = v * (w / bits * (h / bits)) := by
    simp [blockSum]; ring
  simp only [exactAggregate_grid, hsum, List.map_const', raster_length]

/-- An image of one intensity on the exact path has all bits 1 above 384, and all 0 up to it. -/
theorem fingerprintOf_exact_const {w h bits v : Nat} (hw : w ≤ 65535) (hh : h ≤ 65535) (hbits : bits % 2 = 0)
    (hb : 2 ≤ bits) (hbw : bits ≤ w) (hbh : bits ≤ h) (hv : v ≤ 765) :
    fingerprintOf 256 .exact w h bits (fun _ _ => v) =
      List.replicate (bits * bits / 4)
        (packNibble (decide (384 < v)) (decide (384 < v)) (decide (384 < v)) (decide (384 < v))) := by
  have hP : w / bits * (h / bits) ≤ 65535 * 65535 :=
    Nat.mul_le_mul ((Nat.div_le_self w bits).trans hw) ((Nat.div_le_self h bits).trans hh)
  have hP0 : 0 < w / bits * (h / bits) :=
    Nat.mul_pos (Nat.div_pos hbw (by omega)) (Nat.div_pos hbh (by omega))
  have hppb : (exactAggregate w h bits fun _ _ => v).ppb = F64.ofNat (w / bits * (h / bits)) := rfl
  have hgrid := exactAggregate_grid_const w h bits v
  generalize w / bits * (h / bits) = P at hP hP0 hppb hgrid
  have hcell : v * P < 2 ^ 53 := (Nat.mul_le_mul hv hP).trans_lt (by norm_num)
  have hbit : F64.lt (F64.ofNat (384 * P)) (F64.ofNat (v * P)) = decide (384 < v) := by
    rw [lt_ofNat (by omega) hcell, decide_eq_decide, Nat.mul_lt_mul_right hP0]
  rw [fingerprintOf, aggregate, hgrid, hppb, ofNat_eq hcell, quantize_replicate hbits hb (representable_nat hcell),
    halfBlock_256 hP, ← ofNat_eq hcell, hbit, pack_replicate (four_mul_bandSize hbits)]

/-- Settles O46: a uniform band is its own median, and on the exact path 384·P is held against v·P. -/
theorem uniformImagesOnTheExactPath : Obligations.UniformImagesOnTheExactPath := by
  refine ⟨fun half u k hu hk => ⟨median_replicate hu hk, bandBits_replicate half hu hk⟩, fun scale p => rfl,
    fun n hn => ?_, fun w h bits hw hh hbits hb hbw hbh => ⟨?_, ?_⟩⟩
  · rw [halfBlock_256 hn, ofNat_eq (by omega), ofUnits_units]
  · exact fingerprintOf_exact_const hw hh hbits hb hbw hbh le_rfl
  · exact fingerprintOf_exact_const hw hh hbits hb hbw hbh (Nat.zero_le _)

end Sys2Proof.Machine
end

section
/-! PROOFS. The BitPacker (42_bitpacker.md R170, R171): the place and the value of each fingerprint byte, and the
fingerprint's length. -/

namespace Sys2Proof.Machine

/-- The four bits stand in bits 3 to 0, the first the most significant (42_bitpacker.md R170). -/
theorem packNibble_toNat (b0 b1 b2 b3 : Bool) :
    (packNibble b0 b1 b2 b3).toNat = 8 * b0.toNat + 4 * b1.toNat + 2 * b2.toNat + b3.toNat := by
  revert b0 b1 b2 b3; decide

/-- Place j of the packed sequence is the nibble of bits 4j to 4j + 3 (42_bitpacker.md R170). -/
theorem pack_getElem? {l : List Bool} {j : Nat} {b0 b1 b2 b3 : Bool} (h0 : l[4 * j]? = some b0)
    (h1 : l[4 * j + 1]? = some b1) (h2 : l[4 * j + 2]? = some b2) (h3 : l[4 * j + 3]? = some b3) :
    (pack l)[j]? = some (packNibble b0 b1 b2 b3) := by
  induction l using pack.induct generalizing j with
  | case1 c0 c1 c2 c3 rest ih =>
    cases j with
    | zero => simp_all [pack]
    | succ j => exact ih h0 h1 h2 h3
  | case2 l hl =>
    have hlen : 4 ≤ l.length := by have := (List.getElem?_eq_some_iff.mp h3).1; omega
    match l, hl, hlen with
    | c0 :: c1 :: c2 :: c3 :: rest, hl, _ => exact absurd rfl (hl c0 c1 c2 c3 rest)

/-- Settles O45: place j of the packed sequence is that nibble, and its value is the weighted sum. -/
theorem packerPutsFourBitsInEachByte : Obligations.PackerPutsFourBitsInEachByte :=
  fun _ _ b0 b1 b2 b3 h0 h1 h2 h3 => ⟨packNibble b0 b1 b2 b3, pack_getElem? h0 h1 h2 h3, packNibble_toNat ..⟩

/-- Settles O32: the quantizer gives bits·bits bits, the packer a byte for each four, and each byte is a nibble. -/
theorem fingerprintLengthAndNibbles : Obligations.FingerprintLengthAndNibbles :=
  fun _ path w h _ pix hb => ⟨fingerprintOf_length hb path w h pix, fun _ hv => fingerprintOf_lt hv⟩

end Sys2Proof.Machine
end

section
/-! PROOFS. The comparator's distance (43_comparator.md R183, R186): the contribution of a byte position is the
library's Hamming distance of the two low nibbles, whose laws the sum over the positions inherits. -/

namespace Sys2Proof.Machine

/-- The low nibble, bit by bit. -/
def lowNibble (a : Byte) (k : Fin 4) : Bool := a.getLsbD k

theorem lowNibble_and_low_mask (a : Byte) : lowNibble (a &&& 0x0F) = lowNibble a := by
  funext k
  fin_cases k <;> simp [lowNibble]

/-! ## One byte position -/

theorem byteDistance_eq_hammingDist (a b : Byte) : byteDistance a b = hammingDist (lowNibble a) (lowNibble b) := by
  rw [byteDistance_eq, hammingDist, Finset.card_filter, Fin.sum_univ_four]
  simp [List.range_succ, List.countP_cons, lowNibble]
  ac_rfl

@[simp] theorem byteDistance_self (a : Byte) : byteDistance a a = 0 := by
  rw [byteDistance_eq_hammingDist, hammingDist_self]

theorem byteDistance_comm (a b : Byte) : byteDistance a b = byteDistance b a := by
  simp only [byteDistance_eq_hammingDist, hammingDist_comm]

theorem byteDistance_triangle (a c b : Byte) : byteDistance a b ≤ byteDistance a c + byteDistance c b := by
  simp only [byteDistance_eq_hammingDist]
  exact hammingDist_triangle _ _ _

theorem byteDistance_and_low_mask (a b : Byte) : byteDistance (a &&& 0x0F) (b &&& 0x0F) = byteDistance a b := by
  simp only [byteDistance_eq_hammingDist, lowNibble_and_low_mask]

/-! ## Equally long byte arrays -/

@[simp] theorem hammingDistance_cons (a b : Byte) (as bs : List Byte) :
    hammingDistance (a :: as) (b :: bs) = byteDistance a b + hammingDistance as bs := rfl

theorem hammingDistance_self (as : List Byte) : hammingDistance as as = 0 := by
  induction as with
  | nil => rfl
  | cons a as ih => rw [hammingDistance_cons, byteDistance_self, ih]

theorem hammingDistance_comm (as bs : List Byte) : hammingDistance as bs = hammingDistance bs as := by
  rw [hammingDistance, hammingDistance, List.zipWith_comm_of_comm byteDistance_comm]

/-- The array in the middle is as long as the left one, or positions would be lost on the way through it. -/
theorem hammingDistance_triangle {as cs : List Byte} (h : as.length = cs.length) (bs : List Byte) :
    hammingDistance as bs ≤ hammingDistance as cs + hammingDistance cs bs := by
  induction as generalizing bs cs with
  | nil => exact Nat.zero_le _
  | cons a as ih =>
    match cs, bs, h with
    | _ :: _, [], _ => exact Nat.zero_le _
    | c :: cs, b :: bs, h =>
      have hbyte := byteDistance_triangle a c b
      have hrest := ih (Nat.succ.inj h) bs
      simp only [hammingDistance_cons]
      omega

theorem hammingDistance_low_mask (as bs : List Byte) :
    hammingDistance (as.map (· &&& 0x0F)) (bs.map (· &&& 0x0F)) = hammingDistance as bs := by
  simp only [hammingDistance, List.zipWith_map, byteDistance_and_low_mask]

/-- Settles O24: each law is the byte position's, summed over the positions. -/
theorem distanceIsAPseudometric : Obligations.DistanceIsAPseudometric :=
  fun as bs _ hab hbc => ⟨hammingDistance_self as, hammingDistance_comm as bs,
    hammingDistance_triangle (hab.trans hbc) bs, (hammingDistance_low_mask as bs).symm⟩

end Sys2Proof.Machine
end

section
/-! PROOFS. HDIST in an idle engine with no host operation due (43_comparator.md R180 to R182, R187, R188): every way
it ends, said once, and on what its argument checks, its reads and its distance depend. -/

namespace Sys2Proof.Machine

open Sys2Proof.Claims

/-! ## The distance of the bytes in memory -/

theorem byteDistance_eq_nibbleDiff (a b : Byte) : byteDistance a b = nibbleDiff a b := byteDistance_eq a b

/-- An HDIST that runs in the step of its CMD write reads memory as it stands. -/
theorem accept_distance (s : State) : (s.accept .hdist).distance = memDistance s := by
  simp [State.distance, State.leftBytes, State.rightBytes, hammingDistance, memDistance, byteAt, List.zipWith_map,
    List.zipWith_self, byteDistance_eq_nibbleDiff]

/-- The bytes of the two fingerprints, which `o` names, are the same in both states. -/
def SameFingerprints (o : DistArgs) (s t : State) : Prop :=
  ∀ i, i < o.aLen → byteAt s (leftAddr o i) = byteAt t (leftAddr o i) ∧
    byteAt s (rightAddr o i) = byteAt t (rightAddr o i)

theorem memDistance_congr {s t : State} (ho : s.distArgs = t.distArgs) (hm : SameFingerprints s.distArgs s t) :
    memDistance s = memDistance t := by
  have hlen : s.aLen.toNat = t.aLen.toNat := congrArg DistArgs.aLen ho
  rw [memDistance, memDistance, ← ho, ← hlen]
  congr 1
  refine List.map_congr_left fun i hi => ?_
  obtain ⟨hl, hr⟩ := hm i (List.mem_range.mp hi)
  rw [hl, hr]

/-! ## Why it stops -/

/-- Of the platform, the answers to accesses alone count. -/
theorem distStop_congr {c d : Config} (h : c.bus = d.bus) (o : DistArgs) : distStop c o = distStop d o := by
  have haccess : accessStop c .read = accessStop d .read := by
    funext a
    rw [accessStop, accessStop, busAnswer, busAnswer, h]
  rw [distStop, distStop, haccess]

theorem distStop_of_checkDistArgs {o : DistArgs} {e : CmdError} (h : checkDistArgs o = some e) (c : Config) :
    distStop c o = some (.error e) := by rw [distStop, h]

theorem distStop_error_code_ne_none {c : Config} {o : DistArgs} {e : CmdError}
    (h : distStop c o = some (.error e)) : e.code ≠ .none := by
  rcases distStop_error h with ⟨d, rfl, -⟩ | rfl | ⟨a, rfl⟩ <;> simp

theorem checkDistArgs_of_null {o : DistArgs} (h : o.a = 0 ∨ o.b = 0) :
    checkDistArgs o = some ⟨.nullArgument, nullDetail o, 0⟩ := by rw [checkDistArgs, if_pos h]

theorem checkDistArgs_of_length {o : DistArgs} (ha : o.a ≠ 0) (hb : o.b ≠ 0) (hl : o.aLen ≠ o.bLen) :
    checkDistArgs o = some ⟨.lengthMismatch, 0, 0⟩ := by
  rw [checkDistArgs, if_neg (not_or.mpr ⟨ha, hb⟩), if_pos hl]

/-- 43_comparator.md R181: 1 for the left operand, 2 for the right one, 3 for both. -/
theorem nullDetail_of_null {o : DistArgs} (h : o.a = 0 ∨ o.b = 0) :
    nullDetail o = if o.a = 0 then (if o.b = 0 then 3 else 1) else 2 := by
  rw [nullDetail]
  split_ifs with ha hb hb
  · rfl
  · rfl
  · rfl
  · exact absurd h (not_or.mpr ⟨ha, hb⟩)

/-! ## How it ends -/

/-- An HDIST that stops with an error changes the record and DONE alone, besides what the host may still read. -/
theorem exec_hdist_of_error {s : State} (hb : s.busy = false) (hq : s.quiet = true) {e : CmdError}
    (he : distStop s.cfg s.distArgs = some (.error e)) :
    exec .hdist s =
      .next { s with
        errCode := e.code, errDetail := e.detail, errAddr := e.addr, done := true
        unseen := (s.accept .hdist).remembered [] } := by
  rw [exec_of_quiet rfl hb hq, finish_accept_hdist, State.finishDistance, State.accept_cfg, State.accept_distArgs, he,
    ← raise_accept_hdist hb e]
  rfl

/-- Everything an HDIST that answers can do: the distance of the bytes in memory, or an error with DIST as it was. -/
theorem exec_hdist_next {s t : State} (hb : s.busy = false) (hq : s.quiet = true) (h : exec .hdist s = .next t) :
    (distStop s.cfg s.distArgs = none ∧
      t = { s with
        dist := BitVec.ofNat 32 (memDistance s)
        errCode := .none, errDetail := 0, errAddr := 0, done := true, unseen := t.unseen }) ∨
    ∃ e, distStop s.cfg s.distArgs = some (.error e) ∧ e.code ≠ .none ∧
      t = { s with
        errCode := e.code, errDetail := e.detail, errAddr := e.addr, done := true, unseen := t.unseen } := by
  rw [exec_of_quiet rfl hb hq, finish_accept_hdist] at h
  rcases finishDistance_next h with ⟨hs, rfl⟩ | ⟨e, hs, rfl⟩
  · refine .inl ⟨hs, ?_⟩
    rw [accept_distance, completeDistance_accept hb]
  · refine .inr ⟨e, hs, distStop_error_code_ne_none hs, ?_⟩
    rw [raise_accept_hdist hb]

/-- Settles O21: both rejections are argument checks, which come before every read. -/
theorem hdistRejectsBadArguments : Obligations.HdistRejectsBadArguments := by
  intro s hb hq
  refine ⟨fun hnull => ⟨(s.accept .hdist).remembered [], ?_⟩,
    fun ha hb' hlen => ⟨(s.accept .hdist).remembered [], ?_⟩⟩
  · have hdetail := nullDetail_of_null (o := s.distArgs) hnull
    rw [exec_hdist_of_error hb hq (distStop_of_checkDistArgs (checkDistArgs_of_null hnull) _), hdetail]
    rfl
  · have hlen' : s.distArgs.aLen ≠ s.distArgs.bLen := fun h => hlen (BitVec.eq_of_toNat_eq h)
    rw [exec_hdist_of_error hb hq (distStop_of_checkDistArgs (checkDistArgs_of_length ha hb' hlen') _)]

/-- Settles O23: without error DIST is the distance, which is at most 4 per byte and so fits 32 bits. -/
theorem distanceIsAtMostFourPerByte : Obligations.DistanceIsAtMostFourPerByte := by
  intro s t hb hq h hnone
  obtain ⟨-, ht⟩ | ⟨e, -, he, ht⟩ := exec_hdist_next hb hq h
  · have hdist : t.dist.toNat = memDistance s := by
      rw [ht, ← accept_distance]
      exact distance_toNat _
    have hle : memDistance s ≤ 4 * s.aLen.toNat := accept_distance s ▸ distance_le (s.accept .hdist)
    exact ⟨hdist.trans_le hle, hdist⟩
  · rw [ht] at hnone
    exact absurd hnone he

/-- Settles O25: both states stop for the same reason or for none, and then read the same bytes. -/
theorem hdistSeesOnlyItsOperands : Obligations.HdistSeesOnlyItsOperands := by
  intro s₁ s₂ t₁ t₂ hb₁ hb₂ hq₁ hq₂ ho hbus hm h₁ h₂
  have hstop : distStop s₁.cfg s₁.distArgs = distStop s₂.cfg s₂.distArgs := ho ▸ distStop_congr hbus _
  obtain ⟨hs₁, ht₁⟩ | ⟨e₁, hs₁, hne, ht₁⟩ := exec_hdist_next hb₁ hq₁ h₁ <;>
    obtain ⟨hs₂, ht₂⟩ | ⟨e₂, hs₂, -, ht₂⟩ := exec_hdist_next hb₂ hq₂ h₂ <;>
    rw [hs₁, hs₂] at hstop
  · rw [ht₁, ht₂]
    exact ⟨rfl, rfl, rfl, fun _ => congrArg (BitVec.ofNat 32) (memDistance_congr ho hm), fun h => absurd rfl h, rfl⟩
  · cases hstop
  · cases hstop
  · cases hstop
    rw [ht₁, ht₂]
    exact ⟨rfl, rfl, rfl, fun h => absurd h hne, fun _ => rfl, rfl⟩

end Sys2Proof.Machine
end

section
/-! PROOFS. The hash commands in an idle engine with no host operation due (44_hash_commands.md R201, R206): the
operand checks as the statements word them, how a command ends that stops before its writes, and on what a command's
stops and writes depend. -/

namespace Sys2Proof.Machine

open Sys2Proof.Claims

/-! ## Stops before the writes -/

/-- The first failing check's detail is what INVALID_ARGUMENT carries (60_exceptions.md R232). -/
theorem checkHashArgs_eq_failingDetail (op : HashOp) (s : State) :
    checkHashArgs s.cfg op s.hashArgs = (failingDetail op s).map invalidArgument := by
  have hzero {n : Nat} (v : BitVec n) : v.toNat = 0 ↔ v = 0 := BitVec.toNat_inj (y := 0#n)
  rw [State.checkHashArgs_eq, failingDetail]
  simp only [hzero, apply_ite (Option.map invalidArgument), Option.map_some, Option.map_none]

/-- A hash command that stops with an error before its writes changes the record, INFO and DONE alone, besides what
the host may still read. -/
theorem exec_hash_of_readStop {op : HashOp} {s : State} {e : CmdError} (hb : s.busy = false) (hq : s.quiet = true)
    (he : hashReadStop s.cfg op s.hashArgs = some (.error e)) :
    exec (hashInstr op) s =
      .next { s with
        errCode := e.code, errDetail := e.detail, errAddr := e.addr
        infoValid := false, infoPath := false, done := true, unseen := unseenAfter s 0 } := by
  have hstop : (s.accept (.hash op)).hashStop op = some (.error e) := hashStop_of_readStop he
  have hnone : (s.accept (.hash op)).performedWrites op = [] := performedWrites_of_readStop he
  rw [exec_of_quiet (runOpOf_hashInstr op) hb hq, finish_accept_hash, State.finishHash, hstop, hnone]
  exact congrArg Host.Outcome.next (raise_accept_hash op [] e hb)

/-- Settles O26: the operand checks come before every access, and the first that fails is the error recorded. -/
theorem hashChecksItsOperandsInOrder : Obligations.HashChecksItsOperandsInOrder := by
  intro op s d hb hq hd
  have hcheck : checkHashArgs s.cfg op s.hashArgs = some (invalidArgument d) := by
    rw [checkHashArgs_eq_failingDetail, hd, Option.map_some]
  exact ⟨unseenAfter s 0, exec_hash_of_readStop hb hq (hashReadStop_of_check hcheck)⟩

/-! ## What a hash command depends on -/

/-- The pixels the statements call covered are the ones the path reads (20_memory.md R80). -/
theorem covered_iff_mem_pixelsOf {op : HashOp} {s : State} {x y : Nat} :
    covered op s x y ↔ (x, y) ∈ pixelsOf (s.hashPath op) s.width.toNat s.height.toNat s.bits.toNat := by
  unfold covered
  cases s.hashPath op <;> exact mem_raster.symm

/-- All that a hash command depends on (44_hash_commands.md R206) is the same in both states. -/
structure SameHashInput (op : HashOp) (s₁ s₂ : State) : Prop where
  args : s₁.hashArgs = s₂.hashArgs
  cfg : s₁.cfg = s₂.cfg
  pixels : ∀ x y ch, covered op s₁ x y → ch < 4 →
    byteAt s₁ (pixAddr s₁.hashArgs x y ch) = byteAt s₂ (pixAddr s₁.hashArgs x y ch)

section
variable {op : HashOp} {s₁ s₂ : State} (h : SameHashInput op s₁ s₂)
include h

theorem memPixel_of_same {x y : Nat} (hc : covered op s₁ x y) : memPixel s₁ x y = memPixel s₂ x y := by
  unfold memPixel
  rw [← h.args, h.pixels x y 0 hc (by decide), h.pixels x y 1 hc (by decide), h.pixels x y 2 hc (by decide),
    h.pixels x y 3 hc (by decide)]

theorem hashPath_of_same : s₁.hashPath op = s₂.hashPath op :=
  congrArg (fun o : HashArgs => pathOf op o.w o.h o.bits) h.args

theorem memFingerprint_of_same : memFingerprint op s₁ = memFingerprint op s₂ := by
  have hw : s₁.width.toNat = s₂.width.toNat := congrArg HashArgs.w h.args
  have hh : s₁.height.toNat = s₂.height.toNat := congrArg HashArgs.h h.args
  have hbits : s₁.bits.toNat = s₂.bits.toNat := congrArg HashArgs.bits h.args
  rw [memFingerprint, memFingerprint, ← h.cfg, ← hashPath_of_same h, ← hw, ← hh, ← hbits]
  exact fingerprintOf_congr fun x y hp => memPixel_of_same h (covered_iff_mem_pixelsOf.mpr hp)

theorem plannedWrites_of_same :
    (s₁.accept (.hash op)).plannedWrites op = (s₂.accept (.hash op)).plannedWrites op := by
  simp only [State.plannedWrites, State.accept_cfg, State.accept_hashArgs, accept_fingerprint,
    memFingerprint_of_same h, h.args, h.cfg]

theorem performedWrites_of_same :
    (s₁.accept (.hash op)).performedWrites op = (s₂.accept (.hash op)).performedWrites op := by
  rw [State.performedWrites, State.performedWrites, plannedWrites_of_same h, State.accept_cfg, State.accept_cfg, h.cfg]

theorem hashStop_of_same : (s₁.accept (.hash op)).hashStop op = (s₂.accept (.hash op)).hashStop op := by
  simp only [State.hashStop, State.accept_cfg, State.accept_hashArgs, plannedWrites_of_same h, h.args, h.cfg]

end

/-! ## The bytes of a command that runs at once -/

/-- Each write the command performs is in memory at its end: no host store races with it. -/
theorem exec_hash_read_of_write {op : HashOp} {s t : State} (hb : s.busy = false) (hq : s.quiet = true)
    (hm : s.mem.wf = true) (h : exec (hashInstr op) s = .next t) {p : Word × Byte}
    (hp : p ∈ (s.accept (.hash op)).performedWrites op) : t.mem.read p.1.toNat = p.2 := by
  obtain ⟨hmem, -⟩ := exec_hash_next (runOpOf_hashInstr op) hb hq h
  rw [hmem]
  exact storeAll_read_mem 0 (performedWrites_nodup _ op) hm hp fun _ => rfl

/-- A byte the command performs no write to is unchanged. -/
theorem exec_hash_read_other {op : HashOp} {s t : State} (hb : s.busy = false) (hq : s.quiet = true)
    (h : exec (hashInstr op) s = .next t) {a : Nat}
    (ha : ∀ p ∈ (s.accept (.hash op)).performedWrites op, p.1.toNat ≠ a) : t.mem.read a = s.mem.read a := by
  obtain ⟨hmem, -⟩ := exec_hash_next (runOpOf_hashInstr op) hb hq h
  rw [hmem]
  exact storeAll_read_other _ 0 _ _ a ha

/-- A hash command without error performs a write to each place of the fingerprint. -/
theorem exists_write_at_fingerprintAddr {op : HashOp} {s : State}
    (hs : (s.accept (.hash op)).hashStop op = none) {j : Nat} (hj : j < fpLength s) :
    ∃ p ∈ (s.accept (.hash op)).performedWrites op, p.1.toNat = fpKey s j := by
  obtain ⟨hl, hw⟩ := performedWrites_of_no_stop hs
  have hlen : ((s.accept (.hash op)).fingerprint op).length = fpLength s := fingerprintOf_length (legal_bits hl).1 ..
  have hbyte := List.getElem?_eq_getElem (hlen ▸ hj)
  exact ⟨(fingerprintAddr s.hashArgs j, _), hw ▸ mem_addressed.mpr ⟨j, hbyte, rfl⟩, rfl⟩

/-- Settles O35: both commands stop for the same reason or for none, and perform the same writes. -/
theorem hashIsAFunctionOfTheCoveredPixels : Obligations.HashIsAFunctionOfTheCoveredPixels := by
  intro op s₁ s₂ t₁ t₂ hb₁ hb₂ hq₁ hq₂ hwf₁ hwf₂ hargs hcfg hpix h₁ h₂
  have hsame : SameHashInput op s₁ s₂ := ⟨hargs, hcfg, hpix⟩
  have hperf := performedWrites_of_same hsame
  have hwritten : ∀ p ∈ (s₁.accept (.hash op)).performedWrites op,
      t₁.mem.read p.1.toNat = t₂.mem.read p.1.toNat := fun p hp =>
    (exec_hash_read_of_write hb₁ hq₁ hwf₁ h₁ hp).trans
      (exec_hash_read_of_write hb₂ hq₂ hwf₂ h₂ (hperf ▸ hp)).symm
  have hmem (a : Nat) : t₁.mem.read a = t₂.mem.read a ∨
      (t₁.mem.read a = s₁.mem.read a ∧ t₂.mem.read a = s₂.mem.read a) := by
    by_cases ha : ∃ p ∈ (s₁.accept (.hash op)).performedWrites op, p.1.toNat = a
    · obtain ⟨p, hp, rfl⟩ := ha
      exact .inl (hwritten p hp)
    · have hother : ∀ p ∈ (s₁.accept (.hash op)).performedWrites op, p.1.toNat ≠ a :=
        fun p hp hpa => ha ⟨p, hp, hpa⟩
      exact .inr ⟨exec_hash_read_other hb₁ hq₁ h₁ hother, exec_hash_read_other hb₂ hq₂ h₂ (hperf ▸ hother)⟩
  have hstop := hashStop_of_same hsame
  obtain ⟨-, -, ⟨hs₁, ht₁⟩ | ⟨e₁, hs₁, hne, ht₁⟩⟩ := exec_hash_next (runOpOf_hashInstr op) hb₁ hq₁ h₁ <;>
    obtain ⟨-, -, ⟨hs₂, ht₂⟩ | ⟨e₂, hs₂, -, ht₂⟩⟩ := exec_hash_next (runOpOf_hashInstr op) hb₂ hq₂ h₂ <;>
    rw [hs₁, hs₂] at hstop
  · have hfp (j : Nat) (hj : j < fpLength s₁) : t₁.mem.read (fpKey s₁ j) = t₂.mem.read (fpKey s₁ j) := by
      obtain ⟨p, hp, hpj⟩ := exists_write_at_fingerprintAddr hs₁ hj
      exact hpj ▸ hwritten p hp
    rw [ht₁, ht₂]
    exact ⟨rfl, rfl, rfl, rfl, congrArg (· == .weighted) (hashPath_of_same hsame), hmem, fun _ => hfp⟩
  · cases hstop
  · cases hstop
  · cases hstop
    rw [ht₁, ht₂]
    exact ⟨rfl, rfl, rfl, rfl, rfl, hmem, fun hnone => absurd hnone hne⟩

end Sys2Proof.Machine
end

section
/-! PROOFS. Commands that take effect at once (45_control_commands.md R220 to R222): NOP, CLEAR and a rejected word.
CLEAR and a rejected word leave no earlier error record readable, so in an idle engine the host's next reads of ERR and
ERR_ADDR answer the record as it stands. -/

namespace Sys2Proof.Machine

open Sys2Proof.Claims

/-! ## Reading the error record -/

/-- In an idle engine a register of which no earlier word is readable answers its present word. -/
theorem hostReads_of_idle {s : State} {r : Reg} (hb : s.busy = false) (hu : s.unseen.words r = []) :
    hostReads r.offset s (s.readReg r) := by
  refine ⟨hostRead r.offset s, by rw [hostStep_eq_hostTurn, hostTurn_read], ?_⟩
  simp [hostReadWord, regAt_offset, hostReadReg, comingWords, hb, hu]

theorem hostReads_err_of_idle {s : State} (hb : s.busy = false) (hu : s.unseen.records = []) :
    hostReads 0x10 s (s.readReg .err) :=
  hostReads_of_idle (r := .err) hb (by rw [Unseen.words, hu, List.map_nil])

theorem hostReads_errAddr_of_idle {s : State} (hb : s.busy = false) (hu : s.unseen.records = []) :
    hostReads 0x14 s s.errAddr :=
  hostReads_of_idle (r := .errAddr) hb (by rw [Unseen.words, hu, List.map_nil])

/-! ## CLEAR -/

/-- After CLEAR in an idle engine every bit of STATUS is 0. -/
theorem clearRecord_readReg_status {s : State} (hb : s.busy = false) : s.clearRecord.readReg .status = 0 := by
  simp [State.readReg, State.statusWord, State.errFlag, ErrCode.toByte, bit, hb]

theorem clearRecord_readReg_err (s : State) : s.clearRecord.readReg .err = 0 := by
  change CmdError.word ⟨.none, 0, 0⟩ = 0
  rfl

theorem clearRecord_irq (s : State) : s.clearRecord.irq = false := Bool.and_false s.irqEn

/-- Settles O6: idle, by what NOP and CLEAR answer and by the record CLEAR leaves; busy, by the drop of any command. -/
theorem controlCommandsTakeEffectAtOnce : Obligations.ControlCommandsTakeEffectAtOnce := by
  refine ⟨rfl, rfl, fun s => ⟨fun hb => ⟨exec_nop hb, s.clearRecord, rfl, exec_clear hb, ?_, ?_, ?_, ?_⟩,
    fun hb => ⟨exec_of_busy .nop hb, exec_of_busy .clear hb⟩⟩⟩
  · exact clearRecord_readReg_status hb
  · exact clearRecord_irq s
  · exact clearRecord_readReg_err s ▸ hostReads_err_of_idle (s := s.clearRecord) hb rfl
  · exact hostReads_errAddr_of_idle (s := s.clearRecord) hb rfl

/-! ## Rejected words -/

/-- A word with a non-zero RSVD field or a reserved opcode is rejected, and RSVD decides the detail
(30_encoding.md R104). -/
theorem decode_of_rejected {w : Word} (h : w >>> 4 ≠ 0 ∨ 6 ≤ (w &&& 0xF).toNat) :
    ∃ r, decode w = .error r ∧ r.detail = if w >>> 4 ≠ 0 then 2 else 1 := by
  obtain ⟨hrsvd, hopcode, -⟩ := decodeFollowsTheOpcodeMap w
  by_cases hw : w >>> 4 ≠ 0
  · rw [if_pos hw]
    exact hrsvd hw
  · rw [if_neg hw]
    exact hopcode (not_not.mp hw) (h.resolve_left hw)

/-- 45_control_commands.md R222: no hash command runs in an idle engine, so the rejection leaves INFO. -/
theorem rejectWord_of_idle {s : State} (hb : s.busy = false) (r : Reject) :
    s.rejectWord r = { s with
      errCode := .illegalCommand
      errDetail := r.detail
      errAddr := 0
      done := true
      unseen := s.unseen.settleRecord } := by
  have hp := (State.busy_eq_false_iff s).mp hb
  simp [State.rejectWord, State.raise, State.runsHash, hp]

theorem rejectWord_readReg_err (s : State) (r : Reject) :
    (s.rejectWord r).readReg .err = CmdError.word ⟨.illegalCommand, r.detail, 0⟩ := rfl

/-- Settles O7: the word decodes to a rejection, which leaves the new record as the only one the host can read. -/
theorem rejectedWordsRecordIllegalCommand : Obligations.RejectedWordsRecordIllegalCommand := by
  intro s w hb hw
  obtain ⟨r, hd, hr⟩ := decode_of_rejected hw
  refine ⟨s.rejectWord r, ?_, ?_, ?_, ?_⟩
  · rw [hostStep_eq_hostTurn, hostTurn_write_cmd, submitWord_of_error hb hd]
  · rw [← hr, rejectWord_of_idle hb]
    rfl
  · have hword : (s.rejectWord r).readReg .err = if w >>> 4 ≠ 0 then 0x0204 else 0x0104 := by
      rw [rejectWord_readReg_err, hr]
      split <;> rfl
    exact hword ▸ hostReads_err_of_idle (s := s.rejectWord r) rfl rfl
  · exact hostReads_errAddr_of_idle (s := s.rejectWord r) rfl rfl

end Sys2Proof.Machine
end

section
/-! PROOFS. The interrupt line (60_exceptions.md R241): its level as the host reads CTRL and STATUS, and the steps
after which it stands at IRQ_EN, since they end with DONE = 1. -/

namespace Sys2Proof.Machine

open Sys2Proof.Claims

/-! ## The level -/

theorem ctrlWord_getLsbD_zero (s : State) : s.ctrlWord.getLsbD 0 = s.irqEn := by
  simp only [State.ctrlWord, bit, BitVec.getLsbD_append]
  simp

theorem statusWord_getLsbD_one (s : State) : s.statusWord.getLsbD 1 = s.done := by
  simp only [State.statusWord, bit, BitVec.getLsbD_append]
  simp

/-- With DONE = 1 the line stands at IRQ_EN. -/
theorem irq_of_done {s : State} (h : s.done = true) : s.irq = s.irqEn := by rw [State.irq, h, Bool.and_true]

/-! ## The end of a running command -/

/-- However a running command ends, its last step sets DONE and leaves IRQ_EN (10_state.md R38). -/
theorem finish_next_done_irqEn {s t : State} (hb : s.busy = true) (h : s.finish = .next t) :
    t.done = true ∧ t.irqEn = s.irqEn := by
  rcases finish_next hb h with ⟨op, r, -, -, rfl⟩ | ⟨op, r, e, -, -, rfl⟩ | ⟨r, -, -, rfl⟩ | ⟨r, e, -, -, rfl⟩ <;>
    exact ⟨rfl, rfl⟩

theorem hostWrite_busy_of_busy {s t : State} {off : BitVec 8} {v : Word} (hb : s.busy = true)
    (h : hostWrite off v s = .next t) : t.busy = true := by
  rcases hostWrite_next h with ⟨-, hw⟩ | ⟨r, -, -, rfl⟩ | ⟨-, rfl⟩
  · rw [submitWord_of_busy hb] at hw
    cases hw
    exact hb
  · rw [State.writeReg_busy, hb]
  · exact hb

/-- No host operation but a reset ends a running command. -/
theorem hostTurn_busy_of_busy {s t : State} {op : HostOp} (hb : s.busy = true) (hop : op ≠ .reset)
    (h : hostTurn op s = .next t) : t.busy = true := by
  rcases hostTurn_next h with ⟨off, v, -, -, hw⟩ | ⟨off, -, -, rfl⟩ | ⟨a, v, -, rfl⟩ | ⟨a, -, rfl⟩ |
    ⟨-, rfl⟩ | ⟨hreset, -⟩
  · exact hostWrite_busy_of_busy hb hw
  · rw [State.hostRead_busy, hb]
  · rw [State.hostStore_busy, hb]
  · rw [State.hostLoad_busy, hb]
  · rw [State.seeIrq_busy, hb]
  · exact absurd hreset hop

/-- A step that ends a running command, and is no reset, is the engine's own move. -/
theorem finish_of_step_ends {s t : State} (hb : s.busy = true) (ht : t.busy = false) (h : step s = .next t)
    (hreset : hostMove s ≠ some .reset) : s.finish = .next t := by
  rcases step_cases s with ⟨-, -, he⟩ | ⟨hidle, -, -⟩ | ⟨p, rest, hi, hm, he⟩
  · exact he ▸ h
  · rw [hb] at hidle
    cases hidle
  · have hop : p.op ≠ .reset := by
      rwa [hostMove_of_cons hi hm, Ne, Option.some.injEq] at hreset
    rw [hostTurn_busy_of_busy (s := s.withInputs rest) hb hop (he ▸ h)] at ht
    cases ht

/-- Settles O17: the level by the two bits read, the end of a command and a rejection by the DONE they set, and the
write to CTRL by the one field it stores. -/
theorem interruptLineIsEnableAndDone : Obligations.InterruptLineIsEnableAndDone := by
  refine ⟨fun s => ?_, fun s t hb ht h hreset => ?_, fun s w r hb hd => ⟨s.rejectWord r, ?_, ?_⟩,
    fun s v => ⟨_, rfl, ?_, rfl⟩⟩
  · change s.irq = (s.ctrlWord.getLsbD 0 && s.statusWord.getLsbD 1)
    rw [ctrlWord_getLsbD_zero, statusWord_getLsbD_one, State.irq]
  · obtain ⟨hdone, hen⟩ := finish_next_done_irqEn hb (finish_of_step_ends hb ht h hreset)
    rw [irq_of_done hdone, hen]
  · rw [hostStep_eq_hostTurn, hostTurn_write_cmd, submitWord_of_error hb hd]
  · exact irq_of_done (s := s.rejectWord r) rfl
  · exact (hostStep_eq_hostTurn _ s).trans (hostTurn_write_of_ne_cmd (r := .ctrl) (by decide) v s)

end Sys2Proof.Machine
end

section
/-! PROOFS. Reset (70_reset_and_hazards.md R260 to R262): the registers afterwards, and memory. Only a running hash
command has writes that a reset can find partly made, and each of them is a fingerprint byte at its place. -/

namespace Sys2Proof.Machine

open Sys2Proof.Claims

/-! ## The registers -/

/-- ID's fields as one number (10_state.md R34). -/
theorem idWord_eq_or (s : State) : s.idWord = 0xB10C0100 ||| s.cfg.maxBits.setWidth 32 := by
  rw [State.idWord, BitVec.append_def, BitVec.setWidth'_eq]
  rfl

theorem resetEngine_readReg (s : State) (r : Reg) : (resetEngine s).readReg r = resetValue s.cfg r := by
  cases r with
  | id => exact idWord_eq_or (resetEngine s)
  | ctrl => exact (by decide : State.reset.ctrlWord = 0)
  | status => exact (by decide : State.reset.statusWord = 0)
  | err => exact (by decide : State.reset.errWord = 0)
  | info => exact (by decide : State.reset.infoWord = 0)
  | _ => rfl

/-- Reset forgets the results of before, so a read afterwards has one answer only. -/
theorem resetEngine_hostReads (s : State) (r : Reg) : hostReads r.offset (resetEngine s) (resetValue s.cfg r) := by
  rw [← resetEngine_readReg s r]
  exact hostReads_of_idle (State.resetEngine_busy s) (by cases r <;> rfl)

theorem hostStep_reset (s : State) : hostStep .reset s = .next (resetEngine s) := hostStep_eq_hostTurn .reset s

/-! ## Memory -/

theorem engineWrites_of_idle {s : State} (hb : s.busy = false) : s.engineWrites = [] := by
  rw [State.engineWrites, (State.busy_eq_false_iff s).mp hb]

/-- Whatever the phase, a write the engine makes is a byte of a running hash command's fingerprint. -/
theorem mem_engineWrites {s : State} {p : Word × Byte} (hp : p ∈ s.engineWrites) :
    ∃ op r j, s.phase = .run (.hash op) r ∧ j < fpLength s ∧ p.1.toNat = fpKey s j ∧
      (s.fingerprint op)[j]? = some p.2 := by
  unfold State.engineWrites at hp
  split at hp
  · cases hp
  · next op r hrun =>
    obtain ⟨j, hj, hv, ha, -⟩ := mem_performedWrites hp
    exact ⟨op, r, j, hrun, hj, congrArg BitVec.toNat ha, hv⟩
  · cases hp

/-- Settles O19: a byte after reset is as it was or is one of the engine's writes, and these are fingerprint bytes. -/
theorem resetDuringACommandLeavesOldOrNewBytes : Obligations.ResetDuringACommandLeavesOldOrNewBytes := by
  refine fun s _ hm => ⟨resetEngine s, hostStep_reset s, rfl, resetEngine_readReg s, fun a => ?_⟩
  rw [State.resetEngine_mem]
  rcases storeAll_read_cases _ 0 s.engineWrites hm a with hold | ⟨p, hp, rfl, hnew⟩
  · exact .inl hold
  · obtain ⟨op, r, j, hrun, hj, ha, hv⟩ := mem_engineWrites hp
    exact .inr ⟨op, r, j, p.2, hrun, hj, ha, hv, hnew⟩

/-- Settles O18: the registers as they stand and as the host reads them, and no writes in an idle engine. -/
theorem resetSetsTheListedValues : Obligations.ResetSetsTheListedValues :=
  fun s => ⟨resetEngine s, hostStep_reset s, fun r => ⟨resetEngine_readReg s r, resetEngine_hostReads s r⟩,
    rfl, rfl, rfl, fun hb => by rw [State.resetEngine_mem, engineWrites_of_idle hb, storeAll]⟩

end Sys2Proof.Machine
end

section
/-! PROOFS. The decoder against the encoder (30_encoding.md R102 to R104, R109), and how a word written to CMD comes to
run (10_state.md R42). -/

namespace Sys2Proof.Machine

open Sys2Proof.Claims

theorem decode_encode (i : Instr) : decode (encode i) = .ok i := by cases i <;> rfl

/-- Settles O2: a word that decodes has RSVD 0 and the command's opcode, and each encoding decodes to its command. -/
theorem decodeAndEncodeAgree : Obligations.DecodeAndEncodeAgree :=
  fun _ i => ⟨eq_encode_of_decode, fun h => h ▸ decode_encode i⟩

/-- Settles O3: six encodings and two rejected words, each by evaluating the decoder. -/
theorem commandWordsDecode : Obligations.CommandWordsDecode := by
  unfold Obligations.CommandWordsDecode
  decide

/-- A word that decodes to a command is that command's `exec`, in a busy engine as well: both drop it there. -/
theorem submitWord_of_decode {w : Word} {i : Instr} (hd : decode w = .ok i) (s : State) :
    submitWord w s = exec i s := by
  cases hb : s.busy with
  | true => rw [submitWord_of_busy hb, exec_of_busy i hb]
  | false => exact submitWord_of_ok hb hd

/-- Settles O4: the host's write to CMD is the step, and the word is submitted. -/
theorem stepRunsTheDecodedCommand : Obligations.StepRunsTheDecodedCommand := by
  intro s e w rest i hi hb hd
  rw [step_of_cons hi (by rw [hb, Bool.false_and]), hostTurn_write_cmd, submitWord_of_decode hd]

theorem tableWord_toNat (w : Word) : tableWord 32 w.toNat = w := by
  rw [tableWord, Nat.mod_eq_of_lt w.isLt, BitVec.ofNat_toNat, BitVec.setWidth_eq]

/-- Settles O5: the placed write to CMD is at the head of the list, and marked early. -/
theorem stepRunsThePlacedWord : Obligations.StepRunsThePlacedWord := by
  intro s w i hd
  rw [State.withFetchWord, tableWord_toNat]
  calc step (s.withCommand w) = hostTurn (.regWrite 0x0C 4 w) s := step_of_op _ s
    _ = exec i s := by rw [hostTurn_write_cmd, submitWord_of_decode hd]

end Sys2Proof.Machine
end

section
/-! PROOFS. What a step of the machine is, said once as a case for each kind of move, and the rules about every step
that follow from it (10_state.md R38 to R57, 20_memory.md R75, R88, 60_exceptions.md R231 to R242). Each rule is proved
first of the end of a running command, which is the engine's own move and the second half of a command that is
submitted with no host operation due. -/

namespace Sys2Proof.Machine

open Sys2Proof.Claims

/-! ## The kinds of step -/

/-- A step from `s`, by who moves and what the host does; `l` is what is then left of the host's list. -/
inductive StepTo (s : State) : State → Prop where
  /-- The running command ends (10_state.md R58). -/
  | engine {t : State} (hb : s.busy = true) (hf : s.finish = .next t) : StepTo s t
  /-- The machine waits, or the host writes a reserved offset or submits NOP. -/
  | unchanged (l : List Pending) : StepTo s (s.withInputs l)
  /-- A word is written to CMD while BUSY (10_state.md R42). -/
  | overrun (l : List Pending) (hb : s.busy = true) : StepTo s (s.withInputs l).overrun
  /-- A word is rejected (45_control_commands.md R222). -/
  | reject (l : List Pending) (r : Reject) (hb : s.busy = false) : StepTo s ((s.withInputs l).rejectWord r)
  /-- CLEAR (45_control_commands.md R221). -/
  | clear (l : List Pending) (hb : s.busy = false) (hi : submits s .clear) : StepTo s (s.withInputs l).clearRecord
  /-- A command is accepted, and a host operation is due before it ends. -/
  | accept (l : List Pending) {i : Instr} {op : RunOp} (hb : s.busy = false) (hi : submits s i)
      (ho : runOpOf i = some op) : StepTo s ((s.withInputs l).accept op)
  /-- A command is accepted and runs to its end (44_hash_commands.md R206). -/
  | run (l : List Pending) {i : Instr} {op : RunOp} {t : State} (hb : s.busy = false) (hi : submits s i)
      (ho : runOpOf i = some op) (hf : ((s.withInputs l).accept op).finish = .next t) : StepTo s t
  /-- The host writes a register other than CMD. -/
  | write (l : List Pending) (r : Reg) (v : Word) (hr : r ≠ .cmd)
      (hm : hostMove s = some (.regWrite r.offset 4 v)) : StepTo s ((s.withInputs l).writeReg r v)
  | read (l : List Pending) (off : BitVec 8) : StepTo s (hostRead off (s.withInputs l))
  | store (l : List Pending) (a : Word) (v : Byte) (hm : hostMove s = some (.memStore a v)) :
      StepTo s (hostStore a v (s.withInputs l))
  | load (l : List Pending) (a : Word) : StepTo s (hostLoad a (s.withInputs l))
  | look (l : List Pending) : StepTo s (seeIrq (s.withInputs l))
  | reset (l : List Pending) (hm : hostMove s = some .reset) : StepTo s (resetEngine (s.withInputs l))

theorem headOp_of_cons {s : State} {p : Pending} {rest : List Pending} (hi : s.inputs = p :: rest) :
    headOp s = some p.op := by simp [headOp, hi]

/-- A command submitted to an idle engine. -/
theorem stepTo_of_exec {s t : State} {l : List Pending} {i : Instr} (hb : s.busy = false) (hi : submits s i)
    (h : exec i (s.withInputs l) = .next t) : StepTo s t := by
  rcases exec_next (s := s.withInputs l) hb h with ⟨-, rfl⟩ | ⟨rfl, rfl⟩ | ⟨op, ho, ⟨-, rfl⟩ | ⟨-, hf⟩⟩
  · exact .unchanged l
  · exact .clear l hb hi
  · exact .accept l hb hi ho
  · exact .run l hb hi ho hf

/-- A host write to the register block. -/
theorem stepTo_of_hostWrite {s t : State} {l : List Pending} {off : BitVec 8} {v : Word}
    (hh : headOp s = some (.regWrite off 4 v)) (hm : hostMove s = some (.regWrite off 4 v))
    (h : hostWrite off v (s.withInputs l) = .next t) : StepTo s t := by
  rcases hostWrite_next h with ⟨rfl, hw⟩ | ⟨r, hr, rfl, rfl⟩ | ⟨-, rfl⟩
  · rcases submitWord_next hw with ⟨hb, rfl⟩ | ⟨hb, i, hd, he⟩ | ⟨hb, r, -, rfl⟩
    · exact .overrun l hb
    · exact stepTo_of_exec hb ⟨v, hh, hd⟩ he
    · exact .reject l r hb
  · exact .write l r v hr hm
  · exact .unchanged l

/-- Every step that answers is one of these. -/
theorem stepTo_of_step {s t : State} (h : step s = .next t) : StepTo s t := by
  rcases step_cases s with ⟨hb, -, he⟩ | ⟨-, -, he⟩ | ⟨p, rest, hi, hq, he⟩
  · exact .engine hb (he ▸ h)
  · cases he ▸ h
    exact .unchanged s.inputs
  · have hh := headOp_of_cons hi
    have hm := hostMove_of_cons hi hq
    rcases hostTurn_next (he ▸ h) with ⟨off, v, hop, -, hw⟩ | ⟨off, -, -, rfl⟩ | ⟨a, v, hop, rfl⟩ | ⟨a, -, rfl⟩ |
      ⟨-, rfl⟩ | ⟨hop, rfl⟩
    · rw [hop] at hh hm
      exact stepTo_of_hostWrite hh hm hw
    · exact .read rest off
    · exact .store rest a v (hop ▸ hm)
    · exact .load rest a
    · exact .look rest
    · exact .reset rest (hop ▸ hm)

theorem eq_hdist_of_runOpOf {i : Instr} (h : runOpOf i = some .hdist) : i = .hdist := by
  cases i <;> simp [runOpOf] at h ⊢

theorem eq_hashInstr_of_runOpOf {i : Instr} {op : HashOp} (h : runOpOf i = some (.hash op)) : i = hashInstr op := by
  cases i <;> cases h <;> rfl

/-! ## INDEX_RANGE -/

theorem hashStop_error_ne_indexRange {s : State} {op : HashOp} {e : CmdError} (h : s.hashStop op = some (.error e)) :
    e.code ≠ .indexRange := by
  rcases hashStop_error h with ⟨d, rfl, -⟩ | ⟨k, a, rfl⟩ <;> simp [invalidArgument]

theorem distStop_error_ne_indexRange {c : Config} {o : DistArgs} {e : CmdError} (h : distStop c o = some (.error e)) :
    e.code ≠ .indexRange := by
  rcases distStop_error h with ⟨d, rfl, -⟩ | rfl | ⟨a, rfl⟩ <;> simp

theorem finish_next_ne_indexRange {s t : State} (hb : s.busy = true) (hs : s.errCode ≠ .indexRange)
    (h : s.finish = .next t) : t.errCode ≠ .indexRange := by
  rcases finish_next hb h with ⟨op, r, -, -, rfl⟩ | ⟨op, r, e, -, he, rfl⟩ | ⟨r, -, -, rfl⟩ | ⟨r, e, -, he, rfl⟩
  · exact hs
  · exact hashStop_error_ne_indexRange he
  · exact hs
  · exact distStop_error_ne_indexRange he

/-- Settles O36: with legal operands the axis map stays inside the grid, so no end of a command raises it, and no other
step writes a code but 0 or ILLEGAL_COMMAND. -/
theorem indexRangeIsNeverRaised : Obligations.IndexRangeIsNeverRaised := by
  intro s t hs h
  cases stepTo_of_step h with
  | engine hb hf => exact finish_next_ne_indexRange hb hs hf
  | run l _ _ _ hf => exact finish_next_ne_indexRange (s := (s.withInputs l).accept _) rfl nofun hf
  | reject l r _ => exact nofun
  | clear l _ _ => exact nofun
  | accept l _ _ _ => exact nofun
  | reset l _ => exact nofun
  | write l r v _ _ =>
    obtain ⟨-, -, -, -, -, -, hcode, -⟩ := (s.withInputs l).writeReg_rest r v
    exact hcode ▸ hs
  | _ => exact hs

/-! ## The invariant -/

/-- An error the spec can write: a legal detail, and an address only with BUS_ERROR (60_exceptions.md R231 to R238). -/
def CmdError.Legal (e : CmdError) : Prop :=
  detailLegal e.code e.detail = true ∧ (e.code = .busError ∨ e.addr = 0)

theorem busError_legal (k : AccessKind) (a : Word) : CmdError.Legal ⟨.busError, busDetail k, a⟩ := by
  cases k <;> exact ⟨rfl, .inl rfl⟩

theorem hashStop_error_legal {s : State} {op : HashOp} {e : CmdError} (h : s.hashStop op = some (.error e)) :
    e.Legal := by
  rcases hashStop_error h with ⟨d, rfl, h1, h8⟩ | ⟨k, a, rfl⟩
  · exact ⟨by simp [invalidArgument, detailLegal, h1, h8], .inr rfl⟩
  · exact busError_legal k a

theorem distStop_error_legal {c : Config} {o : DistArgs} {e : CmdError} (h : distStop c o = some (.error e)) :
    e.Legal := by
  rcases distStop_error h with ⟨d, rfl, h1, h3⟩ | rfl | ⟨a, rfl⟩
  · exact ⟨by simp [detailLegal, h1, h3], .inr rfl⟩
  · exact ⟨rfl, .inr rfl⟩
  · exact busError_legal .read a

theorem Reject.error_legal (r : Reject) : CmdError.Legal ⟨.illegalCommand, r.detail, 0⟩ := by
  cases r <;> exact ⟨rfl, .inr rfl⟩

theorem raise_recordLegal {e : CmdError} (he : e.Legal) (s : State) : (s.raise e).recordLegal = true := by
  obtain ⟨hdetail, haddr⟩ := he
  simpa [State.recordLegal, hdetail] using haddr

theorem busyClean_of_idle {s : State} (hb : s.busy = false) : s.busyClean = true := by simp [State.busyClean, hb]

theorem raise_infoLegal {s : State} (hs : s.infoLegal = true) (e : CmdError) : (s.raise e).infoLegal = true := by
  cases hr : s.runsHash <;> simp [State.infoLegal, hr] at hs ⊢
  exact hs

theorem completeDistance_distBounded (s : State) : (s.completeDistance s.distance).distBounded = true := by
  have hle := distance_le s
  have hlen := s.aLen.isLt
  simp only [State.distBounded, State.completeDistance_dist, distance_toNat, decide_eq_true_eq]
  omega

/-- An error taken at the end of a command's accesses keeps the invariant. -/
theorem raise_commitWrites_inv {s : State} (hs : s.Inv) (ws : List (Word × Byte)) {e : CmdError} (he : e.Legal) :
    ((s.commitWrites ws).raise e).Inv := by
  obtain ⟨hm, -, -, hd, hi⟩ := hs
  exact ⟨storeAll_wf _ 0 ws hm, raise_recordLegal he _, busyClean_of_idle rfl, hd,
    raise_infoLegal (s := s.commitWrites ws) hi e⟩

theorem finish_next_inv {s t : State} (hb : s.busy = true) (hs : s.Inv) (h : s.finish = .next t) : t.Inv := by
  rcases finish_next hb h with ⟨op, r, -, -, rfl⟩ | ⟨op, r, e, -, he, rfl⟩ | ⟨r, -, -, rfl⟩ | ⟨r, e, -, he, rfl⟩
  · obtain ⟨hm, hr, -, hd, -⟩ := hs
    exact ⟨storeAll_wf _ 0 _ hm, hr, busyClean_of_idle rfl, hd, rfl⟩
  · exact raise_commitWrites_inv hs _ (hashStop_error_legal he)
  · obtain ⟨hm, hr, -, -, hi⟩ := hs
    exact ⟨hm, hr, busyClean_of_idle rfl, completeDistance_distBounded s, hi⟩
  · exact raise_commitWrites_inv hs [] (distStop_error_legal he)

theorem accept_inv {s : State} (hs : s.Inv) (op : RunOp) : (s.accept op).Inv := by
  obtain ⟨hm, -, -, hd, hi⟩ := hs
  exact ⟨hm, rfl, rfl, hd, hi⟩

theorem writeReg_inv {s : State} (hs : s.Inv) (r : Reg) (v : Word) : (s.writeReg r v).Inv := by
  obtain ⟨hm, hr, hc, hd, hi⟩ := hs
  obtain ⟨-, -, hmem, -, -, -, hcode, hdetail, haddr, hdist, hpath, hvalid, -⟩ := s.writeReg_rest r v
  refine ⟨hmem ▸ hm, ?_, ?_, ?_, ?_⟩
  · rwa [State.recordLegal, hcode, hdetail, haddr]
  · simp only [State.busyClean, State.writeReg_busy, State.writeReg_done, hcode, haddr] at hc ⊢
    cases hb : s.busy with
    | false => rfl
    | true => simp_all
  · rwa [State.distBounded, hdist]
  · rwa [State.infoLegal, hvalid, hpath]

theorem hostStore_inv {s : State} (hs : s.Inv) (a : Word) (v : Byte) : (hostStore a v s).Inv := by
  obtain ⟨hm, hr, hc, hd, hi⟩ := hs
  refine ⟨Memory.wf_write hm a v, hr, ?_, hd, hi⟩
  rwa [State.busyClean, State.hostStore_busy]

theorem resetEngine_inv {s : State} (hm : s.mem.wf = true) : (resetEngine s).Inv :=
  ⟨storeAll_wf _ 0 _ hm, rfl, rfl, rfl, rfl⟩

/-- Settles O60: by evaluating the invariant on the state after reset. -/
theorem resetMeetsTheInvariant : Obligations.ResetMeetsTheInvariant := ⟨rfl, rfl, rfl, rfl, rfl⟩

/-- Settles O59: by the kind of step; the end of a command, whether it ran before or is accepted in this step, takes
only legal errors and a distance of at most 4 per byte. -/
theorem everyStepKeepsTheInvariant : Obligations.EveryStepKeepsTheInvariant := by
  intro s t hs h
  have hm := hs.1
  cases stepTo_of_step h with
  | engine hb hf => exact finish_next_inv hb hs hf
  | run l _ _ _ hf =>
    exact finish_next_inv (s := (s.withInputs l).accept _) rfl (accept_inv (s := s.withInputs l) hs _) hf
  | accept l _ _ _ => exact accept_inv (s := s.withInputs l) hs _
  | write l r v _ _ => exact writeReg_inv (s := s.withInputs l) hs r v
  | store l a v _ => exact hostStore_inv (s := s.withInputs l) hs a v
  | reset l _ => exact resetEngine_inv (s := s.withInputs l) hm
  | reject l r hb =>
    obtain ⟨-, -, -, hd, hi⟩ := hs
    exact ⟨hm, raise_recordLegal (Reject.error_legal r) _, busyClean_of_idle rfl, hd,
      raise_infoLegal (s := { s.withInputs l with unseen := s.unseen.settleRecord }) hi _⟩
  | clear l hb _ =>
    obtain ⟨-, -, -, hd, hi⟩ := hs
    exact ⟨hm, rfl, busyClean_of_idle hb, hd, hi⟩
  | _ => exact hs

end Sys2Proof.Machine
end

section
/-! PROOFS. What changes DIST, INFO, DONE, the configuration registers and memory (10_state.md R38, R45 to R57,
20_memory.md R75, R88, 60_exceptions.md R242), by the kind of step. -/

namespace Sys2Proof.Machine

open Sys2Proof.Claims

theorem runsHash_of_phase_hash {s : State} {op : HashOp} {r : List Host.Cell} (hp : s.phase = .run (.hash op) r) :
    s.runsHash = true := by rw [State.runsHash, hp]

theorem runsHash_of_phase_hdist {s : State} {r : List Host.Cell} (hp : s.phase = .run .hdist r) :
    s.runsHash = false := by rw [State.runsHash, hp]

/-! ## DIST -/

/-- The end of a command keeps DIST, or it is HDIST's and without error. -/
theorem finish_next_dist {s t : State} (hb : s.busy = true) (h : s.finish = .next t) :
    t.dist = s.dist ∨ ((∃ r, s.phase = .run .hdist r) ∧ t.errCode = s.errCode) := by
  rcases finish_next hb h with ⟨op, r, -, -, rfl⟩ | ⟨op, r, e, -, -, rfl⟩ | ⟨r, hp, -, rfl⟩ | ⟨r, e, -, -, rfl⟩
  · exact .inl rfl
  · exact .inl rfl
  · exact .inr ⟨⟨r, hp⟩, rfl⟩
  · exact .inl rfl

/-- Settles O52: only the end of an HDIST without error and reset write DIST. -/
theorem distChangesOnlyByHdist : Obligations.DistChangesOnlyByHdist := by
  intro s t h
  cases stepTo_of_step h with
  | engine hb hf =>
    refine (finish_next_dist hb hf).imp_right fun ⟨⟨r, hp⟩, hcode⟩ => .inr ?_
    refine ⟨.inl ⟨hb, runsHash_of_phase_hdist hp⟩, finish_next_busy hb hf, (finish_next_done_irqEn hb hf).1, ?_⟩
    rintro (hnone | hidle)
    · rw [hcode, hnone]
    · rw [hb] at hidle
      cases hidle
  | run l hb hi ho hf =>
    refine (finish_next_dist (s := (s.withInputs l).accept _) rfl hf).imp_right fun ⟨⟨r, hp⟩, hcode⟩ => .inr ?_
    cases hp
    exact ⟨.inr (eq_hdist_of_runOpOf ho ▸ hi), finish_next_busy (s := (s.withInputs l).accept _) rfl hf,
      (finish_next_done_irqEn (s := (s.withInputs l).accept _) rfl hf).1, fun _ => hcode⟩
  | write l r v _ _ =>
    obtain ⟨-, -, -, -, -, -, -, -, -, hdist, -⟩ := (s.withInputs l).writeReg_rest r v
    exact .inl hdist
  | reset l hm => exact .inr (.inl hm)
  | _ => exact .inl rfl

/-! ## INFO -/

theorem hashStop_error_code_ne_none {s : State} {op : HashOp} {e : CmdError} (h : s.hashStop op = some (.error e)) :
    e.code ≠ .none := by
  rcases hashStop_error h with ⟨d, rfl, -⟩ | ⟨k, a, rfl⟩ <;> simp [invalidArgument]

/-- The end of an HDIST keeps INFO; after a hash command VALID tells that no error was recorded, and with an error INFO
is 0. -/
theorem finish_next_info {s t : State} (hb : s.busy = true) (h : s.finish = .next t) :
    (s.runsHash = false ∧ t.infoValid = s.infoValid ∧ t.infoPath = s.infoPath) ∨
    ((∃ op r, s.phase = .run (.hash op) r) ∧ (t.infoValid = false → t.infoPath = false) ∧
      (s.errCode = .none → (t.infoValid = true ↔ t.errCode = .none))) := by
  rcases finish_next hb h with ⟨op, r, hp, -, rfl⟩ | ⟨op, r, e, hp, he, rfl⟩ | ⟨r, hp, -, rfl⟩ | ⟨r, e, hp, -, rfl⟩
  · exact .inr ⟨⟨op, r, hp⟩, nofun, fun hnone => iff_of_true rfl hnone⟩
  · have hrun := runsHash_of_phase_hash hp
    exact .inr ⟨⟨op, r, hp⟩, fun _ => by simp [hrun],
      fun _ => iff_of_false (by simp [hrun]) (hashStop_error_code_ne_none he)⟩
  · exact .inl ⟨runsHash_of_phase_hdist hp, rfl, rfl⟩
  · have hrun := runsHash_of_phase_hdist hp
    exact .inl ⟨hrun, by simp [hrun]⟩

/-- Settles O53: only the end of a hash command and reset write INFO; an error raised elsewhere leaves it. -/
theorem infoChangesOnlyByHashCompletion : Obligations.InfoChangesOnlyByHashCompletion := by
  intro s t h
  cases stepTo_of_step h with
  | engine hb hf =>
    refine (finish_next_info hb hf).imp And.right fun ⟨⟨op, r, hp⟩, hpath, hvalid⟩ => .inr ?_
    refine ⟨.inl (runsHash_of_phase_hash hp), finish_next_busy hb hf, (finish_next_done_irqEn hb hf).1, hpath, ?_⟩
    rintro (hnone | hidle)
    · exact hvalid hnone
    · rw [hb] at hidle
      cases hidle
  | run l hb hi ho hf =>
    refine (finish_next_info (s := (s.withInputs l).accept _) rfl hf).imp And.right
      fun ⟨⟨op, r, hp⟩, hpath, hvalid⟩ => .inr ?_
    cases hp
    exact ⟨.inr ⟨op, eq_hashInstr_of_runOpOf ho ▸ hi⟩, finish_next_busy (s := (s.withInputs l).accept _) rfl hf,
      (finish_next_done_irqEn (s := (s.withInputs l).accept _) rfl hf).1, hpath, fun _ => hvalid rfl⟩
  | write l r v _ _ =>
    obtain ⟨-, -, -, -, -, -, -, -, -, -, hpath, hvalid, -⟩ := (s.withInputs l).writeReg_rest r v
    exact .inl ⟨hvalid, hpath⟩
  | reject l r hb =>
    rw [rejectWord_of_idle (s := s.withInputs l) hb]
    exact .inl ⟨rfl, rfl⟩
  | reset l hm => exact .inr (.inl hm)
  | _ => exact .inl ⟨rfl, rfl⟩

/-! ## DONE -/

theorem ne_nop_of_runOpOf {i : Instr} {op : RunOp} (h : runOpOf i = some op) : i ≠ .nop := by
  rintro rfl
  cases h

/-- Settles O55: the end of a command and a rejection set DONE; what clears it is a write to STATUS, reset, and CLEAR
or an acceptance, both of a command submitted to an idle engine. -/
theorem doneIsClearedOnlyByTheHost : Obligations.DoneIsClearedOnlyByTheHost := by
  intro s t hs h ht
  cases stepTo_of_step h with
  | engine hb hf =>
    rw [(finish_next_done_irqEn hb hf).1] at ht
    cases ht
  | run l _ _ _ hf =>
    rw [(finish_next_done_irqEn (s := (s.withInputs l).accept _) rfl hf).1] at ht
    cases ht
  | reject l r _ => cases ht
  | clear l hb hi => exact .inr (.inr ⟨hb, .clear, nofun, hi⟩)
  | accept l hb hi ho => exact .inr (.inr ⟨hb, _, ne_nop_of_runOpOf ho, hi⟩)
  | write l r v _ hm =>
    rw [State.writeReg_done, State.withInputs_done, hs] at ht
    obtain ⟨rfl, hv⟩ : r = .status ∧ v.getLsbD 1 = true := by simpa using ht
    exact .inr (.inl ⟨v, hm, hv⟩)
  | reset l hm => exact .inl hm
  | _ => exact absurd (hs.symm.trans ht) nofun

/-! ## The configuration registers -/

/-- The configuration registers read as the operands do. -/
theorem readReg_of_sameOperands {s t : State} (h : SameOperands s t) {r : Reg} (hr : r ∈ configRegs) :
    t.readReg r = s.readReg r := by
  obtain ⟨hhash, hdist, -⟩ := h
  simp only [State.hashArgs, State.distArgs, HashArgs.mk.injEq, DistArgs.mk.injEq, BitVec.toNat_inj] at hhash hdist
  obtain ⟨hw, hh, hbits, hsrc, hdst⟩ := hhash
  obtain ⟨ha, hal, hb, hbl⟩ := hdist
  cases r <;> simp [configRegs] at hr <;> simp only [State.readReg, hw, hh, hbits, hsrc, hdst, ha, hal, hb, hbl]

theorem finish_next_sameOperands {s t : State} (hb : s.busy = true) (h : s.finish = .next t) : SameOperands s t := by
  rcases finish_next hb h with ⟨op, r, -, -, rfl⟩ | ⟨op, r, e, -, -, rfl⟩ | ⟨r, -, -, rfl⟩ | ⟨r, e, -, -, rfl⟩ <;>
    exact ⟨rfl, rfl, rfl⟩

/-- Keeping the low `k` bits of a word is masking it. -/
theorem setWidth_setWidth_eq_and (k : Nat) (v : Word) :
    (v.setWidth k).setWidth 32 = v &&& BitVec.ofNat 32 (2 ^ k - 1) := by
  apply BitVec.eq_of_getLsbD_eq
  intro i hi
  simp only [BitVec.getLsbD_and, BitVec.getLsbD_setWidth, BitVec.getLsbD_ofNat, Nat.testBit_two_pow_sub_one, hi,
    decide_true, Bool.true_and, Bool.and_comm]

/-- An idle engine's configuration register then reads the written value masked to its field (10_state.md R45 to
R53). -/
theorem writeReg_readReg_self {s : State} (hb : s.busy = false) {r : Reg} (hr : r ∈ configRegs) (v : Word) :
    (s.writeReg r v).readReg r = v &&& fieldMask r := by
  cases r <;> simp [configRegs] at hr <;> simp only [State.writeReg, State.writeConfig, hb]
  case bits | width | height | aLen | bLen => exact setWidth_setWidth_eq_and _ v
  all_goals exact (BitVec.and_allOnes (x := v)).symm

/-- A write to a configuration register reaches no other register. -/
theorem writeReg_readReg_of_ne {r r' : Reg} (hr : r ∈ configRegs) (hne : r' ≠ r) (s : State) (v : Word) :
    (s.writeReg r v).readReg r' = s.readReg r' := by
  cases hb : s.busy with
  | true => rw [writeReg_of_busy_config hb hr]
  | false =>
    cases r <;> simp [configRegs] at hr <;> simp only [State.writeReg, State.writeConfig, hb] <;>
      cases r' <;> simp at hne <;> rfl

/-- A write to another register than a configuration register reaches no operand. -/
theorem writeReg_sameOperands_of_not_config {r : Reg} (hr : r ∉ configRegs) (s : State) (v : Word) :
    SameOperands s (s.writeReg r v) := by
  cases r <;> simp [configRegs] at hr <;> exact ⟨rfl, rfl, rfl⟩

/-- What the host's write to any register leaves a configuration register reading. -/
theorem writeReg_readReg_config (s : State) (r : Reg) (v : Word) {c : Reg} (hc : c ∈ configRegs) :
    (s.writeReg r v).readReg c = s.readReg c ∨
      (s.busy = false ∧ r = c ∧ (s.writeReg r v).readReg c = v &&& fieldMask c) := by
  by_cases hr : r ∈ configRegs
  · by_cases hrc : c = r
    · subst hrc
      cases hb : s.busy with
      | true => exact .inl (by rw [writeReg_of_busy_config hb hr])
      | false => exact .inr ⟨rfl, rfl, writeReg_readReg_self hb hr v⟩
    · exact .inl (writeReg_readReg_of_ne hr hrc s v)
  · exact .inl (readReg_of_sameOperands (writeReg_sameOperands_of_not_config hr s v) hc)

/-- Settles O56: every step but reset and a write to a register keeps all operands, and that write reaches the register
it names. -/
theorem configurationChangesOnlyByHostWrites : Obligations.ConfigurationChangesOnlyByHostWrites := by
  intro s t h
  have hsame (t : State) (ht : SameOperands s t) : t.cfg = s.cfg ∧ ∀ c ∈ configRegs, t.readReg c = s.readReg c ∨
      hostMove s = some .reset ∨
      (s.busy = false ∧ ∃ v, hostMove s = some (.regWrite c.offset 4 v) ∧ t.readReg c = v &&& fieldMask c) :=
    ⟨ht.2.2, fun c hc => .inl (readReg_of_sameOperands ht hc)⟩
  cases stepTo_of_step h with
  | engine hb hf => exact hsame t (finish_next_sameOperands hb hf)
  | run l _ _ _ hf => exact hsame t (finish_next_sameOperands (s := (s.withInputs l).accept _) rfl hf)
  | reset l hm => exact ⟨rfl, fun c _ => .inr (.inl hm)⟩
  | write l r v _ hm =>
    obtain ⟨hcfg, -⟩ := (s.withInputs l).writeReg_rest r v
    refine ⟨hcfg, fun c hc => ?_⟩
    refine (writeReg_readReg_config (s.withInputs l) r v hc).imp_right fun ⟨hb, hrc, hv⟩ => .inr ?_
    exact ⟨hb, v, hrc ▸ hm, hv⟩
  | _ => exact hsame _ ⟨rfl, rfl, rfl⟩

/-! ## Memory -/

/-- Each write of a hash command is a nibble, at its place in the fingerprint buffer. -/
theorem nibble_of_mem_performedWrites {s : State} {op : HashOp} {p : Word × Byte} (hp : p ∈ s.performedWrites op) :
    p.2.toNat < 16 ∧ ∃ j, j < fpLength s ∧ fpKey s j = p.1.toNat := by
  obtain ⟨j, hj, -, ha, hlt, -⟩ := mem_performedWrites hp
  exact ⟨hlt, j, hj, congrArg BitVec.toNat ha.symm⟩

/-- After some of a hash command's writes a byte is as it was, or a nibble of the fingerprint buffer. -/
theorem storeAll_performedWrites_read (keep : Nat → Word → Bool) {s : State} (op : HashOp) (hm : s.mem.wf = true)
    (a : Nat) : (storeAll keep 0 (s.performedWrites op) s.mem).read a = s.mem.read a ∨
      (((storeAll keep 0 (s.performedWrites op) s.mem).read a).toNat < 16 ∧ ∃ j, j < fpLength s ∧ fpKey s j = a) := by
  refine (storeAll_read_cases keep 0 _ hm a).imp_right ?_
  rintro ⟨p, hp, rfl, hv⟩
  rw [hv]
  exact nibble_of_mem_performedWrites hp

/-- The end of a command keeps a byte, or is a hash command's and leaves a nibble in its buffer. -/
theorem finish_next_read {s t : State} (hb : s.busy = true) (hm : s.mem.wf = true) (h : s.finish = .next t) (a : Nat) :
    t.mem.read a = s.mem.read a ∨ ((∃ op r, s.phase = .run (.hash op) r) ∧ (t.mem.read a).toNat < 16 ∧
      ∃ j, j < fpLength s ∧ fpKey s j = a) := by
  rcases finish_next hb h with ⟨op, r, hp, -, rfl⟩ | ⟨op, r, e, hp, -, rfl⟩ | ⟨r, -, -, rfl⟩ | ⟨r, e, -, -, rfl⟩
  · exact (storeAll_performedWrites_read _ op hm a).imp_right fun hn => ⟨⟨op, r, hp⟩, hn⟩
  · exact (storeAll_performedWrites_read _ op hm a).imp_right fun hn => ⟨⟨op, r, hp⟩, hn⟩
  · exact .inl rfl
  · exact .inl rfl

/-- Reset keeps a byte, or finds a hash command's nibble written. -/
theorem resetEngine_read {s : State} (hm : s.mem.wf = true) (a : Nat) :
    (resetEngine s).mem.read a = s.mem.read a ∨ (s.runsHash = true ∧ ((resetEngine s).mem.read a).toNat < 16 ∧
      ∃ j, j < fpLength s ∧ fpKey s j = a) := by
  refine (storeAll_read_cases _ 0 s.engineWrites hm a).imp_right ?_
  rintro ⟨p, hp, rfl, hv⟩
  rw [State.resetEngine_mem, hv]
  unfold State.engineWrites at hp
  split at hp
  · cases hp
  · next op r hrun => exact ⟨runsHash_of_phase_hash hrun, nibble_of_mem_performedWrites hp⟩
  · cases hp

/-- Settles O57: only a store, the end of a hash command and reset during one write memory. -/
theorem memoryChangesOnlyByStoresAndFingerprints : Obligations.MemoryChangesOnlyByStoresAndFingerprints := by
  intro s t a hm h
  cases stepTo_of_step h with
  | engine hb hf =>
    exact (finish_next_read hb hm hf a).imp_right
      fun ⟨⟨op, r, hp⟩, hn⟩ => .inr ⟨.inl (runsHash_of_phase_hash hp), hn⟩
  | run l hb hi ho hf =>
    refine (finish_next_read (s := (s.withInputs l).accept _) rfl hm hf a).imp_right
      fun ⟨⟨op, r, hp⟩, hn⟩ => .inr ⟨.inr ?_, hn⟩
    cases hp
    exact ⟨op, eq_hashInstr_of_runOpOf ho ▸ hi⟩
  | store l b v hmove =>
    by_cases hba : a = b.toNat
    · exact .inr (.inl ⟨b, v, hmove, hba.symm, hba ▸ Memory.read_write_same v hm⟩)
    · exact .inl (Memory.read_write_other v hba)
  | reset l _ =>
    exact (resetEngine_read (s := s.withInputs l) hm a).imp_right fun ⟨hrun, hn⟩ => .inr ⟨.inl hrun, hn⟩
  | write l r v _ _ =>
    obtain ⟨-, -, hmem, -⟩ := (s.withInputs l).writeReg_rest r v
    exact .inl (by rw [hmem]; rfl)
  | _ => exact .inl rfl

end Sys2Proof.Machine
end

section
/-! PROOFS. The host's accesses (30_encoding.md R101, 10_state.md R33 to R58, 20_memory.md R79, R85, R86,
70_reset_and_hazards.md R267): what a register write, a register read, a look at the interrupt line, a store and a load
answer and change. -/

namespace Sys2Proof.Machine

open Sys2Proof.Claims

/-! ## Register writes -/

/-- Settles O9: the write is `writeReg`, which in an idle engine reaches that register alone. -/
theorem configurationWritesKeepTheField : Obligations.ConfigurationWritesKeepTheField := by
  intro s r v hb hr
  obtain ⟨hcfg, hphase, hmem, hinputs, -⟩ := s.writeReg_rest r v
  refine ⟨s.writeReg r v, ?_, writeReg_readReg_self hb hr v, fun r' hne => writeReg_readReg_of_ne hr hne s v,
    hmem, hphase, hcfg, hinputs⟩
  rw [hostStep_eq_hostTurn, hostTurn_write_of_ne_cmd (ne_cmd_of_mem_configRegs hr)]

/-- Settles O13: none of the five is CMD, and a write to any of them is ignored. -/
theorem readOnlyRegistersIgnoreWrites : Obligations.ReadOnlyRegistersIgnoreWrites := by
  intro s r v hr
  obtain ⟨hcmd, hw⟩ : r ≠ .cmd ∧ s.writeReg r v = s := by
    cases r <;> simp at hr <;> exact ⟨nofun, rfl⟩
  rw [hostStep_eq_hostTurn, hostTurn_write_of_ne_cmd hcmd, hw]

theorem alignedAccess_eq_false {off : BitVec 8} {size : Nat} (h : size ≠ 4 ∨ off.toNat % 4 ≠ 0) :
    alignedAccess off size = false := by
  rcases h with h | h <;> simp [alignedAccess, h]

/-- Settles O16: both accesses are checked before anything else. -/
theorem unalignedRegisterAccessIsRefused : Obligations.UnalignedRegisterAccessIsRefused := by
  intro s off size v h
  have ha := alignedAccess_eq_false h
  constructor <;> rw [hostStep_eq_hostTurn] <;> simp [hostTurn, ha]

/-! ## The registers' words -/

theorem ctrlWord_eq (s : State) : s.ctrlWord = if s.irqEn then 1 else 0 := by
  rw [State.ctrlWord]
  cases s.irqEn <;> rfl

theorem infoWordOf_eq (valid path : Bool) :
    infoWordOf valid path = (if valid then 2 else 0) ||| (if path then 1 else 0) := by
  cases valid <;> cases path <;> rfl

/-- ERR's fields as one number (10_state.md R43). -/
theorem CmdError.word_eq (e : CmdError) :
    e.word = (e.detail.setWidth 32 <<< 8) ||| e.code.toByte.setWidth 32 := by
  apply BitVec.eq_of_getLsbD_eq
  intro i hi
  simp only [CmdError.word, BitVec.getLsbD_append, BitVec.getLsbD_or, BitVec.getLsbD_shiftLeft, BitVec.getLsbD_setWidth]
  by_cases h8 : i < 8
  · simp [h8, hi]
  · have hhigh : i - 8 < 32 := by omega
    simp [h8, hi, hhigh, BitVec.getLsbD_of_ge e.code.toByte i (by omega)]
    exact BitVec.lt_of_getLsbD

/-- STATUS's four bits as one number (10_state.md R36). -/
theorem statusWord_eq (s : State) :
    s.statusWord = (if s.busy then 1 else 0) ||| (if s.done then 2 else 0) |||
      (if s.errCode ≠ .none then 4 else 0) ||| (if s.cmdOvr then 8 else 0) := by
  have herr : (if s.errCode ≠ .none then (4 : Word) else 0) = if s.errFlag then 4 else 0 := by
    rw [State.errFlag]
    cases s.errCode <;> rfl
  rw [State.statusWord, herr]
  cases s.busy <;> cases s.done <;> cases s.errFlag <;> cases s.cmdOvr <;> rfl

/-! ## Reads and looks -/

theorem mem_resultRegs_iff (r : Reg) : r ∈ resultRegs ↔ r.isResult = true := by cases r <;> decide

theorem unsettled_eq_false_iff (s : State) : s.unsettled = false ↔ s.busy = false ∧ s.unseen = .empty := by
  simp [State.unsettled]

/-- The words still readable of a register, as the statements write them. -/
theorem words_eq_unseenWords (s : State) (r : Reg) : s.unseen.words r = unseenWords s r := by
  cases r <;> simp only [Unseen.words, unseenWords, infoWordOf_eq]
  exact List.map_congr_left fun e _ => e.word_eq

/-- A read of STATUS answers its word and settles the results if it observes completion (20_memory.md R85). -/
theorem hostRead_status (s : State) :
    hostRead Reg.status.offset s = { s with
      busData := s.readReg .status
      unseen := if s.busy = false ∨ s.done = true then .empty else s.unseen } := by
  have hobs : (s.statusObserves = true) = (s.busy = false ∨ s.done = true) := by simp [State.statusObserves]
  have hword : hostReadReg .status s = s.readReg .status := hostReadReg_settled nofun
  simp [hostRead, hostReadWord, regAt_offset, hword, hobs, Reg.isResult]

theorem seeIrq_eq (s : State) :
    seeIrq s = { s with busData := if s.irq then 1 else 0, unseen := if s.irq then .empty else s.unseen } := by
  have hbit : (bit s.irq).setWidth 32 = if s.irq then (1 : Word) else 0 := by cases s.irq <;> rfl
  rw [seeIrq, hbit]

/-- A read of a register but STATUS changes the answer, and may use up a free choice. -/
theorem hostRead_of_ne_status {r : Reg} (hr : r ≠ .status) (s : State) :
    ∃ k, hostRead r.offset s = { s with busData := hostReadReg r s, freeCtr := k } :=
  ⟨_, by simp only [hostRead, hostReadWord, regAt_offset, Option.some_beq_some, beq_eq_false_iff_ne.mpr hr,
    Bool.false_and, Bool.false_eq_true, if_false]; rfl⟩

/-- Everything a read of a result answers, in the words of the statements. -/
theorem hostReadReg_result_cases (r : Reg) (s : State) :
    hostReadReg r s = s.readReg r ∨ hostReadReg r s ∈ unseenWords s r ∨
      (s.busy = true ∧ ∃ t, step (s.withInputs []) = .next t ∧ hostReadReg r s = t.readReg r) := by
  rw [← words_eq_unseenWords]
  refine (hostReadReg_cases r s).imp_right fun h => h.imp_right ?_
  rintro ⟨hb, -, t, hf, hv⟩
  refine ⟨hb, t.withInputs [], ?_, by rw [hv, State.withInputs_readReg]⟩
  rw [step_of_busy_quiet (s := s.withInputs []) hb rfl, finish_withInputs [] hf]

/-- Settles O14: the words field by field, and the reads by whether the register holds a result. -/
theorem readsAnswerTheRegister : Obligations.ReadsAnswerTheRegister := by
  refine ⟨rfl, fun s r => ⟨fun hst hset => ?_, ?_, ?_, fun hres => ?_, idWord_eq_or s, rfl, ctrlWord_eq s,
    infoWordOf_eq _ _, CmdError.word_eq _, rfl, rfl, rfl, rfl, rfl, rfl, rfl, rfl, rfl, rfl, rfl, statusWord_eq s⟩⟩
  · rw [mem_resultRegs_iff, ← unsettled_eq_false_iff] at hset
    rw [hostStep_eq_hostTurn, hostTurn_read, hostRead_settled hst hset, State.answer]
  · exact (hostStep_eq_hostTurn _ s).trans ((hostTurn_read .status s).trans (congrArg _ (hostRead_status s)))
  · exact (hostStep_eq_hostTurn _ s).trans (congrArg Host.Outcome.next (seeIrq_eq s))
  · have hst : r ≠ .status := by
      rintro rfl
      simp [resultRegs] at hres
    obtain ⟨k, hk⟩ := hostRead_of_ne_status hst s
    exact ⟨hostReadReg r s, k, by rw [hostStep_eq_hostTurn, hostTurn_read, hk], hostReadReg_result_cases r s⟩

/-! ## Stores and loads -/

/-- A byte the command reads is the byte in memory or one that a store replaced since acceptance (20_memory.md R86). -/
theorem engineRead_cases (s : State) (n : Nat) (a : Word) :
    s.engineRead n a = byteAt s a ∨ (a.toNat, s.engineRead n a) ∈ s.replaced := by
  refine (pickHeld_mem (s.mem.read a.toNat) (s.heldBefore a) (Config.readChoice s.freeCtr n)).imp_right fun h => ?_
  obtain ⟨⟨b, v⟩, hc, hv⟩ := List.mem_map.mp h
  obtain ⟨hmem, hb⟩ := List.mem_filter.mp hc
  obtain rfl : b = a.toNat := by simpa using hb
  rwa [State.engineRead, ← hv]

theorem settleByte_eq (a : Nat) (u : Unseen) :
    u.settleByte a = { u with bytes := u.bytes.filter (fun c => c.1 ≠ a) } := by
  simp only [Unseen.settleByte, ne_eq, decide_not]
  rfl

theorem hostStep_memStore (a : Word) (v : Byte) (s : State) : hostStep (.memStore a v) s = .next (hostStore a v s) :=
  hostStep_eq_hostTurn _ s

/-- Settles O50: a read by the draw it makes, a store by the phase it finds. -/
theorem racedReadsReturnAHeldByte : Obligations.RacedReadsReturnAHeldByte := by
  refine ⟨engineRead_cases, fun s a v => ⟨fun hb => ?_, fun op r hp => ?_, fun hm b => Memory.read_write hm _ b v⟩⟩
  · have hp := (State.busy_eq_false_iff s).mp hb
    simp only [hostStep_memStore, hostStore, settleByte_eq, hb, hp, Phase.noteStore, Bool.false_eq_true, if_false]
  · have hb : s.busy = true := (State.busy_eq_true_iff s).mpr ⟨op, r, hp⟩
    simp only [hostStep_memStore, hostStore, settleByte_eq, hb, hp, Phase.noteStore, if_true, byteAt]

/-- Settles O51: the draw is of memory's byte, the engine's writes to the address, and the bytes replaced unseen. -/
theorem hostLoadsSeeOldOrNewBytes : Obligations.HostLoadsSeeOldOrNewBytes := by
  intro s a
  have hcases : hostLoadByte a s = byteAt s a ∨ (a.toNat, hostLoadByte a s) ∈ s.unseen.bytes ∨
      ∃ op r j, s.phase = .run (.hash op) r ∧ j < fpLength s ∧ a = fingerprintAddr s.hashArgs j ∧
        (s.fingerprint op)[j]? = some (hostLoadByte a s) := by
    rcases hostLoadByte_cases a s with h | h | h
    · exact .inl h
    · obtain ⟨op, r, j, hrun, hj, ha, hv⟩ := mem_engineWrites h
      exact .inr (.inr ⟨op, r, j, hrun, hj, BitVec.eq_of_toNat_eq ha, hv⟩)
    · exact .inr (.inl h)
  refine ⟨hostLoadByte a s, _, (hostStep_eq_hostTurn _ s).trans rfl, fun hrun hu => ?_, hcases⟩
  rcases hcases with h | h | ⟨op, r, j, hp, -⟩
  · exact h
  · rw [hu] at h
    cases h
  · rw [runsHash_of_phase_hash hp] at hrun
    cases hrun

end Sys2Proof.Machine
end

section
/-! PROOFS. Commands that run beside the host (10_state.md R37, R58, 44_hash_commands.md R206): acceptance with a host
operation due, and completion in a later step. -/

namespace Sys2Proof.Machine

open Sys2Proof.Claims

/-- With a host operation due before it ends, a command that runs is accepted and nothing more. -/
theorem exec_of_not_quiet {i : Instr} {op : RunOp} (h : runOpOf i = some op) {s : State} (hb : s.busy = false)
    (hq : s.quiet = false) : exec i s = .next (s.accept op) := by
  rw [exec_eq_launch h, launch_of_overlap op hb hq]

/-- After acceptance STATUS reads BUSY alone, unless CMD_OVR was set. -/
theorem accept_readReg_status {s : State} (h : s.cmdOvr = false) (op : RunOp) : (s.accept op).readReg .status = 1 := by
  change (s.accept op).statusWord = 1
  simp [statusWord_eq, h]

/-- Settles O47: each of the four is accepted, and acceptance is that state. -/
theorem acceptedCommandsAreBusy : Obligations.AcceptedCommandsAreBusy := by
  intro s hb hq
  refine ⟨fun op => exec_of_not_quiet (runOpOf_hashInstr op) hb hq, exec_of_not_quiet rfl hb hq,
    fun i t hi h hovr => ?_⟩
  obtain ⟨op, ho⟩ : ∃ op, runOpOf i = some op := by cases i <;> simp at hi <;> exact ⟨_, rfl⟩
  rw [exec_of_not_quiet ho hb hq] at h
  cases h
  exact accept_readReg_status hovr op

/-- Settles O48: the engine's step ends the accepted command, and acceptance does not read the host's list. -/
theorem completionLaterIsTheSameCommand : Obligations.CompletionLaterIsTheSameCommand := by
  intro s b i l hb hq h hbusy hl
  rcases exec_next hb h with ⟨-, rfl⟩ | ⟨-, rfl⟩ | ⟨op, ho, ⟨-, rfl⟩ | ⟨hq', -⟩⟩
  · rw [hb] at hbusy
    cases hbusy
  · rw [State.clearRecord_busy, hb] at hbusy
    cases hbusy
  · calc step ((s.accept op).withInputs l) = ((s.withInputs l).accept op).finish := step_of_busy_quiet rfl hl
      _ = exec i (s.withInputs l) := (exec_of_quiet ho (s := s.withInputs l) hb hl).symm
  · rw [hq] at hq'
    cases hq'

end Sys2Proof.Machine
end

section
/-! PROOFS. HDIST's reads (43_comparator.md R180, R184, R185, 20_memory.md R81): with none that stops it HDIST writes
the distance, and the first that does decides how it ends. -/

namespace Sys2Proof.Machine

open Sys2Proof.Claims

/-- What the host may still read after an HDIST (70_reset_and_hazards.md R267). -/
theorem accept_hdist_remembered (s : State) : (s.accept .hdist).remembered [] = unseenAfter s 0 := rfl

theorem checkDistArgs_of_legal {o : DistArgs} (ha : o.a ≠ 0) (hb : o.b ≠ 0) (hl : o.aLen = o.bLen) :
    checkDistArgs o = none := by
  rw [checkDistArgs, if_neg (not_or.mpr ⟨ha, hb⟩), if_neg (not_not.mpr hl)]

/-- Position `i` of both operands is read by the platform. -/
def PositionRead (c : Config) (o : DistArgs) (i : Nat) : Prop :=
  busAnswer c .read (leftAddr o i) = .ok ∧ busAnswer c .read (rightAddr o i) = .ok

/-- The reads of positions that are all performed stop nothing. -/
theorem findSome?_positions_eq_none {c : Config} {o : DistArgs} {n : Nat} (h : ∀ k, k < n → PositionRead c o k) :
    ((List.range n).flatMap fun k => [leftAddr o k, rightAddr o k]).findSome? (accessStop c .read) = none := by
  rw [List.findSome?_eq_none_iff]
  intro a ha
  obtain ⟨k, hk, ha⟩ := List.mem_flatMap.mp ha
  obtain ⟨hl, hr⟩ := h k (List.mem_range.mp hk)
  rcases List.mem_pair.mp ha with rfl | rfl
  · exact accessStop_of_ok hl
  · exact accessStop_of_ok hr

/-- The first read that stops, at position `i`, is what stops HDIST: left byte `i`, or with it performed right byte `i`
(20_memory.md R81). -/
theorem distStop_of_first {c : Config} {o : DistArgs} (hc : checkDistArgs o = none) {i : Nat} (hi : i < o.aLen)
    (hbefore : ∀ k, k < i → PositionRead c o k) {st : Stop}
    (h : accessStop c .read (leftAddr o i) = some st ∨
      (busAnswer c .read (leftAddr o i) = .ok ∧ accessStop c .read (rightAddr o i) = some st)) :
    distStop c o = some st := by
  obtain ⟨post, hpost⟩ := range_split hi
  rw [distStop, hc, distAddrs, hpost]
  simp only [List.flatMap_append, List.flatMap_cons, List.findSome?_append, findSome?_positions_eq_none hbefore,
    Option.none_or]
  rcases h with h | ⟨hok, h⟩
  · simp [h]
  · simp [accessStop_of_ok hok, h]

/-- With legal arguments and every read performed nothing stops HDIST. -/
theorem distStop_eq_none {c : Config} {o : DistArgs} (hc : checkDistArgs o = none)
    (h : ∀ k, k < o.aLen → PositionRead c o k) : distStop c o = none := by
  rw [distStop, hc]
  exact findSome?_positions_eq_none h

theorem exec_hdist_of_none {s : State} (hb : s.busy = false) (hq : s.quiet = true)
    (hs : distStop s.cfg s.distArgs = none) :
    exec .hdist s = .next { s with
      dist := BitVec.ofNat 32 (memDistance s)
      done := true, errCode := .none, errDetail := 0, errAddr := 0, unseen := unseenAfter s 0 } := by
  rw [exec_of_quiet rfl hb hq, finish_accept_hdist, State.finishDistance, State.accept_cfg, State.accept_distArgs, hs,
    accept_distance]
  exact congrArg Host.Outcome.next (completeDistance_accept hb _)

/-- An access the platform never answers faults HDIST. -/
theorem exec_hdist_of_silent {s : State} (hb : s.busy = false) (hq : s.quiet = true) {a : Word}
    (hs : distStop s.cfg s.distArgs = some (.silent a)) : exec .hdist s = .fault (.portSilent a) := by
  rw [exec_of_quiet rfl hb hq, finish_accept_hdist, State.finishDistance, State.accept_cfg, State.accept_distArgs, hs]
  rfl

theorem checkDistArgs_distArgs_of_legal {s : State} (ha : s.aBase ≠ 0) (hb : s.bBase ≠ 0) (hl : s.aLen = s.bLen) :
    checkDistArgs s.distArgs = none := checkDistArgs_of_legal ha hb (congrArg BitVec.toNat hl)

/-- Settles O20: nothing stops it; and however HDIST ends, its last step keeps the same values readable. -/
theorem hdistWritesTheDistance : Obligations.HdistWritesTheDistance := by
  intro s hb hq
  refine ⟨fun ha hb' hl hreads => ?_, fun t h => ?_⟩
  · exact exec_hdist_of_none hb hq (distStop_eq_none (checkDistArgs_distArgs_of_legal ha hb' hl) hreads)
  · rw [exec_of_quiet rfl hb hq, finish_accept_hdist] at h
    obtain ⟨-, rfl⟩ | ⟨e, -, rfl⟩ := finishDistance_next h <;> exact accept_hdist_remembered s

/-- Settles O22: the first failing read is the stop, and its error is recorded. -/
theorem hdistReportsTheFirstFailingRead : Obligations.HdistReportsTheFirstFailingRead := by
  intro s i hb hq ha hb' hl hi hbefore
  have hc := checkDistArgs_distArgs_of_legal ha hb' hl
  refine ⟨fun herr => ?_, fun hok herr => ?_⟩
  · exact exec_hdist_of_error hb hq (distStop_of_first hc hi hbefore (.inl (accessStop_of_error herr)))
  · exact exec_hdist_of_error hb hq (distStop_of_first hc hi hbefore (.inr ⟨hok, accessStop_of_error herr⟩))

end Sys2Proof.Machine
end

section
/-! PROOFS. The hash commands with legal operands (44_hash_commands.md R200, R205, 42_bitpacker.md R173,
60_exceptions.md R234, R239): the first access that is not performed decides how the command ends, and the writes
before it are made. -/

namespace Sys2Proof.Machine

open Sys2Proof.Claims

/-! ## The reads -/

theorem checkHashArgs_of_failingDetail_none {op : HashOp} {s : State} (h : failingDetail op s = none) :
    checkHashArgs s.cfg op s.hashArgs = none := by
  rw [checkHashArgs_eq_failingDetail, h, Option.map_none]

/-- The pixels a path reads before (x, y) (20_memory.md R80). -/
theorem pixelsOf_split {path : AggPath} {w h bits x y : Nat} (hp : (x, y) ∈ pixelsOf path w h bits) :
    ∃ pre post, pixelsOf path w h bits = pre ++ (x, y) :: post ∧
      ∀ p ∈ pre, p ∈ pixelsOf path w h bits ∧ (p.2 < y ∨ (p.2 = y ∧ p.1 < x)) := by
  have hraster {w h : Nat} (hp : (x, y) ∈ raster w h) : ∃ pre post, raster w h = pre ++ (x, y) :: post ∧
      ∀ p ∈ pre, p ∈ raster w h ∧ (p.2 < y ∨ (p.2 = y ∧ p.1 < x)) := by
    obtain ⟨hx, hy⟩ := mem_raster.mp hp
    obtain ⟨pre, post, hsplit, hpre⟩ := raster_split hx hy
    refine ⟨pre, post, hsplit, fun p hp => ?_⟩
    obtain ⟨h1, h2, hlt⟩ := hpre p hp
    exact ⟨mem_raster.mpr ⟨h1, h2⟩, hlt⟩
  cases path <;> exact hraster hp

/-- The first channel read that stops is what stops at a pixel. -/
theorem findSome?_channels_of_first {f : Nat → Option Stop} {ch : Nat} (hch : ch < 4) {st : Stop}
    (hbefore : ∀ k, k < ch → f k = none) (h : f ch = some st) : (List.range 4).findSome? f = some st := by
  obtain ⟨post, hsplit⟩ := range_split hch
  exact List.findSome?_eq_some_iff.mpr ⟨_, ch, post, hsplit, h, fun k hk => hbefore k (List.mem_range.mp hk)⟩

/-- The reads of the command that come before channel `ch` of pixel (x, y): rows, then columns, then channels. -/
def ReadsBefore (op : HashOp) (s : State) (x y ch : Nat) : Prop :=
  ∀ x' y' ch', covered op s x' y' → ch' < 4 → (y' < y ∨ (y' = y ∧ (x' < x ∨ (x' = x ∧ ch' < ch)))) →
    busAnswer s.cfg .read (pixAddr s.hashArgs x' y' ch') = .ok

/-- The first pixel read that stops, in the order of 20_memory.md R80, is what stops the command before its writes. -/
theorem hashReadStop_of_first {op : HashOp} {s : State} {x y ch : Nat} {st : Stop}
    (hc : checkHashArgs s.cfg op s.hashArgs = none) (hcov : covered op s x y) (hch : ch < 4)
    (hbefore : ReadsBefore op s x y ch) (h : accessStop s.cfg .read (pixAddr s.hashArgs x y ch) = some st) :
    hashReadStop s.cfg op s.hashArgs = some st := by
  have hp := covered_iff_mem_pixelsOf.mp hcov
  obtain ⟨pre, post, hsplit, hpre⟩ := pixelsOf_split hp
  rw [hashReadStop, hc]
  refine List.findSome?_eq_some_iff.mpr ⟨pre, (x, y), post, hsplit, ?_, fun p hpp => ?_⟩
  · refine (pixelStop_eq hc hp s.cfg).trans (findSome?_channels_of_first hch (fun k hk => ?_) h)
    exact accessStop_of_ok (hbefore x y k hcov (hk.trans hch) (.inr ⟨rfl, .inr ⟨rfl, hk⟩⟩))
  · obtain ⟨hpm, hlt⟩ := hpre p hpp
    refine (pixelStop_eq hc hpm s.cfg).trans (List.findSome?_eq_none_iff.mpr fun k hk => ?_)
    exact accessStop_of_ok (hbefore p.1 p.2 k (covered_iff_mem_pixelsOf.mpr hpm) (List.mem_range.mp hk)
      (hlt.imp_right fun ⟨h1, h2⟩ => ⟨h1, .inl h2⟩))

/-- Settles O29: the first failing read is the stop, and a command that stops before its writes makes none. -/
theorem hashReportsTheFirstFailingRead : Obligations.HashReportsTheFirstFailingRead := by
  intro op s x y ch hb hq hd hcov hch hbefore herr
  exact exec_hash_of_readStop hb hq (hashReadStop_of_first (checkHashArgs_of_failingDetail_none hd) hcov hch hbefore
    (accessStop_of_error herr))

theorem hashReadStop_of_readsAnswered {op : HashOp} {s : State} (hd : failingDetail op s = none)
    (hr : readsAnswered op s) : hashReadStop s.cfg op s.hashArgs = none :=
  hashReadStop_eq_none (checkHashArgs_of_failingDetail_none hd) fun x y ch hp hch =>
    hr x y ch (covered_iff_mem_pixelsOf.mpr hp) hch

/-! ## The writes -/

theorem memFingerprint_length {op : HashOp} {s : State} (hd : failingDetail op s = none) :
    (memFingerprint op s).length = fpLength s :=
  fingerprintOf_length (legal_bits (checkHashArgs_of_failingDetail_none hd)).1 ..

/-- With its reads performed, the command sets out to write the fingerprint of the image in memory. -/
theorem accept_plannedWrites {op : HashOp} {s : State} (hr : hashReadStop s.cfg op s.hashArgs = none) :
    (s.accept (.hash op)).plannedWrites op = addressed s.hashArgs (memFingerprint op s) := by
  rw [plannedWrites_of_reads (s := s.accept (.hash op)) hr, accept_fingerprint, State.accept_hashArgs]

/-- The writes before write `j`, write `j`, and the rest. -/
theorem addressed_split (o : HashArgs) {fp : List Byte} {j : Nat} (hj : j < fp.length) :
    ∃ v post, addressed o fp = addressed o (fp.take j) ++ (fingerprintAddr o j, v) :: post := by
  have hlen : j < (addressed o fp).length := by simpa [addressed] using hj
  have hat : (addressed o fp)[j] = (fingerprintAddr o j, fp[j]) := by simp [addressed]
  refine ⟨fp[j], (addressed o fp).drop (j + 1), ?_⟩
  rw [← addressed_take, ← hat, ← List.drop_eq_getElem_cons hlen, List.take_append_drop]

/-- The writes before write `j` go to the first `j` places. -/
theorem exists_lt_of_mem_addressed_take {o : HashArgs} {fp : List Byte} {j : Nat} {p : Word × Byte}
    (hp : p ∈ addressed o (fp.take j)) : ∃ k, k < j ∧ p.1 = fingerprintAddr o k := by
  obtain ⟨k, hk, ha⟩ := mem_addressed.mp hp
  have hlt := (List.getElem?_eq_some_iff.mp hk).1
  rw [List.length_take] at hlt
  exact ⟨k, by omega, ha⟩

section
variable {op : HashOp} {s : State} {j : Nat} (hr : hashReadStop s.cfg op s.hashArgs = none)
  (hj : j < (memFingerprint op s).length)
  (hbefore : ∀ k, k < j → busAnswer s.cfg .write (fingerprintAddr s.hashArgs k) = .ok)
include hr hj hbefore

/-- The first write that stops is what stops the command. -/
theorem hashStop_of_first_write {st : Stop} (h : accessStop s.cfg .write (fingerprintAddr s.hashArgs j) = some st) :
    (s.accept (.hash op)).hashStop op = some st := by
  obtain ⟨v, post, hsplit⟩ := addressed_split s.hashArgs hj
  have hr' : hashReadStop (s.accept (.hash op)).cfg op (s.accept (.hash op)).hashArgs = none := hr
  rw [State.hashStop, hr', accept_plannedWrites hr, hsplit]
  refine List.findSome?_eq_some_iff.mpr ⟨_, _, post, rfl, h, fun p hp => ?_⟩
  obtain ⟨k, hk, ha⟩ := exists_lt_of_mem_addressed_take hp
  exact ha ▸ accessStop_of_ok (hbefore k hk)

/-- The writes before the first that stops are performed, and no other. -/
theorem performedWrites_of_first_write (h : busAnswer s.cfg .write (fingerprintAddr s.hashArgs j) ≠ .ok) :
    (s.accept (.hash op)).performedWrites op = addressed s.hashArgs ((memFingerprint op s).take j) := by
  obtain ⟨v, post, hsplit⟩ := addressed_split s.hashArgs hj
  have hok : ∀ p ∈ addressed s.hashArgs ((memFingerprint op s).take j), writeOk s.cfg p = true := by
    intro p hp
    obtain ⟨k, hk, ha⟩ := exists_lt_of_mem_addressed_take hp
    simp [writeOk, ha, hbefore k hk]
  have hstop : ¬ writeOk s.cfg (fingerprintAddr s.hashArgs j, v) = true := by simpa [writeOk] using h
  rw [State.performedWrites, accept_plannedWrites hr, hsplit, State.accept_cfg, List.takeWhile_append_of_pos hok,
    List.takeWhile_cons_of_neg hstop, List.append_nil]

end

/-- With every write performed as well, nothing stops the command. -/
theorem hashStop_eq_none {op : HashOp} {s : State} (hr : hashReadStop s.cfg op s.hashArgs = none)
    (hlen : (memFingerprint op s).length = fpLength s) (hw : writesAnswered s) :
    (s.accept (.hash op)).hashStop op = none := by
  have hr' : hashReadStop (s.accept (.hash op)).cfg op (s.accept (.hash op)).hashArgs = none := hr
  rw [State.hashStop, hr', accept_plannedWrites hr]
  refine List.findSome?_eq_none_iff.mpr fun p hp => ?_
  obtain ⟨k, hk, ha⟩ := mem_addressed.mp hp
  have hlt := (List.getElem?_eq_some_iff.mp hk).1
  exact ha ▸ accessStop_of_ok (hw k (hlen ▸ hlt))

/-! ## How the command ends -/

/-- What the host may still read after a hash command that made the writes of `fp` (70_reset_and_hazards.md R267). -/
theorem accept_hash_remembered (s : State) (op : HashOp) (fp : List Byte) :
    (s.accept (.hash op)).remembered (addressed s.hashArgs fp) = unseenAfter s fp.length := by
  rw [accept_remembered, addressed_replaced]
  rfl

/-- A hash command that nothing stops and that performs the writes of `fp`. -/
theorem exec_hash_of_none {op : HashOp} {s : State} {fp : List Byte} (hb : s.busy = false) (hq : s.quiet = true)
    (hs : (s.accept (.hash op)).hashStop op = none)
    (hperf : (s.accept (.hash op)).performedWrites op = addressed s.hashArgs fp) :
    exec (hashInstr op) s = .next { s with
      mem := ((s.accept (.hash op)).commitWrites (addressed s.hashArgs fp)).mem
      infoValid := true, infoPath := s.hashPath op == .weighted
      done := true, errCode := .none, errDetail := 0, errAddr := 0, unseen := unseenAfter s fp.length } := by
  rw [exec_of_quiet (runOpOf_hashInstr op) hb hq, finish_accept_hash, State.finishHash, hs, hperf,
    ← accept_hash_remembered s op fp]
  exact congrArg Host.Outcome.next (completeHash_accept op _ _ hb)

/-- A hash command that an error stops once it has performed the writes of `fp`. -/
theorem exec_hash_of_error {op : HashOp} {s : State} {fp : List Byte} {e : CmdError} (hb : s.busy = false)
    (hq : s.quiet = true) (hs : (s.accept (.hash op)).hashStop op = some (.error e))
    (hperf : (s.accept (.hash op)).performedWrites op = addressed s.hashArgs fp) :
    exec (hashInstr op) s = .next { s with
      mem := ((s.accept (.hash op)).commitWrites (addressed s.hashArgs fp)).mem
      errCode := e.code, errDetail := e.detail, errAddr := e.addr
      infoValid := false, infoPath := false, done := true, unseen := unseenAfter s fp.length } := by
  rw [exec_of_quiet (runOpOf_hashInstr op) hb hq, finish_accept_hash, State.finishHash, hs, hperf,
    ← accept_hash_remembered s op fp]
  exact congrArg Host.Outcome.next (raise_accept_hash op _ e hb)

/-- An access the platform never answers faults the command. -/
theorem exec_hash_of_silent {op : HashOp} {s : State} {a : Word} (hb : s.busy = false) (hq : s.quiet = true)
    (hs : (s.accept (.hash op)).hashStop op = some (.silent a)) :
    exec (hashInstr op) s = .fault (.portSilent a) := by
  rw [exec_of_quiet (runOpOf_hashInstr op) hb hq, finish_accept_hash, State.finishHash, hs]
  rfl

/-- The bytes of a command that performs the writes of `fp`: each at its place, and every other as it was. -/
theorem exec_hash_read_of_performed {op : HashOp} {s t : State} {fp : List Byte} (hb : s.busy = false)
    (hq : s.quiet = true) (hm : s.mem.wf = true) (h : exec (hashInstr op) s = .next t)
    (hperf : (s.accept (.hash op)).performedWrites op = addressed s.hashArgs fp) :
    (∀ k v, fp[k]? = some v → t.mem.read (fpKey s k) = v) ∧
    ∀ b, (∀ k, k < fp.length → fpKey s k ≠ b) → t.mem.read b = s.mem.read b := by
  refine ⟨fun k v hv => ?_, fun b hout => ?_⟩
  · have hp : (fingerprintAddr s.hashArgs k, v) ∈ (s.accept (.hash op)).performedWrites op :=
      hperf ▸ mem_addressed.mpr ⟨k, hv, rfl⟩
    exact exec_hash_read_of_write hb hq hm h hp
  · refine exec_hash_read_other hb hq h fun p hp => ?_
    obtain ⟨k, hk, ha⟩ := mem_addressed.mp (hperf ▸ hp)
    exact ha ▸ hout k (List.getElem?_eq_some_iff.mp hk).1

/-- Settles O27: nothing stops the command, so it performs the writes of the whole fingerprint. -/
theorem hashCommandsWriteTheFingerprint : Obligations.HashCommandsWriteTheFingerprint := by
  intro op s hb hq hm hd hreads hwrites
  have hr := hashReadStop_of_readsAnswered hd hreads
  have hlen := memFingerprint_length hd
  have hs := hashStop_eq_none hr hlen hwrites
  have hperf : (s.accept (.hash op)).performedWrites op = addressed s.hashArgs (memFingerprint op s) := by
    rw [(performedWrites_of_no_stop hs).2, accept_fingerprint, State.accept_hashArgs]
  have hexec := exec_hash_of_none hb hq hs hperf
  obtain ⟨hbytes, hother⟩ := exec_hash_read_of_performed hb hq hm hexec hperf
  exact ⟨_, hlen ▸ hexec, storeAll_wf _ 0 _ hm, hlen, hbytes, hlen ▸ hother⟩

/-- Settles O30: write j is the stop, and the writes before it are the first j bytes of the fingerprint. -/
theorem writeErrorKeepsTheEarlierBytes : Obligations.WriteErrorKeepsTheEarlierBytes := by
  intro op s j hb hq hm hd hreads hj hbefore herr
  have hr := hashReadStop_of_readsAnswered hd hreads
  have hj' : j < (memFingerprint op s).length := memFingerprint_length hd ▸ hj
  have hs := hashStop_of_first_write hr hj' hbefore (accessStop_of_error herr)
  have hperf := performedWrites_of_first_write hr hj' hbefore (by rw [herr]; nofun)
  have hexec := exec_hash_of_error hb hq hs hperf
  have htake : ((memFingerprint op s).take j).length = j := List.length_take_of_le hj'.le
  obtain ⟨hbytes, hother⟩ := exec_hash_read_of_performed hb hq hm hexec hperf
  rw [htake] at hexec hother
  exact ⟨_, hexec, fun k v hk hv => hbytes k v (by rw [List.getElem?_take_of_lt hk, hv]), hother⟩

/-! ## The frame -/

/-- A hash command that ends with an error other than a BUS_ERROR on a write has made no write. -/
theorem performedWrites_of_error {op : HashOp} {s : State} {e : CmdError} (hs : s.hashStop op = some (.error e))
    (he : ¬ (e.code = .busError ∧ e.detail = 2)) : s.performedWrites op = [] := by
  cases hr : hashReadStop s.cfg op s.hashArgs with
  | some st => exact performedWrites_of_readStop hr
  | none =>
    rw [State.hashStop, hr] at hs
    obtain ⟨p, -, hp⟩ := List.exists_of_findSome?_eq_some hs
    rcases accessStop_cases hp with ⟨-, hst⟩ | ⟨-, hst⟩
    · cases hst
      exact absurd ⟨rfl, rfl⟩ he
    · cases hst

/-- Settles O31: the command performs the first n writes of its fingerprint, whatever stops it then. -/
theorem hashCommandFrame : Obligations.HashCommandFrame := by
  intro op s t hb hq hm h
  obtain ⟨hmem, hunseen, hends⟩ := exec_hash_next (runOpOf_hashInstr op) hb hq h
  obtain ⟨n, hn, hnlen, hperf⟩ := performedWrites_eq_take (s.accept (.hash op)) op
  have htake : (((s.accept (.hash op)).fingerprint op).take n).length = n := List.length_take_of_le hnlen
  refine ⟨?_, hmem ▸ storeAll_wf _ 0 _ hm, ⟨n, hn, ?_⟩, fun b hout => ?_, fun hne hnw => ?_⟩
  · rcases hends with ⟨-, ht⟩ | ⟨e, -, -, ht⟩ <;> rw [ht]
  · rw [hunseen, hperf, State.accept_hashArgs, accept_hash_remembered, htake]
  · exact (exec_hash_read_of_performed hb hq hm h hperf).2 b fun k hk => hout k ((htake ▸ hk).trans_le hn)
  · rcases hends with ⟨-, ht⟩ | ⟨e, hs, -, ht⟩ <;> rw [ht] at hne hnw
    · exact absurd rfl hne
    · rw [hmem, performedWrites_of_error hs hnw]
      rfl

/-! ## Transparent images -/

theorem memPixel_of_transparent {s : State} {x y : Nat} (h : byteAt s (pixAddr s.hashArgs x y 3) = 0) :
    memPixel s x y = 765 := if_pos h

theorem memPixel_of_white {s : State} {x y : Nat} (h : ∀ ch, ch < 4 → byteAt s (pixAddr s.hashArgs x y ch) = 255) :
    memPixel s x y = 765 := by
  rw [memPixel, h 0 (by decide), h 1 (by decide), h 2 (by decide), h 3 (by decide)]
  rfl

/-- The fingerprint depends on the intensities of the covered pixels. -/
theorem memFingerprint_of_intensities {op : HashOp} {s₁ s₂ : State} (hargs : s₁.hashArgs = s₂.hashArgs)
    (hcfg : s₁.cfg = s₂.cfg) (hpix : ∀ x y, covered op s₁ x y → memPixel s₁ x y = memPixel s₂ x y) :
    memFingerprint op s₁ = memFingerprint op s₂ := by
  have hw : s₁.width.toNat = s₂.width.toNat := congrArg HashArgs.w hargs
  have hh : s₁.height.toNat = s₂.height.toNat := congrArg HashArgs.h hargs
  have hbits : s₁.bits.toNat = s₂.bits.toNat := congrArg HashArgs.bits hargs
  have hpath : s₁.hashPath op = s₂.hashPath op := by simp only [State.hashPath, hw, hh, hbits]
  rw [memFingerprint, memFingerprint, ← hcfg, ← hpath, ← hw, ← hh, ← hbits]
  exact fingerprintOf_congr fun x y hp => hpix x y (covered_iff_mem_pixelsOf.mpr hp)

section
variable {op : HashOp} {s₁ s₂ : State} (hargs : s₁.hashArgs = s₂.hashArgs) (hcfg : s₁.cfg = s₂.cfg)
  (hfp : memFingerprint op s₁ = memFingerprint op s₂)
include hargs hcfg hfp

/-- Two commands with one fingerprint set out to make the same writes. -/
theorem plannedWrites_of_memFingerprint :
    (s₁.accept (.hash op)).plannedWrites op = (s₂.accept (.hash op)).plannedWrites op := by
  simp only [State.plannedWrites, State.accept_cfg, State.accept_hashArgs, accept_fingerprint, hfp, hargs, hcfg]

theorem hashStop_of_memFingerprint :
    (s₁.accept (.hash op)).hashStop op = (s₂.accept (.hash op)).hashStop op := by
  simp only [State.hashStop, State.accept_cfg, State.accept_hashArgs, hargs, hcfg,
    plannedWrites_of_memFingerprint hargs hcfg hfp]

theorem performedWrites_of_memFingerprint :
    (s₁.accept (.hash op)).performedWrites op = (s₂.accept (.hash op)).performedWrites op := by
  simp only [State.performedWrites, State.accept_cfg, hcfg, plannedWrites_of_memFingerprint hargs hcfg hfp]

/-- If one of two such commands ends without error the other does, on the same path and with the same bytes. -/
theorem exec_hash_of_memFingerprint {t₁ t₂ : State} (hb₁ : s₁.busy = false) (hb₂ : s₂.busy = false)
    (hq₁ : s₁.quiet = true) (hq₂ : s₂.quiet = true) (hm₁ : s₁.mem.wf = true) (hm₂ : s₂.mem.wf = true)
    (h₁ : exec (hashInstr op) s₁ = .next t₁) (h₂ : exec (hashInstr op) s₂ = .next t₂) (hnone : t₁.errCode = .none) :
    t₂.errCode = .none ∧ t₁.infoPath = t₂.infoPath ∧
      ∀ j, j < fpLength s₁ → t₁.mem.read (fpKey s₁ j) = t₂.mem.read (fpKey s₁ j) := by
  have hpath : s₁.hashPath op = s₂.hashPath op := congrArg (fun o : HashArgs => pathOf op o.w o.h o.bits) hargs
  have hstop := hashStop_of_memFingerprint hargs hcfg hfp
  have hperf := performedWrites_of_memFingerprint hargs hcfg hfp
  obtain ⟨-, -, ⟨hs₁, ht₁⟩ | ⟨e₁, -, hne, ht₁⟩⟩ := exec_hash_next (runOpOf_hashInstr op) hb₁ hq₁ h₁
  · obtain ⟨-, -, ⟨-, ht₂⟩ | ⟨e₂, hs₂, -, -⟩⟩ := exec_hash_next (runOpOf_hashInstr op) hb₂ hq₂ h₂
    · refine ⟨by rw [ht₂], by rw [ht₁, ht₂, hpath], fun j hj => ?_⟩
      obtain ⟨p, hp, hpj⟩ := exists_write_at_fingerprintAddr hs₁ hj
      rw [← hpj, exec_hash_read_of_write hb₁ hq₁ hm₁ h₁ hp]
      exact (exec_hash_read_of_write hb₂ hq₂ hm₂ h₂ (hperf ▸ hp)).symm
    · rw [hs₁, hs₂] at hstop
      cases hstop
  · rw [ht₁] at hnone
    exact absurd hnone hne

end

/-- The pixels a command covers lie in the image. -/
theorem lt_of_covered {op : HashOp} {s : State} {x y : Nat} (h : covered op s x y) :
    x < s.width.toNat ∧ y < s.height.toNat := mem_pixelsOf (covered_iff_mem_pixelsOf.mp h)

/-- Settles O34: both images have intensity 765 everywhere, so one fingerprint, and the commands end alike. -/
theorem transparentHashesAsWhite : Obligations.TransparentHashesAsWhite := by
  intro op s m t₁ t₂ hb hq hm₁ hm₂ halpha hwhite h₁ h₂ hnone
  have hpix (x y : Nat) (hc : covered op s x y) : memPixel s x y = memPixel { s with mem := m } x y := by
    obtain ⟨hx, hy⟩ := lt_of_covered hc
    have hw : memPixel { s with mem := m } x y = 765 := memPixel_of_white fun ch hch => hwhite x y ch hx hy hch
    exact (memPixel_of_transparent (halpha x y hx hy)).trans hw.symm
  exact exec_hash_of_memFingerprint (s₁ := s) (s₂ := { s with mem := m }) rfl rfl
    (memFingerprint_of_intensities rfl rfl hpix)
    hb hb hq hq hm₁ hm₂ h₁ h₂ hnone

end Sys2Proof.Machine
end

section
/-! PROOFS. Where the machine stops and where it goes on (30_encoding.md R101, 70_reset_and_hazards.md R271,
93_implementation_defined.md row 24): a busy engine on a platform that answers completes, and only an unanswered access
or a register access that is not an aligned 32-bit one stops a step. -/

namespace Sys2Proof.Machine

open Sys2Proof.Claims

/-! ## A busy engine completes -/

theorem finish_next_of_neverSilent {s : State} (hn : neverSilent s) : ∃ t, s.finish = .next t := by
  obtain ⟨hrefused, hfault⟩ := finish_stops (s := s)
  cases h : s.finish with
  | next t => exact ⟨t, rfl⟩
  | fault f =>
    obtain ⟨k, a, -, hsilent⟩ := hfault f h
    exact absurd hsilent (busAnswer_ne_silent hn k a)
  | refused r => exact absurd h (hrefused r)

theorem finish_next_inputs {s t : State} (hb : s.busy = true) (h : s.finish = .next t) : t.inputs = s.inputs := by
  rcases finish_next hb h with ⟨op, r, -, -, rfl⟩ | ⟨op, r, e, -, -, rfl⟩ | ⟨r, -, -, rfl⟩ | ⟨r, e, -, -, rfl⟩ <;> rfl

/-- The distance a running HDIST computes is that of the bytes it reads. -/
theorem distance_eq_readDistance (s : State) : s.distance = readDistance s := by
  simp [State.distance, State.leftBytes, State.rightBytes, hammingDistance, readDistance, List.zipWith_map,
    List.zipWith_self, byteDistance_eq_nibbleDiff]

/-- The end of an HDIST leaves memory, and without error writes the distance. -/
theorem finishDistance_next_mem_dist {s t : State} (h : s.finishDistance = .next t) :
    t.mem = s.mem ∧ (t.errCode = .none → t.dist = BitVec.ofNat 32 (readDistance s)) := by
  obtain ⟨-, rfl⟩ | ⟨e, he, rfl⟩ := finishDistance_next h
  · exact ⟨rfl, fun _ => congrArg (BitVec.ofNat 32) (distance_eq_readDistance s)⟩
  · exact ⟨rfl, fun hnone => absurd hnone (distStop_error_code_ne_none he)⟩

theorem exists_replaced_of_raced {s : State} {a : Word} (h : s.raced a = true) :
    ∃ old, (a.toNat, old) ∈ s.replaced := by
  obtain ⟨⟨b, old⟩, hmem, hb⟩ := List.any_eq_true.mp h
  obtain rfl : b = a.toNat := by simpa using hb
  exact ⟨old, hmem⟩

/-- After a hash command without error a byte of its buffer is the fingerprint's, or, where a host store raced with it,
the byte in memory (20_memory.md R86). -/
theorem finishHash_next_bytes {s t : State} {op : HashOp} (h : s.finishHash op = .next t) (hm : s.mem.wf = true)
    (hnone : t.errCode = .none) :
    (s.fingerprint op).length = fpLength s ∧
    ∀ j v, (s.fingerprint op)[j]? = some v →
      t.mem.read (fpKey s j) = v ∨
        ((∃ old, (fpKey s j, old) ∈ s.replaced) ∧ t.mem.read (fpKey s j) = s.mem.read (fpKey s j)) := by
  obtain ⟨hs, rfl⟩ | ⟨e, he, rfl⟩ := finishHash_next h
  · obtain ⟨hl, hperf⟩ := performedWrites_of_no_stop hs
    refine ⟨fingerprintOf_length (legal_bits hl).1 .., fun j v hv => ?_⟩
    have hp : (fingerprintAddr s.hashArgs j, v) ∈ s.performedWrites op := hperf ▸ mem_addressed.mpr ⟨j, hv, rfl⟩
    exact (commitWrites_read hm hp).imp_right fun ⟨hraced, hread⟩ => ⟨exists_replaced_of_raced hraced, hread⟩
  · exact absurd hnone (hashStop_error_code_ne_none he)

/-- Settles O49: the engine's move answers, and then it is the end of that command. -/
theorem busyEngineCompletes : Obligations.BusyEngineCompletes := by
  intro s hb hq hn
  obtain ⟨t, hf⟩ := finish_next_of_neverSilent hn
  refine ⟨t, (step_of_busy_quiet hb hq).trans hf, finish_next_busy hb hf, (finish_next_done_irqEn hb hf).1,
    finish_next_inputs hb hf, fun hrun hnone => ?_, fun r hp => ?_, fun op r hp hm hnone => ?_⟩
  · obtain ⟨hrun', -⟩ | ⟨-, -, hvalid⟩ := finish_next_info hb hf
    · rw [hrun] at hrun'
      cases hrun'
    · exact hvalid hnone
  · rw [State.finish, hp] at hf
    exact finishDistance_next_mem_dist hf
  · rw [State.finish, hp] at hf
    exact finishHash_next_bytes hf hm hnone

/-! ## Where a step stops -/

theorem mem_runningInstrs_of_runOpOf {i : Instr} {op : RunOp} (h : runOpOf i = some op) :
    i ∈ [Instr.hash, .hashq, .hashw, .hdist] := by
  cases i <;> simp [runOpOf] at h ⊢

/-- A step faults on an unanswered access of a running or a submitted command. -/
theorem step_fault {s : State} {f : Fault} (h : step s = .fault f) :
    (∃ k a, f = .portSilent a ∧ busAnswer s.cfg k a = .silent) ∧
      ((s.busy = true ∧ hostMove s = none) ∨
        (s.busy = false ∧ ∃ i ∈ [Instr.hash, .hashq, .hashw, .hdist], submits s i)) := by
  rcases step_cases s with ⟨hb, hq, he⟩ | ⟨-, -, he⟩ | ⟨p, rest, hi, hm, he⟩ <;> rw [he] at h
  · exact ⟨finish_stops.2 f h, .inl ⟨hb, hostMove_of_busy_quiet hb hq⟩⟩
  · cases h
  · obtain ⟨hb, ⟨w, i, hop, hd, op, ho⟩, hf⟩ := hostTurn_fault h
    have hh := headOp_of_cons hi
    exact ⟨hf, .inr ⟨hb, i, mem_runningInstrs_of_runOpOf ho, w, hop ▸ hh, hd⟩⟩

theorem not_aligned_of_alignedAccess {off : BitVec 8} {size : Nat} (h : ¬ alignedAccess off size = true) :
    size ≠ 4 ∨ off.toNat % 4 ≠ 0 := by
  simpa [alignedAccess, -not_and, not_and_or] using h

/-- A submitted word is refused by no command. -/
theorem submitWord_ne_refused (w : Word) (s : State) (r : Refusal) : submitWord w s ≠ .refused r := by
  unfold submitWord
  split
  · nofun
  · split
    · exact (exec_stops _).1 r
    · nofun

/-- The host's operation is refused only as a register access that is not an aligned 32-bit one. -/
theorem hostTurn_refused {op : HostOp} {s : State} {r : Refusal} (h : hostTurn op s = .refused r) :
    ∃ off size, r = .registerAccess off size ∧ (size ≠ 4 ∨ off.toNat % 4 ≠ 0) ∧
      ((∃ v, op = .regWrite off size v) ∨ op = .regRead off size) := by
  cases op with
  | regWrite off size v =>
    simp only [hostTurn] at h
    split_ifs at h with ha
    · unfold hostWrite at h
      split at h
      · exact absurd h (submitWord_ne_refused v s r)
      · cases h
      · cases h
    · cases h
      exact ⟨off, size, rfl, not_aligned_of_alignedAccess ha, .inl ⟨v, rfl⟩⟩
  | regRead off size =>
    simp only [hostTurn] at h
    split_ifs at h with ha
    cases h
    exact ⟨off, size, rfl, not_aligned_of_alignedAccess ha, .inr rfl⟩
  | memStore a v => cases h
  | memLoad a => cases h
  | seeIrq => cases h
  | reset => cases h

theorem step_refused {s : State} {r : Refusal} (h : step s = .refused r) :
    ∃ off size, r = .registerAccess off size ∧ (size ≠ 4 ∨ off.toNat % 4 ≠ 0) ∧
      ((∃ v, hostMove s = some (.regWrite off size v)) ∨ hostMove s = some (.regRead off size)) := by
  rcases step_cases s with ⟨-, -, he⟩ | ⟨-, -, he⟩ | ⟨p, rest, hi, hm, he⟩ <;> rw [he] at h
  · exact absurd h (finish_stops.1 r)
  · cases h
  · simp only [hostMove_of_cons hi hm, Option.some.injEq]
    exact hostTurn_refused h

/-- Settles O58: the faults and refusals by the kind of step; and a command whose first access that is not performed is
never answered stops there. -/
theorem stepsStopOnlyWhereTheSpecSaysSo : Obligations.StepsStopOnlyWhereTheSpecSaysSo := by
  intro s
  refine ⟨fun hn f h => ?_, fun f h => step_fault h, fun hb hq => ⟨fun i ha hb' hl hi hbefore => ?_, fun op hd => ?_⟩,
    fun r h => step_refused h⟩
  · obtain ⟨⟨k, a, -, hsilent⟩, -⟩ := step_fault h
    exact busAnswer_ne_silent hn k a hsilent
  · have hc := checkDistArgs_distArgs_of_legal ha hb' hl
    exact ⟨fun hs => exec_hdist_of_silent hb hq (distStop_of_first hc hi hbefore (.inl (accessStop_of_silent hs))),
      fun hok hs =>
        exec_hdist_of_silent hb hq (distStop_of_first hc hi hbefore (.inr ⟨hok, accessStop_of_silent hs⟩))⟩
  · refine ⟨fun x y ch hcov hch hbefore hs => ?_, fun j hreads hj hbefore hs => ?_⟩
    · exact exec_hash_of_silent hb hq (hashStop_of_readStop (s := s.accept (.hash op)) (hashReadStop_of_first
        (checkHashArgs_of_failingDetail_none hd) hcov hch hbefore (accessStop_of_silent hs)))
    · have hr := hashReadStop_of_readsAnswered hd hreads
      exact exec_hash_of_silent hb hq (hashStop_of_first_write hr (memFingerprint_length hd ▸ hj) hbefore
        (accessStop_of_silent hs))

end Sys2Proof.Machine
end

section
/-! PROOFS. Rounding (00_scope.md R20): the two multiples of the spacing that enclose an exact quotient have no
representable value between them, and the rounded value is the nearer one, or at a tie the even one. -/

namespace Sys2Proof.F64

/-- No representable value lies strictly between the multiples of the spacing that enclose `n` units. -/
theorem Representable.le_or_le {y : Nat} (hy : Representable y) (n : Nat) :
    y ≤ n / 2 ^ spareBits n * 2 ^ spareBits n ∨ (n / 2 ^ spareBits n + 1) * 2 ^ spareBits n ≤ y := by
  have hd := Nat.two_pow_pos (spareBits n)
  rcases Nat.lt_or_ge n y with hlt | hle
  · right
    obtain ⟨t, rfl⟩ := hy.dvd_of_le hlt.le
    rw [Nat.mul_comm _ t]
    exact Nat.mul_le_mul_right _ (Nat.div_lt_of_lt_mul hlt)
  · left
    rcases Nat.eq_zero_or_pos (spareBits n) with h0 | h0
    · simpa [h0] using hle
    have hn := pow_spareBits_le h0
    have hsplit : 2 ^ (spareBits n + 52) = 2 ^ 52 * 2 ^ spareBits n := by rw [Nat.add_comm, Nat.pow_add]
    rcases Nat.lt_or_ge y (2 ^ (spareBits n + 52)) with hsmall | hbig
    · rw [hsplit] at hn hsmall
      exact hsmall.le.trans (Nat.mul_le_mul_right _ ((Nat.le_div_iff_mul_le hd).mpr hn))
    · have hy0 : y ≠ 0 := (Nat.two_pow_pos _).trans_le hbig |>.ne'
      have hspare : spareBits n ≤ spareBits y := by
        have := (Nat.le_log2 hy0).mpr hbig
        rw [spareBits.eq_def y]
        omega
      obtain ⟨t, rfl⟩ := (Nat.pow_dvd_pow 2 hspare).trans (hy.dvd_of_le le_rfl)
      rw [Nat.mul_comm _ t] at hle ⊢
      exact Nat.mul_le_mul_right _ ((Nat.le_div_iff_mul_le hd).mpr hle)

/-- The integer nearest to a quotient, with the even one at a tie. -/
theorem divNearestEven_spec (p q : Nat) :
    (divNearestEven p q = p / q ∧ 2 * (p % q) ≤ q ∧ (2 * (p % q) = q → p / q % 2 = 0)) ∨
    (divNearestEven p q = p / q + 1 ∧ q ≤ 2 * (p % q) ∧ (2 * (p % q) = q → (p / q + 1) % 2 = 0)) := by
  unfold divNearestEven
  split_ifs with h
  · exact .inl ⟨rfl, by omega, by omega⟩
  · exact .inr ⟨rfl, by omega, by omega⟩

/-- The distances, times `q`, of the quotient `p / q` from the two multiples of `d` that enclose it, and from a value
outside them. -/
theorem distances {k d q p r y : Nat} (hp : p = k * (q * d) + r) (hr : r < q * d) :
    |(((k * d : Nat) : Int) * q - p)| = r ∧ |((((k + 1) * d : Nat) : Int) * q - p)| = ((q * d : Nat) : Int) - r ∧
    (y ≤ k * d → |((y : Int) * q - p)| = r + |(((k * d : Nat) : Int) - y)| * q) ∧
    ((k + 1) * d ≤ y →
      |((y : Int) * q - p)| = ((q * d : Nat) : Int) - r + |((((k + 1) * d : Nat) : Int) - y)| * q) := by
  have hr' : (r : Int) < q * d := by exact_mod_cast hr
  have hr0 : (0 : Int) ≤ r := Int.natCast_nonneg r
  refine ⟨?_, ?_, fun hy => ?_, fun hy => ?_⟩
  · rw [hp, abs_sub_comm, abs_of_nonneg] <;> push_cast <;> linarith
  · rw [hp, abs_of_nonneg] <;> push_cast <;> linarith
  · have hx : (0 : Int) ≤ ((k * d : Nat) : Int) - y := by omega
    have hxq := mul_nonneg hx (Int.natCast_nonneg q)
    rw [abs_of_nonneg hx, hp, abs_sub_comm, abs_of_nonneg] <;> push_cast at hxq ⊢ <;> linarith
  · have hx : (0 : Int) ≤ y - (((k + 1) * d : Nat) : Int) := by omega
    have hxq := mul_nonneg hx (Int.natCast_nonneg q)
    rw [abs_sub_comm (((k + 1) * d : Nat) : Int), abs_of_nonneg hx, hp, abs_of_nonneg] <;>
      push_cast at hxq ⊢ <;> linarith

/-- A rounded value as a multiple of the spacing, with the remainder that decides it. -/
theorem roundUnits_spec (p : Nat) {q : Nat} (hq : 0 < q) :
    ∃ k r, p = k * (q * 2 ^ spareBits (p / q)) + r ∧ r < q * 2 ^ spareBits (p / q) ∧
      k = p / q / 2 ^ spareBits (p / q) ∧
      ((roundUnits p q = k * 2 ^ spareBits (p / q) ∧ 2 * r ≤ q * 2 ^ spareBits (p / q) ∧
          (2 * r = q * 2 ^ spareBits (p / q) → 2 ∣ k)) ∨
        (roundUnits p q = (k + 1) * 2 ^ spareBits (p / q) ∧ q * 2 ^ spareBits (p / q) ≤ 2 * r ∧
          (2 * r = q * 2 ^ spareBits (p / q) → 2 ∣ k + 1))) := by
  have hspec := divNearestEven_spec p (q * 2 ^ spareBits (p / q))
  refine ⟨p / (q * 2 ^ spareBits (p / q)), p % (q * 2 ^ spareBits (p / q)), (Nat.div_add_mod' _ _).symm,
    Nat.mod_lt _ (Nat.mul_pos hq (Nat.two_pow_pos _)), (Nat.div_div_eq_div_mul ..).symm, ?_⟩
  simp only [Nat.dvd_iff_mod_eq_zero, roundUnits]
  exact hspec.imp (fun h => ⟨by rw [h.1], h.2⟩) (fun h => ⟨by rw [h.1], h.2⟩)

/-- Of the two enclosing multiples let `a` be one not farther than `b`, at the distances `ra` and `rb`. A value outside
them is no nearer than `a`, and as near only if it is `b` and the quotient lies in the middle. -/
theorem nearest_of_outside {a b y q : Nat} {ra rb dy : Int} (hq : 0 < q) (hle : ra ≤ rb)
    (hy : dy = ra + |((a : Int) - y)| * q ∨ dy = rb + |((b : Int) - y)| * q) :
    ra ≤ dy ∧ (y ≠ a → ra = dy → y = b ∧ ra = rb) := by
  have hpos (x : Int) : 0 ≤ |x| * q := mul_nonneg (abs_nonneg x) (Int.natCast_nonneg q)
  have hzero {x : Nat} (h : |((x : Int) - y)| * q = 0) : y = x := by
    rcases mul_eq_zero.mp h with h | h
    · have := abs_eq_zero.mp h
      omega
    · omega
  rcases hy with rfl | rfl
  · exact ⟨by linarith [hpos (a - y)], fun hne heq => absurd (hzero (by linarith)) hne⟩
  · have hb := hpos (b - y)
    exact ⟨by linarith, fun _ heq => ⟨hzero (by linarith), by linarith⟩⟩

theorem two_pow_succ_dvd {k : Nat} (h : 2 ∣ k) (e : Nat) : 2 ^ (e + 1) ∣ k * 2 ^ e := by
  rw [Nat.pow_succ, Nat.mul_comm]
  exact Nat.mul_dvd_mul h dvd_rfl

end Sys2Proof.F64

namespace Sys2Proof.Machine

open F64

/-- Settles O40: a representable value is one of the two enclosing multiples or lies outside them, and then is farther
from the quotient than the one on its side. -/
theorem roundingIsToNearestTiesToEven : Obligations.RoundingIsToNearestTiesToEven := by
  intro p q hq
  refine ⟨roundUnits_representable p hq, fun y hy => ?_⟩
  obtain ⟨k, r, hp, hr, hk, hround⟩ := roundUnits_spec p hq
  have hside := hk ▸ hy.le_or_le (p / q)
  obtain ⟨hlo, hhi, hbelow, habove⟩ := distances (y := y) hp hr
  generalize spareBits (p / q) = e at *
  generalize q * 2 ^ e = D at *
  rcases hround with ⟨h, hle, heven⟩ | ⟨h, hle, heven⟩ <;> rw [h]
  · obtain ⟨hmin, htie⟩ := nearest_of_outside hq (by omega) (hside.imp hbelow habove)
    rw [hlo]
    refine ⟨hmin, fun hne heq => ?_⟩
    obtain ⟨hy, hmid⟩ := htie hne heq
    exact ⟨e, .inl (by rw [hy, Nat.succ_mul]), two_pow_succ_dvd (heven (by omega)) e⟩
  · obtain ⟨hmin, htie⟩ := nearest_of_outside hq (by omega) (hside.imp hbelow habove).symm
    rw [hhi]
    refine ⟨hmin, fun hne heq => ?_⟩
    obtain ⟨hy, hmid⟩ := htie hne heq
    exact ⟨e, .inr (by rw [hy, Nat.succ_mul]), two_pow_succ_dvd (heven (by omega)) e⟩

end Sys2Proof.Machine
end

section
/-! PROOFS. The binary64 primitives (00_scope.md R20, R21): each rounds the exact result of its operands, and the exact
ones do not round. -/

namespace Sys2Proof.F64

/-- Rounding is symmetric in the sign. -/
theorem roundSigned_neg_natCast (p q : Nat) : roundSigned (-(p : Int)) q = ⟨-(roundUnits p q : Int)⟩ := by
  have hpos := roundSigned_natCast p q
  simp only [roundSigned, F64.mk.injEq, Int.natAbs_natCast] at hpos
  simp only [roundSigned, Int.sign_neg, Int.natAbs_neg, Int.natAbs_natCast, Int.neg_mul, hpos]

/-- A difference in the other order is negative (log 11). -/
theorem sub_ofUnits_neg {a b : Nat} (h : b ≤ a) :
    (sub (ofUnits b) (ofUnits a)).units = -(roundUnits (a - b) 1 : Int) := by
  have hd : (b : Int) - a = -((a - b : Nat) : Int) := by omega
  rw [sub, ofUnits_units, ofUnits_units, hd, roundSigned_neg_natCast]

theorem floor_le_and_lt (a : Nat) :
    (ofUnits a).floor * scale ≤ a ∧ a < ((ofUnits a).floor + 1) * scale := by
  rw [floor_ofUnits, Nat.mul_comm (_ + 1)]
  exact ⟨Nat.div_mul_le_self a scale, Nat.lt_mul_div_succ a scale_pos⟩

theorem le_ceil_and_lt (a : Nat) :
    a ≤ (ofUnits a).ceil * scale ∧ (ofUnits a).ceil * scale < a + scale := by
  have hpos := scale_pos
  have hfloor := Nat.div_add_mod' (a + (scale - 1)) scale
  have hmod := Nat.mod_lt (a + (scale - 1)) hpos
  rw [ceil_ofUnits]
  omega

end Sys2Proof.F64

namespace Sys2Proof.Machine

open F64

/-- Settles O41: each primitive on values given by their units. -/
theorem primitivesRoundTheExactResult : Obligations.PrimitivesRoundTheExactResult := by
  intro a b
  refine ⟨fun ha => ?_, congrArg F64.units (add_ofUnits a b),
    fun h => ⟨congrArg F64.units (sub_ofUnits h), sub_ofUnits_neg h⟩, congrArg F64.units (mul_ofUnits a b),
    fun _ => congrArg F64.units (div_ofUnits a b), fun _ => ?_, floor_le_and_lt a, le_ceil_and_lt a,
    fun u v => ⟨?_, ?_, ?_⟩⟩
  · rw [ofNat_eq ha, ofUnits_units, Nat.cast_mul]
  · have hmod : ((a % b : Nat) : Int) = a - b * (a / b : Nat) := by
      push_cast
      exact Int.emod_def ..
    exact (congrArg F64.units (fmod_ofUnits a b)).trans hmod
  · exact Int.natCast_natAbs u.units
  · simp [F64.lt]
  · simp [F64.eq]

end Sys2Proof.Machine
end

section
/-! PROOFS. The Quantizer's decision (41_quantizer.md R151, R153, R155): the sort gives the one ascending
sequence of a band's values, and below the median the bit follows the rounded difference. -/

namespace Sys2Proof.Machine

open F64

/-! ## The median -/

/-- The order by units. -/
def unitsLE (u v : F64) : Prop := u.units ≤ v.units

theorem lt_eq_false_iff (u v : F64) : F64.lt v u = false ↔ unitsLE u v := by simp [F64.lt, unitsLE]

theorem insertAsc_perm (v : F64) (l : List F64) : (insertAsc v l).Perm (v :: l) := by
  induction l with
  | nil => exact .refl _
  | cons u l ih =>
    rw [insertAsc]
    split_ifs
    · exact (ih.cons u).trans (.swap v u l)
    · exact .refl _

theorem sortAsc_perm (l : List F64) : (sortAsc l).Perm l := by
  induction l with
  | nil => exact .refl _
  | cons v l ih => exact (insertAsc_perm v _).trans (ih.cons v)

theorem insertAsc_ascending (v : F64) {l : List F64} (hl : l.Pairwise unitsLE) : (insertAsc v l).Pairwise unitsLE := by
  induction l with
  | nil => exact List.pairwise_singleton _ _
  | cons u l ih =>
    obtain ⟨hu, hrest⟩ := List.pairwise_cons.mp hl
    rw [insertAsc]
    split_ifs with h
    · refine List.pairwise_cons.mpr ⟨fun w hw => ?_, ih hrest⟩
      rcases List.mem_cons.mp ((insertAsc_perm v l).mem_iff.mp hw) with rfl | hw
      · exact (of_decide_eq_true h).le
      · exact hu w hw
    · have hvu : unitsLE v u := (lt_eq_false_iff v u).mp (by simpa using h)
      refine List.pairwise_cons.mpr ⟨fun w hw => ?_, hl⟩
      rcases List.mem_cons.mp hw with rfl | hw
      · exact hvu
      · exact le_trans hvu (hu w hw)

theorem sortAsc_ascending (l : List F64) : (sortAsc l).Pairwise unitsLE := by
  induction l with
  | nil => exact .nil
  | cons v l ih => exact insertAsc_ascending v ih

/-- The ascending sequence of a band does not depend on its order: values of equal units are equal. -/
theorem sortAsc_eq_of_perm {l l' : List F64} (h : l.Perm l') : sortAsc l = sortAsc l' := by
  refine List.Perm.eq_of_pairwise (fun u v _ _ huv hvu => ?_) (sortAsc_ascending l) (sortAsc_ascending l')
    ((sortAsc_perm l).trans (h.trans (sortAsc_perm l').symm))
  have hunits : u.units = v.units := le_antisymm huv hvu
  cases u; cases v; cases hunits; rfl

theorem getElem?_sortAsc {l : List F64} {i : Nat} (hi : i < l.length) :
    (sortAsc l)[i]? = some ((sortAsc l).getD i F64.zero) := by
  have hi' : i < (sortAsc l).length := (sortAsc_length l).symm ▸ hi
  rw [List.getElem?_eq_getElem hi', List.getD_eq_getElem _ _ hi']

/-- Settles O42: two ascending sequences of the same values are one, and the median reads its middle. -/
theorem medianIsOrderFree : Obligations.MedianIsOrderFree := by
  refine ⟨fun l => ⟨sortAsc_perm l, ?_⟩, fun l l' h => ?_, fun l hodd => ?_, fun l hpos heven => ?_⟩
  · exact (sortAsc_ascending l).imp fun {u v} h => (lt_eq_false_iff u v).mpr h
  · rw [median, median, sortAsc_eq_of_perm h, h.length_eq]
  · rw [median, if_pos hodd]
    exact getElem?_sortAsc (by omega)
  · refine ⟨_, _, getElem?_sortAsc (by omega), getElem?_sortAsc (by omega), ?_⟩
    rw [median, if_neg (by omega)]
    rfl

/-! ## The bit decision -/

theorem decideBit_of_above {m v : F64} (h : F64.lt m v = true) (half : F64) : decideBit m half v = true := by
  rw [decideBit, h, Bool.true_or]

theorem decideBit_of_median_le_half {m half v : F64} (hv : F64.lt m v = false) (hm : F64.lt half m = false) :
    decideBit m half v = false := by
  rw [decideBit, hv, hm, Bool.and_false, Bool.or_false]

/-- A rounded difference below 1.0 is a near-tie, which half decides (41_quantizer.md R153). -/
theorem decideBit_of_near {m half v : F64} (h : v.units < m.units)
    (hnear : roundUnits (m.units - v.units).toNat 1 < F64.scale) : decideBit m half v = F64.lt half m := by
  rw [decideBit_of_lt h, decide_eq_true hnear, Bool.true_and]

/-- Rounding a difference does not pass a representable bound on it. -/
theorem roundUnits_difference_le {d y : Nat} (hy : Representable y) (h : d ≤ y) : roundUnits d 1 ≤ y :=
  roundUnits_le one_pos hy (by rwa [Nat.mul_one])

theorem representable_scale : Representable F64.scale := by
  simpa using representable_nat (n := 1) (by norm_num)

/-- A value at 1.0 or more below the median gives 0 (41_quantizer.md R155). -/
theorem decideBit_of_far {m half v : F64} (h : v.units + F64.scale ≤ m.units) : decideBit m half v = false := by
  have hpos := scale_pos
  have hfar : F64.scale ≤ roundUnits (m.units - v.units).toNat 1 :=
    le_roundUnits one_pos representable_scale (by omega)
  rw [decideBit_of_lt (by omega), decide_eq_false (by omega), Bool.false_and]

theorem representable_half_scale {k : Nat} (h : 2 * k = F64.scale) : Representable k := by
  obtain ⟨e, he, hs⟩ := scale_eq
  obtain ⟨d, rfl⟩ := Nat.exists_eq_add_of_le' (show 1 ≤ e by omega)
  refine ⟨1, d, by norm_num, ?_⟩
  rw [hs, Nat.pow_succ] at h
  omega

/-- A value 0.5 below the median is a near-tie. -/
theorem decideBit_of_half_below {m half v : F64} (h : 2 * v.units + F64.scale = 2 * m.units) :
    decideBit m half v = F64.lt half m := by
  have hpos := scale_pos
  have hk : 2 * (m.units - v.units).toNat = F64.scale := by omega
  have hround := roundUnits_difference_le (representable_half_scale hk) le_rfl
  exact decideBit_of_near (by omega) (by omega)

/-- A value less than 1.0 below the median is a near-tie where the difference is exact or the median below 1.0. -/
theorem decideBit_of_close {a b : Nat} (half : F64) (hba : b < a) (hab : a < b + F64.scale) (ha : Representable a)
    (hb : Representable b) (h : a ≤ 2 * b ∨ a < F64.scale) : decideBit ⟨a⟩ half ⟨b⟩ = F64.lt half ⟨a⟩ := by
  have hd : ((a : Int) - b).toNat = a - b := by omega
  refine decideBit_of_near (Int.ofNat_lt.mpr hba) ?_
  change roundUnits ((a : Int) - b).toNat 1 < F64.scale
  rw [hd]
  rcases h with h | h
  · exact (roundUnits_difference_le (ha.sub hb hba.le h) le_rfl).trans_lt (by omega)
  · exact (roundUnits_difference_le ha (Nat.sub_le a b)).trans_lt h

/-- Settles O43: at, above and below the median, and below it by the rounded difference. -/
theorem bitDecisionIsAsymmetric : Obligations.BitDecisionIsAsymmetric := by
  intro m half v
  refine ⟨fun h => decideBit_of_above h half, fun h => h ▸ decideBit_self half v, decideBit_of_far,
    decideBit_of_median_le_half, decideBit_of_half_below, fun a b hm hv hba hab ha hb h => ?_, fun h => ?_⟩
  · rw [hm, hv]
    exact decideBit_of_close half hba hab ha hb h
  · rw [decideBit_of_lt h, Bool.and_eq_true, decide_eq_true_eq]

end Sys2Proof.Machine
end

section
/-! PROOFS. Pixels and the weighted path (40_block_aggregator.md R120, R126 to R133): a pixel's intensity, the axis map
in units, and the cells as ordered sums of contributions. -/

namespace Sys2Proof.Machine

open Sys2Proof.Claims F64

/-- Settles O37: by the two branches of the intensity, and its bound. -/
theorem intensityOfAPixel : Obligations.IntensityOfAPixel := by
  refine fun r g b a => ⟨fun ha => if_pos ha, fun ha => if_neg ha, intensity_le r g b a, ?_⟩
  unfold intensity
  split_ifs <;> rfl

/-! ## The axis map in units -/

/-- The units of a block size are positive, representable, and no more than the axis's. -/
theorem blockUnits_bounds {n bits : Nat} (hn : 0 < n) (hn' : n ≤ 65535) (hb : 2 ≤ bits) (hb' : bits ≤ 254) :
    0 < blockUnits n bits ∧ Representable (blockUnits n bits) ∧ blockUnits n bits ≤ 65535 * F64.scale := by
  obtain ⟨z, hz, hz0, -⟩ := blockSize_units hn hn' hb hb'
  have hbits : 0 < bits := by omega
  rw [blockSize_eq hn' hb', ofUnits, ofUnits, F64.mk.injEq, Int.natCast_inj] at hz
  subst hz
  refine ⟨hz0, roundUnits_representable _ hbits, ?_⟩
  refine roundUnits_le hbits (representable_nat (by norm_num)) ?_
  calc n * F64.scale ≤ 65535 * F64.scale := Nat.mul_le_mul_right _ hn'
    _ ≤ 65535 * F64.scale * bits := Nat.le_mul_of_pos_right _ hbits

theorem lt_ofUnits_of_lt {a b : Nat} (h : a < b) : F64.lt (ofUnits a) (ofUnits b) = true := by
  rw [lt_ofUnits, decide_eq_true h]

theorem lt_ofUnits_of_le {a b : Nat} (h : b ≤ a) : F64.lt (ofUnits a) (ofUnits b) = false := by
  rw [lt_ofUnits, decide_eq_false h.not_gt]

/-- A positive number of units does not round to 0. -/
theorem roundUnits_pos_iff (d : Nat) : 0 < roundUnits d 1 ↔ 0 < d := by
  refine ⟨fun h => ?_, fun h => le_roundUnits one_pos representable_unit (by omega)⟩
  by_contra h0
  obtain rfl : d = 0 := by omega
  simp at h

/-- The integer part of `m` units is positive from 1.0 on. -/
theorem sub_mod_scale_pos_iff (m : Nat) : 0 < m - m % F64.scale ↔ F64.scale ≤ m := by
  have hmod := Nat.mod_le m F64.scale
  constructor
  · intro h
    by_contra hlt
    rw [Nat.mod_eq_of_lt (by omega)] at h
    omega
  · intro h
    have := Nat.mod_lt m scale_pos
    omega

theorem edgePos_blockUnits {i n : Nat} (hi : i < n) (hn : n ≤ 65535) (bits : Nat) :
    edgePos i (ofUnits (blockUnits n bits)) = ofUnits (edgeUnits i n bits) := edgePos_eq (by omega)

theorem quotient_blockUnits {i n : Nat} (hi : i < n) (hn : n ≤ 65535) (bits : Nat) :
    F64.div (F64.ofNat i) (ofUnits (blockUnits n bits)) = ofUnits (quotientUnits i n bits) := by
  rw [ofNat_eq (by omega), div_ofUnits]
  rfl

section
variable {i n bits : Nat} (hi : i < n) (hn : n ≤ 65535) (hb : 2 ≤ bits) (hb' : bits ≤ 254)
include hi hn hb hb'

theorem edgeFrac_blockUnits : edgeFrac i (ofUnits (blockUnits n bits)) = ofUnits (edgeUnits i n bits % F64.scale) := by
  obtain ⟨hpos, hrep, hle⟩ := blockUnits_bounds (by omega) hn hb hb'
  exact edgeFrac_eq (by omega) hpos hrep hle

/-- A pixel is not split where its edge lies 1.0 or more into its block or on a boundary, or at the end of the axis. -/
theorem notSplit_blockUnits : notSplit i n (ofUnits (blockUnits n bits)) =
    decide (F64.scale ≤ edgeUnits i n bits ∨ i + 1 = n ∨ edgeUnits i n bits = 0) := by
  have hpos := edgePos_blockUnits hi hn bits
  have hfrac := edgeFrac_blockUnits hi hn hb hb'
  have hwhole : F64.lt F64.zero (edgeWhole i (ofUnits (blockUnits n bits))) =
      decide (F64.scale ≤ edgeUnits i n bits) := by
    rw [edgeWhole, hpos, hfrac, sub_ofUnits (Nat.mod_le _ _), zero_eq, lt_ofUnits, decide_eq_decide,
      roundUnits_pos_iff, sub_mod_scale_pos_iff]
  rw [notSplit, hwhole, hpos, zero_eq, eq_ofUnits, beq_eq_decide]
  simp only [Bool.decide_or, Bool.or_assoc]

/-- The axis map of an uneven axis (40_block_aggregator.md R128, R129). -/
theorem axisMap_of_not_dvd (h : ¬ bits ∣ n) : axisMap i n bits = {
    lo := quotientUnits i n bits / F64.scale
    hi := if F64.scale ≤ edgeUnits i n bits ∨ i + 1 = n ∨ edgeUnits i n bits = 0 then
        quotientUnits i n bits / F64.scale
      else (quotientUnits i n bits + (F64.scale - 1)) / F64.scale
    wLo := ofUnits (roundUnits (F64.scale - edgeUnits i n bits % F64.scale) 1)
    wHi := ofUnits (edgeUnits i n bits % F64.scale) } := by
  have hsize : blockSize n bits = ofUnits (blockUnits n bits) := blockSize_eq hn hb'
  have hfrac := edgeFrac_blockUnits hi hn hb hb'
  have hle : edgeUnits i n bits % F64.scale ≤ F64.scale := (Nat.mod_lt _ scale_pos).le
  rw [axisMap, if_neg (by rwa [← Nat.dvd_iff_mod_eq_zero]), hsize, unevenAxis, hfrac, one_eq, sub_ofUnits hle,
    quotient_blockUnits hi hn bits, floor_ofUnits, ceil_ofUnits, notSplit_blockUnits hi hn hb hb']
  simp only [decide_eq_true_eq]

end

theorem axisMap_of_dvd (i : Nat) {n bits : Nat} (h : bits ∣ n) :
    axisMap i n bits = ⟨i / (n / bits), i / (n / bits), F64.one, F64.zero⟩ := by
  rw [axisMap, if_pos (Nat.dvd_iff_mod_eq_zero.mp h), evenAxis]

/-- 1 minus a fraction, rounded, is above 0 and at most 1. -/
theorem roundUnits_rest_bounds (m : Nat) :
    0 < roundUnits (F64.scale - m % F64.scale) 1 ∧ roundUnits (F64.scale - m % F64.scale) 1 ≤ F64.scale := by
  have hlt := Nat.mod_lt m scale_pos
  exact ⟨(roundUnits_pos_iff _).mpr (by omega), roundUnits_difference_le representable_scale (Nat.sub_le _ _)⟩

/-! ## The cells of the weighted path -/

/-- The four additions of a pixel, each with its cell (40_block_aggregator.md R131). -/
def pixelContributions (w h bits : Nat) (pix : Nat → Nat → Nat) (p : Nat × Nat) : List (Nat × F64) :=
  let row := axisMap p.2 h bits
  let col := axisMap p.1 w bits
  [(row.lo * bits + col.lo, share (pix p.1 p.2) row.wLo col.wLo),
    (row.lo * bits + col.hi, share (pix p.1 p.2) row.wLo col.wHi),
    (row.hi * bits + col.lo, share (pix p.1 p.2) row.wHi col.wLo),
    (row.hi * bits + col.hi, share (pix p.1 p.2) row.wHi col.wHi)]

theorem contributions_eq (w h bits : Nat) (pix : Nat → Nat → Nat) :
    contributions w h bits pix = (raster w h).flatMap (pixelContributions w h bits pix) := by
  simp only [raster, List.flatMap_assoc, List.flatMap_map]
  rfl

/-- The weighted grid is its contributions, added one by one. -/
theorem weightedAggregate_grid (w h bits : Nat) (pix : Nat → Nat → Nat) :
    (weightedAggregate w h bits pix).grid =
      (contributions w h bits pix).foldl (fun g p => g.modify p.1 fun cell => F64.add cell p.2)
        (List.replicate (bits * bits) F64.zero) := by
  rw [contributions_eq, List.foldl_flatMap]
  rfl

theorem weightedAggregate_ppb {w h bits : Nat} (hw : w ≤ 65535) (hh : h ≤ 65535) (hb : bits ≤ 254)
    (pix : Nat → Nat → Nat) : (weightedAggregate w h bits pix).ppb =
      ofUnits (roundUnits (blockUnits w bits * blockUnits h bits) F64.scale) := by
  rw [weightedAggregate, blockSize_eq hw hb, blockSize_eq hh hb, mul_ofUnits]
  rfl

/-- Settles O39: the weights and indices by whether the axis is even, and the cells by their contributions. -/
theorem axisWeightsAndSplits : Obligations.AxisWeightsAndSplits := by
  refine ⟨fun i n bits hi hn hb hb' _ => ?_, fun w h bits pix => ⟨fun j hj => ?_, fun hw hh _ hb' => ?_⟩⟩
  · by_cases hdvd : bits ∣ n
    · rw [axisMap_of_dvd i hdvd, one_eq, zero_eq]
      exact ⟨lt_ofUnits_of_lt scale_pos, lt_ofUnits_of_le le_rfl, lt_ofUnits_of_le le_rfl, lt_ofUnits_of_lt scale_pos,
        fun _ => rfl, fun _ => ⟨rfl, rfl, rfl⟩, fun h => absurd hdvd h⟩
    · obtain ⟨hpos, hle⟩ := roundUnits_rest_bounds (edgeUnits i n bits)
      have hfrac := Nat.mod_lt (edgeUnits i n bits) scale_pos
      rw [axisMap_of_not_dvd hi hn hb hb' hdvd, one_eq, zero_eq]
      exact ⟨lt_ofUnits_of_lt hpos, lt_ofUnits_of_le hle, lt_ofUnits_of_le (Nat.zero_le _), lt_ofUnits_of_lt hfrac,
        fun h => if_pos (.inr (.inl (h.resolve_left hdvd))), fun h => absurd h hdvd, fun _ => ⟨rfl, rfl, rfl, rfl⟩⟩
  · rw [weightedAggregate_grid, getElem?_foldl_modify, List.getElem?_replicate_of_lt hj, Option.map_some]
  · rw [weightedAggregate_ppb hw hh hb', ofUnits_units]

end Sys2Proof.Machine
end
